-- ==== Sys2Proof/Word.lean ====
section
/-! DEFINITION. The bit vectors of the block: what spec/ treats as bits, and nothing else. Irq ids, context
indices, bitmap word indices, addresses and widths are natural numbers (00_scope.md R5). -/

namespace Sys2Proof

/-- `u32` of 00_scope.md R5, R6: priorities, thresholds, claim cells and bitmap words. Always unsigned. -/
abbrev Word := BitVec 32

/-- One flag for each irq id `0 .. MAX_IRQ`, flag `irq` at bit `irq` (10_state.md R12, R15: "bitset over IRQ
space"). The 32-bit word view of it is computed (Machine/Flags.lean). -/
abbrev IrqSet := BitVec 512

/-- The 24-bit selector word of 30_encoding.md R51. -/
abbrev Selector := BitVec 24

/-- A byte offset inside the window as the selector word holds it, `sel[21:0]` (30_encoding.md R51). -/
abbrev Offset := BitVec 22

/-- A byte that holds the 5-bit operation code of 30_encoding.md R62. -/
abbrev OpByte := BitVec 8

end Sys2Proof
end

