-- ==== Sys2Proof/Syntax.lean ====
section
/-! DEFINITION. The requests of the block. It has no instruction set (00_scope.md R1, decision D2): one constructor
of `Instr` for each of the 14 MMIO rows (30_encoding.md R61) and 20 port operations (R62) of opcode_table.json.
`Request` is the raw form, a word and the arguments that stand beside it. -/

namespace Sys2Proof

/-- A request to the block. In the MMIO rows an index is the field of the selector word that R61 names for it; in
the port operations it is a natural number without an upper bound (00_scope.md R5). -/
inductive Instr where
  /-- `PRIORITY.R` (R134): serviced read, `irq = off[11:2]`. -/
  | priorityR (irq : BitVec 10)
  /-- `PRIORITY.W` (R135). -/
  | priorityW (irq : BitVec 10) (value : Word)
  /-- `PENDING.R` (R136): serviced read, `w = off[11:2]`. -/
  | pendingR (w : BitVec 10)
  /-- `PENDING.W` (R137). -/
  | pendingW (w : BitVec 10) (value : Word)
  /-- `THRESHOLD.R` (R140): serviced read, `ctx = off[20:12]`. -/
  | thresholdR (ctx : BitVec 9)
  /-- `THRESHOLD.W` (R141). -/
  | thresholdW (ctx : BitVec 9) (value : Word)
  /-- `CLAIM.R` (R142): serviced read, `ctx = off[20:12]`; performs a claim. -/
  | claimR (ctx : BitVec 9)
  /-- `CLAIM.W` (R143); performs a completion. -/
  | claimW (ctx : BitVec 9) (value : Word)
  /-- `NOREG.R` (R144): serviced read of local word `off[11:2]`, not 0 or 1, of the block of `off[20:12]`. -/
  | noregR (ctx : BitVec 9) (word : BitVec 10)
  /-- `NOREG.W` (R145). -/
  | noregW (ctx : BitVec 9) (word : BitVec 10) (value : Word)
  /-- `ENABLE.R` (R138): serviced read, `ctx = off[20:7] - 64`, `w = off[6:2]`. -/
  | enableR (ctx : BitVec 14) (w : BitVec 5)
  /-- `ENABLE.W` (R139). -/
  | enableW (ctx : BitVec 14) (w : BitVec 5) (value : Word)
  /-- `UNSERVICED.R` (R146): a read that is not 4 bytes wide (`w4 = false`) or not aligned. -/
  | unservicedR (w4 : Bool) (off : Offset)
  /-- `UNSERVICED.W` (R147). -/
  | unservicedW (w4 : Bool) (off : Offset) (value : Word)
  /-- `GET_PRIO` (R72). -/
  | getPrio (irq : Nat)
  /-- `SET_PRIO` (R73). -/
  | setPrio (irq : Nat) (p : Word)
  /-- `GET_PENDING` (R74). -/
  | getPending (irq : Nat)
  /-- `SET_PENDING` (R75). -/
  | setPending (irq : Nat)
  /-- `CLEAR_PENDING` (R76). -/
  | clearPending (irq : Nat)
  /-- `GET_PENDING_WORD` (R77). -/
  | getPendingWord (w : Nat)
  /-- `SET_PENDING_WORD` (R78). -/
  | setPendingWord (w : Nat) (v : Word)
  /-- `GET_ENABLE_BIT` (R79). -/
  | getEnableBit (ctx irq : Nat)
  /-- `SET_ENABLE_BIT` (R80). -/
  | setEnableBit (ctx irq : Nat) (e : Bool)
  /-- `GET_ENABLE_WORD` (R81). -/
  | getEnableWord (ctx w : Nat)
  /-- `SET_ENABLE_WORD` (R82). -/
  | setEnableWord (ctx w : Nat) (v : Word)
  /-- `GET_THRESHOLD` (R83). -/
  | getThreshold (ctx : Nat)
  /-- `SET_THRESHOLD` (R84). -/
  | setThreshold (ctx : Nat) (t : Word)
  /-- `GET_CLAIM` (R87). -/
  | getClaim (ctx : Nat)
  /-- `SET_CLAIM` (R88). -/
  | setClaim (ctx : Nat) (v : Word)
  /-- `CLAIM_IRQ` (R110; relaxed variant R115, R116). -/
  | claimIrq (ctx : Nat)
  /-- `COMPLETE_IRQ` (R119). -/
  | completeIrq (ctx : Nat) (irqArgument : Word)
  /-- `ADDRESS_RANGE` (R130). -/
  | addressRange
  /-- `MMIO_READ` (R132): any guest address, any width in bytes. -/
  | mmioRead (addr width : Nat)
  /-- `MMIO_WRITE` (R133); the host's type of the value may be wider than 32 bits (R149). -/
  | mmioWrite (addr width value : Nat)
  deriving DecidableEq, Repr

/-- A request as it is presented: an MMIO transaction with its selector word (30_encoding.md R51), or a port
operation with its operation code (R62). The arguments are not in the word ("arguments are not encoded", "not in
sel"), so they stand beside it as natural numbers. DESIGN CHOICE (log 13). -/
inductive Request where
  | mmio (sel : Selector) (args : List Nat)
  | port (op : OpByte) (args : List Nat)
  deriving DecidableEq, Repr

/-- Why a `Request` is no request of the spec. Raised by the decoder only; safe, since the spec's own requests all
decode (log 13). -/
inductive DecodeError where
  /-- The byte is no operation code of 30_encoding.md R62 (above `10011`). -/
  | unassignedOp
  /-- The call has more or fewer arguments than the operation's rule names. -/
  | wrongArgumentCount
  /-- An argument whose rule gives it the type `u32` is `2^32` or more. -/
  | argumentNotU32
  /-- An argument whose rule gives it the type `bool` is neither 0 nor 1. -/
  | argumentNotBool
  deriving DecidableEq, Repr

end Sys2Proof
end

