-- ==== Sys2Proof/WellFormed.lean ====
section
/-! DEFINITION. Which terms of `Instr` a request can be decoded to: the ranges of 30_encoding.md R56, R57, R61. A port
operation is well formed for every argument (00_scope.md R5, 40_store_ops.md R71). -/

namespace Sys2Proof

/-- `ctx = (off - 0x2000) / 0x80` ranges over `0 .. 16319` in the enable region (R56). -/
def enableContextOk (ctx : BitVec 14) : Bool := decide (ctx.toNat < 16320)

/-- Local offsets `0` and `4` of a threshold/claim block are registers; `NoRegister` is every other local offset
(R57, R58), of which the serviced ones are `8, 12, ..., 0xFFC`. -/
def noregWordOk (word : BitVec 10) : Bool := decide (2 ≤ word.toNat)

/-- An access is unserviced unless it is 4 bytes wide and aligned (43_mmio_front_end.md R131). -/
def unservicedOk (w4 : Bool) (off : Offset) : Bool := !(w4 && decide (off.toNat % 4 = 0))

/-- The well-formed requests. -/
def Instr.wf : Instr → Bool
  | .enableR ctx _ => enableContextOk ctx
  | .enableW ctx _ _ => enableContextOk ctx
  | .noregR _ word => noregWordOk word
  | .noregW _ word _ => noregWordOk word
  | .unservicedR w4 off => unservicedOk w4 off
  | .unservicedW w4 off _ => unservicedOk w4 off
  | .priorityR _ => true
  | .priorityW _ _ => true
  | .pendingR _ => true
  | .pendingW _ _ => true
  | .thresholdR _ => true
  | .thresholdW _ _ => true
  | .claimR _ => true
  | .claimW _ _ => true
  | .getPrio _ => true
  | .setPrio _ _ => true
  | .getPending _ => true
  | .setPending _ => true
  | .clearPending _ => true
  | .getPendingWord _ => true
  | .setPendingWord _ _ => true
  | .getEnableBit _ _ => true
  | .setEnableBit _ _ _ => true
  | .getEnableWord _ _ => true
  | .setEnableWord _ _ _ => true
  | .getThreshold _ => true
  | .setThreshold _ _ => true
  | .getClaim _ => true
  | .setClaim _ _ => true
  | .claimIrq _ => true
  | .completeIrq _ _ => true
  | .addressRange => true
  | .mmioRead _ _ => true
  | .mmioWrite _ _ _ => true

end Sys2Proof
end

