-- ==== Sys2Proof/Decode.lean ====
section
/-! DEFINITION. The decoder of requests, written from the tables of 30_encoding.md R61 and R62, and after it the
encoder. The decoder is total; what it rejects it rejects by name (`DecodeError`). Every selector word decodes
(R63). -/

namespace Sys2Proof

/-- The rows of the match/mask table of 30_encoding.md R61. -/
inductive SelRow where
  | priorityR | priorityW | pendingR | pendingW | thresholdR | thresholdW | claimR | claimW
  | noregR | noregW | enableR | enableW | unservicedR | unservicedW
  deriving DecidableEq, Repr

/-- One line of the table of R61. -/
structure SelPattern where
  mask : Selector
  pattern : Selector
  row : SelRow
  deriving DecidableEq, Repr

/-- The table of 30_encoding.md R61 in its order. -/
def selTable : List SelPattern :=
  [ ⟨0xFFF003, 0x400000, .priorityR⟩,
    ⟨0xFFF003, 0xC00000, .priorityW⟩,
    ⟨0xFFF003, 0x401000, .pendingR⟩,
    ⟨0xFFF003, 0xC01000, .pendingW⟩,
    ⟨0xE00FFF, 0x600000, .thresholdR⟩,
    ⟨0xE00FFF, 0xE00000, .thresholdW⟩,
    ⟨0xE00FFF, 0x600004, .claimR⟩,
    ⟨0xE00FFF, 0xE00004, .claimW⟩,
    ⟨0xE00003, 0x600000, .noregR⟩,
    ⟨0xE00003, 0xE00000, .noregW⟩,
    ⟨0xE00003, 0x400000, .enableR⟩,
    ⟨0xE00003, 0xC00000, .enableW⟩,
    ⟨0x800000, 0x000000, .unservicedR⟩,
    ⟨0x800000, 0x800000, .unservicedW⟩ ]

/-- The first row, read from the top, whose `(sel AND mask) = match` (R61). Rows 13 and 14 catch everything, so
the table never runs out. -/
def firstRow (sel : Selector) : List SelPattern → SelRow
  | [] => .unservicedW
  | r :: rest => if sel &&& r.mask = r.pattern then r.row else firstRow sel rest

/-- The row of a selector word (R61). -/
def classify (sel : Selector) : SelRow := firstRow sel selTable

/-- `off = sel[21:0]` (R51). -/
def selOff (sel : Selector) : Offset := sel.extractLsb' 0 22

/-- `sel[22] = w4` (R51). -/
def selW4 (sel : Selector) : Bool := sel.getLsbD 22

/-- `sel[23] = rw`, true for a write (R51). -/
def selIsWrite (sel : Selector) : Bool := sel.getLsbD 23

/-- `off[11:2]`: the irq of R54, the word of R55, the local word of R57. -/
def selIndex (sel : Selector) : BitVec 10 := sel.extractLsb' 2 10

/-- `off[20:12]`: the context of R57. -/
def selContext (sel : Selector) : BitVec 9 := sel.extractLsb' 12 9

/-- `off[20:7] - 64`: the context of R56. -/
def selEnableContext (sel : Selector) : BitVec 14 := sel.extractLsb' 7 14 - 64

/-- `off[6:2]`: the enable word of R56. -/
def selEnableWord (sel : Selector) : BitVec 5 := sel.extractLsb' 2 5

/-- The stored value is the low 32 bits of the value written (43_mmio_front_end.md R149). -/
def writeValue (value : Nat) : Word := BitVec.ofNat 32 value

/-- A request that takes no argument. -/
def noArgs (args : List Nat) (r : Except DecodeError Instr) : Except DecodeError Instr :=
  match args with
  | [] => r
  | _ :: _ => .error .wrongArgumentCount

/-- A request that takes one argument. -/
def oneArg (args : List Nat) (f : Nat → Except DecodeError Instr) : Except DecodeError Instr :=
  match args with
  | [a] => f a
  | _ => .error .wrongArgumentCount

/-- A request that takes two arguments. -/
def twoArgs (args : List Nat) (f : Nat → Nat → Except DecodeError Instr) : Except DecodeError Instr :=
  match args with
  | [a, b] => f a b
  | _ => .error .wrongArgumentCount

/-- A request that takes three arguments. -/
def threeArgs (args : List Nat) (f : Nat → Nat → Nat → Except DecodeError Instr) :
    Except DecodeError Instr :=
  match args with
  | [a, b, c] => f a b c
  | _ => .error .wrongArgumentCount

/-- An argument whose rule gives it the type `u32`. -/
def u32Arg (n : Nat) (f : Word → Instr) : Except DecodeError Instr :=
  if n < 2 ^ 32 then .ok (f (BitVec.ofNat 32 n)) else .error .argumentNotU32

/-- An argument whose rule gives it the type `bool`. -/
def boolArg (n : Nat) (f : Bool → Instr) : Except DecodeError Instr :=
  if n = 0 then .ok (f false) else if n = 1 then .ok (f true) else .error .argumentNotBool

/-- An MMIO transaction: the row its selector word matches first, with the index fields R61 names. A read carries
no argument; a write carries its value, truncated to 32 bits (R149). -/
def decodeMmio (sel : Selector) (args : List Nat) : Except DecodeError Instr :=
  match classify sel with
  | .priorityR => noArgs args (.ok (.priorityR (selIndex sel)))
  | .priorityW => oneArg args fun v => .ok (.priorityW (selIndex sel) (writeValue v))
  | .pendingR => noArgs args (.ok (.pendingR (selIndex sel)))
  | .pendingW => oneArg args fun v => .ok (.pendingW (selIndex sel) (writeValue v))
  | .thresholdR => noArgs args (.ok (.thresholdR (selContext sel)))
  | .thresholdW => oneArg args fun v => .ok (.thresholdW (selContext sel) (writeValue v))
  | .claimR => noArgs args (.ok (.claimR (selContext sel)))
  | .claimW => oneArg args fun v => .ok (.claimW (selContext sel) (writeValue v))
  | .noregR => noArgs args (.ok (.noregR (selContext sel) (selIndex sel)))
  | .noregW => oneArg args fun v => .ok (.noregW (selContext sel) (selIndex sel) (writeValue v))
  | .enableR => noArgs args (.ok (.enableR (selEnableContext sel) (selEnableWord sel)))
  | .enableW =>
      oneArg args fun v => .ok (.enableW (selEnableContext sel) (selEnableWord sel) (writeValue v))
  | .unservicedR => noArgs args (.ok (.unservicedR (selW4 sel) (selOff sel)))
  | .unservicedW => oneArg args fun v => .ok (.unservicedW (selW4 sel) (selOff sel) (writeValue v))

/-- The port operations as an enumeration (R62: "a model should use an enumeration type, not these numbers"). -/
inductive PortOp where
  | getPrio | setPrio | getPending | setPending | clearPending | getPendingWord | setPendingWord
  | getEnableBit | setEnableBit | getEnableWord | setEnableWord | getThreshold | setThreshold
  | getClaim | setClaim | claimIrq | completeIrq | addressRange | mmioRead | mmioWrite
  deriving DecidableEq, Repr

/-- The operation codes of the table of 30_encoding.md R62. -/
def portCode : PortOp → OpByte
  | .getPrio => 0b00000
  | .setPrio => 0b00001
  | .getPending => 0b00010
  | .setPending => 0b00011
  | .clearPending => 0b00100
  | .getPendingWord => 0b00101
  | .setPendingWord => 0b00110
  | .getEnableBit => 0b00111
  | .setEnableBit => 0b01000
  | .getEnableWord => 0b01001
  | .setEnableWord => 0b01010
  | .getThreshold => 0b01011
  | .setThreshold => 0b01100
  | .getClaim => 0b01101
  | .setClaim => 0b01110
  | .claimIrq => 0b01111
  | .completeIrq => 0b10000
  | .addressRange => 0b10001
  | .mmioRead => 0b10010
  | .mmioWrite => 0b10011

/-- The rows of the table of R62, in its order. -/
def portTable : List PortOp :=
  [ .getPrio, .setPrio, .getPending, .setPending, .clearPending, .getPendingWord, .setPendingWord,
    .getEnableBit, .setEnableBit, .getEnableWord, .setEnableWord, .getThreshold, .setThreshold,
    .getClaim, .setClaim, .claimIrq, .completeIrq, .addressRange, .mmioRead, .mmioWrite ]

/-- The port operation an operation code names, if the table has one. -/
def portOf (op : OpByte) : Option PortOp := portTable.find? (fun p => portCode p == op)

/-- The number of arguments of a port operation (R62). -/
def portArity : PortOp → Nat
  | .getPrio => 1
  | .setPrio => 2
  | .getPending => 1
  | .setPending => 1
  | .clearPending => 1
  | .getPendingWord => 1
  | .setPendingWord => 2
  | .getEnableBit => 2
  | .setEnableBit => 3
  | .getEnableWord => 2
  | .setEnableWord => 3
  | .getThreshold => 1
  | .setThreshold => 2
  | .getClaim => 1
  | .setClaim => 2
  | .claimIrq => 1
  | .completeIrq => 2
  | .addressRange => 0
  | .mmioRead => 2
  | .mmioWrite => 3

/-- A port operation with its arguments in the order of R62. -/
def decodePort (p : PortOp) (args : List Nat) : Except DecodeError Instr :=
  match p with
  | .getPrio => oneArg args fun irq => .ok (.getPrio irq)
  | .setPrio => twoArgs args fun irq v => u32Arg v fun v => .setPrio irq v
  | .getPending => oneArg args fun irq => .ok (.getPending irq)
  | .setPending => oneArg args fun irq => .ok (.setPending irq)
  | .clearPending => oneArg args fun irq => .ok (.clearPending irq)
  | .getPendingWord => oneArg args fun w => .ok (.getPendingWord w)
  | .setPendingWord => twoArgs args fun w v => u32Arg v fun v => .setPendingWord w v
  | .getEnableBit => twoArgs args fun ctx irq => .ok (.getEnableBit ctx irq)
  | .setEnableBit => threeArgs args fun ctx irq e => boolArg e fun e => .setEnableBit ctx irq e
  | .getEnableWord => twoArgs args fun ctx w => .ok (.getEnableWord ctx w)
  | .setEnableWord => threeArgs args fun ctx w v => u32Arg v fun v => .setEnableWord ctx w v
  | .getThreshold => oneArg args fun ctx => .ok (.getThreshold ctx)
  | .setThreshold => twoArgs args fun ctx t => u32Arg t fun t => .setThreshold ctx t
  | .getClaim => oneArg args fun ctx => .ok (.getClaim ctx)
  | .setClaim => twoArgs args fun ctx v => u32Arg v fun v => .setClaim ctx v
  | .claimIrq => oneArg args fun ctx => .ok (.claimIrq ctx)
  | .completeIrq => twoArgs args fun ctx v => u32Arg v fun v => .completeIrq ctx v
  | .addressRange => noArgs args (.ok .addressRange)
  | .mmioRead => twoArgs args fun addr width => .ok (.mmioRead addr width)
  | .mmioWrite => threeArgs args fun addr width value => .ok (.mmioWrite addr width value)

/-- The decoder: total on every word and every list of arguments. -/
def decode : Request → Except DecodeError Instr
  | .mmio sel args => decodeMmio sel args
  | .port op args =>
      match portOf op with
      | some p => decodePort p args
      | none => .error .unassignedOp

/-! The encoder. -/

/-- `sel[23] = rw`, `sel[22] = w4`, `sel[21:0] = off` (30_encoding.md R51). -/
def selWord (rw w4 : Bool) (off : Offset) : Selector := BitVec.ofBool rw ++ (BitVec.ofBool w4 ++ off)

/-- The offset of `PRIORITY[irq]`: `off[21:12] = 0`, `off[11:2] = irq` (R53, R54). -/
def priorityOff (irq : BitVec 10) : Offset := 0#10 ++ (irq ++ 0#2)

/-- The offset of `PENDING[w]`: `off[21:12] = 1`, `off[11:2] = w` (R53, R55). -/
def pendingOff (w : BitVec 10) : Offset := 1#10 ++ (w ++ 0#2)

/-- The offset of `ENABLE[ctx][w]`: `off[20:7] = ctx + 64`, `off[6:2] = w` (R53, R56). -/
def enableOff (ctx : BitVec 14) (w : BitVec 5) : Offset := 0#1 ++ ((ctx + 64#14) ++ (w ++ 0#2))

/-- The offset of a local offset of a threshold/claim block: `off[21] = 1`, `off[20:12] = ctx`,
`off[11:0] = local` (R53, R57). -/
def contextOff (ctx : BitVec 9) (loc : BitVec 12) : Offset := 1#1 ++ (ctx ++ loc)

/-- The offset of an aligned local offset other than `0` and `4` (R57, R58). -/
def noregOff (ctx : BitVec 9) (word : BitVec 10) : Offset := contextOff ctx (word ++ 0#2)

/-- A serviced read (R131). -/
def readRequest (off : Offset) : Request := .mmio (selWord false true off) []

/-- A serviced write with its value (R131). -/
def writeRequest (off : Offset) (value : Word) : Request := .mmio (selWord true true off) [value.toNat]

/-- A port operation with its arguments (R62). -/
def portRequest (p : PortOp) (args : List Nat) : Request := .port (portCode p) args

/-- The word and arguments of a well-formed request. -/
def encode : Instr → Request
  | .priorityR irq => readRequest (priorityOff irq)
  | .priorityW irq value => writeRequest (priorityOff irq) value
  | .pendingR w => readRequest (pendingOff w)
  | .pendingW w value => writeRequest (pendingOff w) value
  | .thresholdR ctx => readRequest (contextOff ctx 0)
  | .thresholdW ctx value => writeRequest (contextOff ctx 0) value
  | .claimR ctx => readRequest (contextOff ctx 4)
  | .claimW ctx value => writeRequest (contextOff ctx 4) value
  | .noregR ctx word => readRequest (noregOff ctx word)
  | .noregW ctx word value => writeRequest (noregOff ctx word) value
  | .enableR ctx w => readRequest (enableOff ctx w)
  | .enableW ctx w value => writeRequest (enableOff ctx w) value
  | .unservicedR w4 off => .mmio (selWord false w4 off) []
  | .unservicedW w4 off value => .mmio (selWord true w4 off) [value.toNat]
  | .getPrio irq => portRequest .getPrio [irq]
  | .setPrio irq p => portRequest .setPrio [irq, p.toNat]
  | .getPending irq => portRequest .getPending [irq]
  | .setPending irq => portRequest .setPending [irq]
  | .clearPending irq => portRequest .clearPending [irq]
  | .getPendingWord w => portRequest .getPendingWord [w]
  | .setPendingWord w v => portRequest .setPendingWord [w, v.toNat]
  | .getEnableBit ctx irq => portRequest .getEnableBit [ctx, irq]
  | .setEnableBit ctx irq e => portRequest .setEnableBit [ctx, irq, e.toNat]
  | .getEnableWord ctx w => portRequest .getEnableWord [ctx, w]
  | .setEnableWord ctx w v => portRequest .setEnableWord [ctx, w, v.toNat]
  | .getThreshold ctx => portRequest .getThreshold [ctx]
  | .setThreshold ctx t => portRequest .setThreshold [ctx, t.toNat]
  | .getClaim ctx => portRequest .getClaim [ctx]
  | .setClaim ctx v => portRequest .setClaim [ctx, v.toNat]
  | .claimIrq ctx => portRequest .claimIrq [ctx]
  | .completeIrq ctx v => portRequest .completeIrq [ctx, v.toNat]
  | .addressRange => portRequest .addressRange []
  | .mmioRead addr width => portRequest .mmioRead [addr, width]
  | .mmioWrite addr width value => portRequest .mmioWrite [addr, width, value]

/-! The opcode table's words. -/

/-- The request whose word is `w` as opcode_table.json numbers its bits, every argument 0. A row of at most one
byte is a port operation's operation code, a wider one a selector word (log 13). -/
def tableRequest (nbits w : Nat) : Request :=
  if nbits ≤ 8 then
    .port (BitVec.ofNat 8 w)
      (match portOf (BitVec.ofNat 8 w) with
       | some p => List.replicate (portArity p) 0
       | none => [])
  else
    .mmio (BitVec.ofNat 24 w) (if selIsWrite (BitVec.ofNat 24 w) then [0] else [])

/-- The instruction the decoder reads from a table word. -/
def decodeTableWord (nbits w : Nat) : Option Instr :=
  match decode (tableRequest nbits w) with
  | .ok i => some i
  | .error _ => none

end Sys2Proof
end

