-- ==== Sys2Proof/Config.lean ====
section
/-! DEFINITION. The capacity constants and construction-time parameters of 00_scope.md R4. The spec leaves no
result of any operation undefined, so there is no free value here (INVENTORY.md, What the manual leaves open). -/

namespace Sys2Proof

/-- `MAX_IRQ` (00_scope.md R4): irq ids are `1 .. 511`, id `0` is reserved. -/
@[simp, reducible] def maxIrq : Nat := 511

/-- `IRQS_PER_WORD` (00_scope.md R4). -/
@[simp, reducible] def irqsPerWord : Nat := 32

/-- `NUM_WORDS` (00_scope.md R4, decision D6, log 9): bitmap words that have storage. -/
@[simp, reducible] def numWords : Nat := 16

/-- `CONTEXTS_PER_HART` (00_scope.md R4): "machine + supervisor". -/
@[simp, reducible] def contextsPerHart : Nat := 2

/-- `LENGTH` (00_scope.md R4, decision D8, log 9): the size in bytes of the registered address range. -/
@[simp, reducible] def windowLength : Nat := 0x400000

/-- `CLAIM_ATOMICITY` (00_scope.md R4, decision D4): whether CLAIM_IRQ is one atomic step or a sequence of
separately atomic field operations. -/
inductive Atomicity where
  | atomic
  | relaxed
  deriving DecidableEq, Repr

/-- The privilege mode of a context (60_exceptions.md R162). -/
inductive Mode where
  | machine
  | supervisor
  deriving DecidableEq, Repr

/-- The (hart, mode) pair that a context index stands for (60_exceptions.md R163). -/
structure ContextRole where
  hart : Nat
  mode : Mode
  deriving DecidableEq, Repr

/-- The parameters fixed when the block is constructed (00_scope.md R4, 70_reset_and_hazards.md R170). No step
changes them. `maxHarts` is `MAX_HARTS`, at most 8; `base` is `BASE`; `contextMap` is `CONTEXT_MAP`, the role of
each context index in turn, which no rule uses (60_exceptions.md R163). -/
structure Config where
  maxHarts : Fin 9
  base : Nat
  claimAtomicity : Atomicity
  contextMap : List ContextRole
  deriving DecidableEq, Repr

/-- `NUM_CONTEXTS = MAX_HARTS * 2` (00_scope.md R4, 90_conflicts.md C6). -/
def Config.numContexts (c : Config) : Nat := c.maxHarts.val * contextsPerHart

/-- A context with storage has a place in arrays of the greatest capacity, 16 (00_scope.md R4). -/
theorem Config.context_lt (c : Config) {ctx : Nat} (h : ctx < c.numContexts) : ctx < 16 := by
  have := c.maxHarts.isLt
  simp only [Config.numContexts, contextsPerHart] at h
  omega

/-- `contextMap` is a bijection from `0 .. NUM_CONTEXTS - 1` to the (hart, mode) pairs (92_eei_decisions.md D26):
as many entries as contexts, no pair twice, every hart below `MAX_HARTS`. -/
def Config.contextMapOk (c : Config) : Bool :=
  c.contextMap.length == c.numContexts && decide c.contextMap.Nodup &&
    c.contextMap.all (fun r => decide (r.hart < c.maxHarts.val))

/-- The parameter values the spec admits: `BASE` a multiple of 4 (D9) and `CONTEXT_MAP` a bijection (D26);
`MAX_HARTS <= 8` (D36) is in the type. -/
def Config.wf (c : Config) : Bool := c.base % 4 == 0 && c.contextMapOk

/-- The context numbering usual on RISC-V platforms: `2h` machine mode of hart `h`, `2h + 1` its supervisor mode
(60_exceptions.md R163). PRESUMED (general knowledge, log 14); used by no rule. -/
def usualContextMap (maxHarts : Nat) : List ContextRole :=
  (List.range maxHarts).flatMap fun h => [⟨h, .machine⟩, ⟨h, .supervisor⟩]

/-- The defaults of 92_eei_decisions.md section 2. `0x0C000000` is the spec's example value of `BASE`, not the
source's. DESIGN CHOICE (log 3). -/
def Config.default : Config where
  maxHarts := 8
  base := 0x0C000000
  claimAtomicity := .atomic
  contextMap := usualContextMap 8

end Sys2Proof
end

