-- ==== Sys2Proof/Machine/Flags.lean ====
section
/-! DEFINITION. The flags of the block and their word view (10_state.md R14, R16; 30_encoding.md R60). The place of
an irq in a bitmap word is PRESUMED (general knowledge adopted by decision D5, log 8) and stands in this file only. -/

namespace Sys2Proof.Machine

/-- Flag `irq` of a bitmap. -/
def flag (f : IrqSet) (irq : Nat) : Bool := f.getLsbD irq

/-- The bitmap with flag `irq` set to `e` and every other flag kept (40_store_ops.md R85). -/
def setFlag (f : IrqSet) (irq : Nat) (e : Bool) : IrqSet :=
  if e then f ||| BitVec.twoPow 512 irq else f &&& ~~~(BitVec.twoPow 512 irq)

/-- The number of the first flag of word `w`: word `w` holds flags `32*w .. 32*w + 31` (10_state.md R14). -/
def firstFlag (w : Nat) : Nat := irqsPerWord * w

/-- The word of flag `irq` (30_encoding.md R60). -/
def wordIndex (irq : Nat) : Nat := irq / irqsPerWord

/-- The bit of flag `irq` in its word, from the least significant bit (30_encoding.md R60). -/
def bitIndex (irq : Nat) : Nat := irq % irqsPerWord

/-- `PW(w)` and `EW(ctx, w)`: bit `b` is flag `32*w + b` (10_state.md R14, R16). -/
def flagWord (f : IrqSet) (w : Nat) : Word := f.extractLsb' (firstFlag w) 32

/-- The flags of word `w`, as a bitmap. -/
def wordMask (w : Nat) : IrqSet := (BitVec.allOnes 32).setWidth 512 <<< firstFlag w

/-- The bitmap with all 32 flags of word `w` replaced by the bits of `v` (40_store_ops.md R78, R82). -/
def setFlagWord (f : IrqSet) (w : Nat) (v : Word) : IrqSet :=
  (f &&& ~~~(wordMask w)) ||| (v.setWidth 512 <<< firstFlag w)

end Sys2Proof.Machine
end

