-- ==== Sys2Proof/Machine/State.lean ====
section
/-! DEFINITION. The state of the block as plain data: the five arrays of 10_state.md R10, the in-flight claims of
R27, the construction parameters, and the model's own fields for the world outside. -/

namespace Sys2Proof.Machine

/-- The generic success/failure wrapper of the host's calling convention (43_mmio_front_end.md R148), "which this
component always resolves to success". -/
inductive Status where
  | success
  | failure
  deriving DecidableEq, Repr

/-- What an operation answers to the agent that issued it (30_encoding.md R50, R62). -/
inductive Response where
  /-- A "set" accessor or a completion returns nothing (40_store_ops.md R70). -/
  | done
  /-- The `u32` of a "get" accessor. -/
  | word (v : Word)
  /-- The `bool` of a "get" accessor of one flag. -/
  | flag (b : Bool)
  /-- `Some(irq)` or `None` of CLAIM_IRQ (42_claim_complete.md R110). -/
  | claim (winner : Option Nat)
  /-- `(BASE, LENGTH)` of ADDRESS_RANGE (43_mmio_front_end.md R130). -/
  | range (base length : Nat)
  /-- The value and status of an MMIO read (R132). -/
  | value (v : Word) (status : Status)
  /-- The status of an MMIO write (R133). -/
  | ack (status : Status)
  deriving DecidableEq, Repr

/-- The four fields one iteration of the scan reads (41_arbitration.md R101). -/
inductive ScanField where
  | threshold
  | priority
  | pending
  | enable
  deriving DecidableEq, Repr

/-- What 42_claim_complete.md R115 leaves open about the next field read of a relaxed scan: which field (i),
whether the remaining reads of the iteration are skipped if a condition is then known to be false (ii), and
whether the threshold is read once before the loop (iii). Every choice may come at every turn (log 11). -/
inductive ClaimChoice where
  | thresholdOnce
  | read (field : ScanField) (skipRest : Bool)
  deriving DecidableEq, Repr

/-- The field values already read in the current iteration (10_state.md R27). -/
structure ScanReads where
  threshold : Option Word
  priority : Option Word
  pending : Option Bool
  enable : Option Bool
  deriving DecidableEq, Repr

/-- How far an in-flight claim has come (10_state.md R27): scanning `irq`, or scan finished with a winner whose
pending flag is still to be cleared, or cleared with the claim cell still to be written. -/
inductive ClaimPhase where
  | scan (irq : Nat) (reads : ScanReads)
  | clear
  | record
  deriving DecidableEq, Repr

/-- Which request an in-flight claim answers: the port operation or an MMIO claim read (42_claim_complete.md R114). -/
inductive ClaimForm where
  | port
  | mmio
  deriving DecidableEq, Repr

/-- The private state of an agent's CLAIM_IRQ that has started and not finished (10_state.md R27).
`heldThreshold` is the threshold where it was read once before the loop. -/
structure ClaimInFlight where
  agent : Nat
  ctx : Nat
  form : ClaimForm
  phase : ClaimPhase
  best : Nat
  bestPrio : Word
  heldThreshold : Option Word
  deriving DecidableEq, Repr

/-- A request an agent has issued and the block has not started. -/
structure Issued where
  agent : Nat
  request : Request
  deriving DecidableEq, Repr

/-- One place in the order in which the agents obtain the lock (60_exceptions.md R157): whose move it is, and the
choice a relaxed claim makes in it. -/
structure Turn where
  agent : Nat
  choice : ClaimChoice
  deriving DecidableEq, Repr

/-- The machine. The first five fields are the architectural state (10_state.md R10); the context arrays have the
greatest capacity, 16, and only their first `NUM_CONTEXTS` entries are storage (log 7). `inflight` is R27's, sorted
by agent. `cfg` holds the parameters of 00_scope.md R4 (log 3). `requests`, `schedule`, `agent` and `response` are
the model's own (log 1, 12). -/
structure State where
  priority : Vector Word 512
  pending : IrqSet
  enable : Vector IrqSet 16
  threshold : Vector Word 16
  claim : Vector Word 16
  inflight : List ClaimInFlight
  cfg : Config
  requests : List Issued
  schedule : List Turn
  agent : Nat
  response : Option Response
  deriving DecidableEq, Repr

/-- Why the machine would stop with a fault. -/
inductive Fault where
  /-- The failure outcome that the host's calling convention has room for (60_exceptions.md R150,
  43_mmio_front_end.md R148). Raised by nothing: "a misbehaving or adversarial guest must never be able to fault or
  corrupt the controller". Safe. -/
  | deviceFailure
  deriving DecidableEq, Repr

/-- Why the model gives something no meaning. -/
inductive Refusal where
  /-- An instruction that has no meaning yet. Raised by `exec` for such an arm; there is none. Safe. -/
  | notModelled (mnemonic : String)
  /-- The next request of the agent whose turn it is has a word or arguments that are no request of 30_encoding.md
  R61, R62. Raised by `step`. Safe: the spec's requests all decode (log 13). -/
  | undecodable (why : DecodeError)
  /-- `MAX_HARTS` above 8 (93_implementation_defined.md U8). Raised by `State.construct`. Safe (log 4). -/
  | tooManyHarts
  /-- `BASE` not a multiple of 4 (U9). Raised by `State.construct`. Safe (log 4). -/
  | misalignedBase
  /-- `CONTEXT_MAP` not a bijection (92_eei_decisions.md D26). Raised by `State.construct`. Safe (log 4). -/
  | badContextMap
  deriving DecidableEq, Repr

/-- The machine right after construction with the given parameters (10_state.md R30, 70_reset_and_hazards.md R170,
R171): every element zero, no operation in flight; the model's own fields empty. DESIGN CHOICE where R30 takes
decision D11 (log 5, 6, 12). -/
def State.initial (cfg : Config) : State where
  priority := Vector.replicate 512 0
  pending := 0
  enable := Vector.replicate 16 0
  threshold := Vector.replicate 16 0
  claim := Vector.replicate 16 0
  inflight := []
  cfg := cfg
  requests := []
  schedule := []
  agent := 0
  response := none

/-- The machine right after reset, at the default parameters of 92_eei_decisions.md section 2 (log 3). -/
def State.reset : State := State.initial Config.default

end Sys2Proof.Machine
end

