-- ==== Sys2Proof/Machine/Ops.lean ====
section
/-! DEFINITION. The named operations over the state, each once: the accessors of the store (40_store_ops.md), the
scan of the arbiter (41_arbitration.md), and the two operations that stand where a processor takes an exception and
returns from one: claim (60_exceptions.md R159) and complete (R160). The block itself has no exception (R150). -/

namespace Sys2Proof.Machine

/-- The response of an operation to the agent that issued it (20_memory.md R44). -/
def respond (r : Response) (s : State) : State := { s with response := some r }

/-! Priority. -/

/-- `GET_PRIO` (40_store_ops.md R72, R71). -/
def getPrio (s : State) (irq : Nat) : Word :=
  if h : irq ≤ maxIrq then s.priority[irq]'(Nat.lt_succ_of_le h) else 0

/-- `SET_PRIO` (R73, R71). -/
def setPrio (s : State) (irq : Nat) (p : Word) : State :=
  if h : irq ≤ maxIrq then { s with priority := s.priority.set irq p (Nat.lt_succ_of_le h) } else s

/-! Pending. -/

/-- `GET_PENDING` (R74, R71). -/
def getPending (s : State) (irq : Nat) : Bool := if irq ≤ maxIrq then flag s.pending irq else false

/-- "set single pending bit" (R75, R76, R71): `SET_PENDING` with `true`, `CLEAR_PENDING` with `false`. -/
def setPendingFlag (s : State) (irq : Nat) (e : Bool) : State :=
  if irq ≤ maxIrq then { s with pending := setFlag s.pending irq e } else s

/-- `GET_PENDING_WORD` (R77, R71). -/
def getPendingWord (s : State) (w : Nat) : Word := if w < numWords then flagWord s.pending w else 0

/-- `SET_PENDING_WORD` (R78, R71). -/
def setPendingWord (s : State) (w : Nat) (v : Word) : State :=
  if w < numWords then { s with pending := setFlagWord s.pending w v } else s

/-! Enable. -/

/-- The enable bitmap of a context; empty for a context without storage (R71). -/
def enableOf (s : State) (ctx : Nat) : IrqSet :=
  if h : ctx < s.cfg.numContexts then s.enable[ctx]'(s.cfg.context_lt h) else 0

/-- Replace the enable bitmap of a context; dropped for a context without storage (R71). -/
def setEnableOf (s : State) (ctx : Nat) (f : IrqSet) : State :=
  if h : ctx < s.cfg.numContexts then { s with enable := s.enable.set ctx f (s.cfg.context_lt h) } else s

/-- `GET_ENABLE_BIT` (R79, R71). -/
def getEnableBit (s : State) (ctx irq : Nat) : Bool := if irq ≤ maxIrq then flag (enableOf s ctx) irq else false

/-- `SET_ENABLE_BIT` (R80, R71). -/
def setEnableBit (s : State) (ctx irq : Nat) (e : Bool) : State :=
  if irq ≤ maxIrq then setEnableOf s ctx (setFlag (enableOf s ctx) irq e) else s

/-- `GET_ENABLE_WORD` (R81, R71). -/
def getEnableWord (s : State) (ctx w : Nat) : Word := if w < numWords then flagWord (enableOf s ctx) w else 0

/-- `SET_ENABLE_WORD` (R82, R71). -/
def setEnableWord (s : State) (ctx w : Nat) (v : Word) : State :=
  if w < numWords then setEnableOf s ctx (setFlagWord (enableOf s ctx) w v) else s

/-! Threshold and claim cell. -/

/-- `GET_THRESHOLD` (R83, R71). -/
def getThreshold (s : State) (ctx : Nat) : Word :=
  if h : ctx < s.cfg.numContexts then s.threshold[ctx]'(s.cfg.context_lt h) else 0

/-- `SET_THRESHOLD` (R84, R71). -/
def setThreshold (s : State) (ctx : Nat) (t : Word) : State :=
  if h : ctx < s.cfg.numContexts then { s with threshold := s.threshold.set ctx t (s.cfg.context_lt h) } else s

/-- `GET_CLAIM` (R87, R71). -/
def getClaim (s : State) (ctx : Nat) : Word :=
  if h : ctx < s.cfg.numContexts then s.claim[ctx]'(s.cfg.context_lt h) else 0

/-- `SET_CLAIM` (R88, R71): any `u32` is stored unchanged (decision D33, log 18). -/
def setClaim (s : State) (ctx : Nat) (v : Word) : State :=
  if h : ctx < s.cfg.numContexts then { s with claim := s.claim.set ctx v (s.cfg.context_lt h) } else s

/-! The arbiter. -/

/-- `ELIGIBLE(ctx, irq)` (41_arbitration.md R100). -/
def eligible (s : State) (ctx irq : Nat) : Bool :=
  decide (1 ≤ irq) && decide (irq ≤ maxIrq) && getPending s irq && getEnableBit s ctx irq &&
    decide (getThreshold s ctx < getPrio s irq)

/-- The best candidate so far: `best` and `best_prio` of R101. -/
structure Candidate where
  irq : Nat
  prio : Word
  deriving DecidableEq, Repr

/-- One iteration of the scan (R101). The order in which the four conditions are evaluated cannot be observed when
the scan is atomic (R108). -/
def scanStep (s : State) (ctx : Nat) (c : Candidate) (irq : Nat) : Candidate :=
  if getPending s irq && getEnableBit s ctx irq && decide (getThreshold s ctx < getPrio s irq) &&
      decide (c.prio < getPrio s irq)
  then ⟨irq, getPrio s irq⟩
  else c

/-- The candidate after the iterations for irqs `1 .. n`, in ascending order (R101). -/
def scanUpTo (s : State) (ctx : Nat) : Nat → Candidate
  | 0 => ⟨0, 0⟩
  | n + 1 => scanStep s ctx (scanUpTo s ctx n) (n + 1)

/-- `BEST(ctx)`: the winner's irq, 0 when there is none (R101, R106). -/
def best (s : State) (ctx : Nat) : Nat := (scanUpTo s ctx maxIrq).irq

/-- `EIP(ctx)`, an observation and not state or output of the block (60_exceptions.md R158, decision D27, log 21). -/
def eip (s : State) (ctx : Nat) : Bool := best s ctx != 0

/-! Claim and complete: taking and finishing an interrupt (60_exceptions.md R159, R160). -/

/-- The state after the commit half of a claim, both writes at once (42_claim_complete.md R110, R111). -/
def commitClaim (s : State) (ctx winner : Nat) : State :=
  setClaim (setPendingFlag s winner false) ctx (BitVec.ofNat 32 winner)

/-- `Some(best)`, or `None` when no candidate was found (R112, R114). -/
def winnerOf (n : Nat) : Option Nat := if n = 0 then none else some n

/-- The state after an atomic CLAIM_IRQ (R110, R112). -/
def claimAtomic (s : State) (ctx : Nat) : State :=
  if best s ctx = 0 then s else commitClaim s ctx (best s ctx)

/-- The number that stands for the result of a claim: `None` is 0 (R114). -/
def winnerWord (w : Option Nat) : Word := BitVec.ofNat 32 (w.getD 0)

/-- The response of a claim in the form of the request it answers (R110, R114; 43_mmio_front_end.md R142). -/
def claimResponse (form : ClaimForm) (w : Option Nat) : Response :=
  match form with
  | .port => .claim w
  | .mmio => .value (winnerWord w) .success

/-- COMPLETE_IRQ: the claim cell becomes 0 whatever the argument (R119, R120). -/
def completeClaim (s : State) (ctx : Nat) (_irqArgument : Word) : State := setClaim s ctx 0

/-! Construction. -/

/-- Construction with the given parameters (70_reset_and_hazards.md R170): refuses what 93_implementation_defined.md
U8, U9 and decision D26 say a model should refuse. -/
def State.construct (maxHarts base : Nat) (atomicity : Atomicity) (contextMap : List ContextRole) :
    Host.Outcome State Fault Refusal :=
  if h : maxHarts < 9 then
    let cfg : Config := ⟨⟨maxHarts, h⟩, base, atomicity, contextMap⟩
    if base % 4 ≠ 0 then .refused .misalignedBase
    else if cfg.contextMapOk then .next (State.initial cfg)
    else .refused .badContextMap
  else .refused .tooManyHarts

end Sys2Proof.Machine
end

