-- ==== Sys2Proof/Machine/Relaxed.lean ====
section
/-! DEFINITION. The relaxed variant of CLAIM_IRQ (42_claim_complete.md R115, R116) as a sequence of field
operations, and the start of a claim in either variant. -/

namespace Sys2Proof.Machine

/-! The list of in-flight claims, sorted by agent, one entry per agent. -/

/-- The in-flight claim of an agent. -/
def findClaim (agent : Nat) (l : List ClaimInFlight) : Option ClaimInFlight := l.find? (fun c => c.agent == agent)

/-- The list without an agent's claim. -/
def dropClaim (agent : Nat) (l : List ClaimInFlight) : List ClaimInFlight := l.filter (fun c => c.agent != agent)

/-- The list with an agent's claim entered or replaced. -/
def putClaim (c : ClaimInFlight) : List ClaimInFlight → List ClaimInFlight
  | [] => [c]
  | d :: l =>
      if c.agent < d.agent then c :: d :: l
      else if c.agent = d.agent then c :: l
      else d :: putClaim c l

/-- The claim goes on: its private state is kept for its next move. -/
def keepClaim (c : ClaimInFlight) (s : State) : State := { s with inflight := putClaim c s.inflight }

/-- The claim ends and answers. -/
def finishClaim (c : ClaimInFlight) (w : Option Nat) (s : State) : State :=
  respond (claimResponse c.form w) { s with inflight := dropClaim c.agent s.inflight }

/-! One iteration of the scan. -/

/-- Nothing read yet in this iteration. -/
def noReads : ScanReads := ⟨none, none, none, none⟩

/-- The threshold as far as the claim knows it: read before the loop, or in this iteration (R115 (iii)). -/
def knownThreshold (c : ClaimInFlight) (r : ScanReads) : Option Word :=
  match c.heldThreshold with
  | some t => some t
  | none => r.threshold

/-- Whether a field is still to be read in this iteration. -/
def unread (c : ClaimInFlight) (r : ScanReads) : ScanField → Bool
  | .threshold => (knownThreshold c r).isNone
  | .priority => r.priority.isNone
  | .pending => r.pending.isNone
  | .enable => r.enable.isNone

/-- The field the next move reads: the one chosen if it is still to be read, else the first that is. -/
def fieldToRead (c : ClaimInFlight) (r : ScanReads) (wanted : ScanField) : ScanField :=
  if unread c r wanted then wanted
  else if unread c r .priority then .priority
  else if unread c r .threshold then .threshold
  else if unread c r .pending then .pending
  else .enable

/-- One field read, a separate atomic field operation (R115). -/
def readField (s : State) (ctx irq : Nat) (r : ScanReads) : ScanField → ScanReads
  | .threshold => { r with threshold := some (getThreshold s ctx) }
  | .priority => { r with priority := some (getPrio s irq) }
  | .pending => { r with pending := some (getPending s irq) }
  | .enable => { r with enable := some (getEnableBit s ctx irq) }

/-- Every field of the iteration has been read. -/
def allRead (c : ClaimInFlight) (r : ScanReads) : Bool :=
  (knownThreshold c r).isSome && r.priority.isSome && r.pending.isSome && r.enable.isSome

/-- The priority read so far rules the source out: it is not above the best so far or not above the threshold. -/
def priorityRulesOut (bestPrio : Word) (t p : Option Word) : Bool :=
  match p with
  | none => false
  | some p =>
      decide (p ≤ bestPrio) ||
        (match t with
         | none => false
         | some t => decide (p ≤ t))

/-- A condition of the iteration is already known to be false (R115 (ii)). -/
def ruledOut (c : ClaimInFlight) (r : ScanReads) : Bool :=
  r.pending == some false || r.enable == some false ||
    priorityRulesOut c.bestPrio (knownThreshold c r) r.priority

/-- The end of an iteration: the source replaces the best so far if all four conditions hold (R101). -/
def concludeIteration (c : ClaimInFlight) (irq : Nat) (r : ScanReads) : ClaimInFlight :=
  match r.priority, knownThreshold c r, r.pending, r.enable with
  | some p, some t, some true, some true =>
      if t < p ∧ c.bestPrio < p then { c with best := irq, bestPrio := p } else c
  | _, _, _, _ => c

/-- After the iteration for `irq`: the next iteration in ascending order, or after the last one the commit, or the
answer `None`, which writes nothing (R115, R116). -/
def afterIteration (irq : Nat) (c : ClaimInFlight) (s : State) : State :=
  if irq < maxIrq then keepClaim { c with phase := .scan (irq + 1) noReads } s
  else if c.best = 0 then finishClaim c none s
  else keepClaim { c with phase := .clear } s

/-- Read one field of the iteration for `irq`; the iteration ends when all are read, or earlier if the rest is
skipped after a condition known to be false. -/
def scanRead (field : ScanField) (skipRest : Bool) (c : ClaimInFlight) (irq : Nat) (r : ScanReads) (s : State) :
    State :=
  let r' := readField s c.ctx irq r (fieldToRead c r field)
  if allRead c r' || (skipRest && ruledOut c r') then afterIteration irq (concludeIteration c irq r') s
  else keepClaim { c with phase := .scan irq r' } s

/-- The claim has made no read yet, so the threshold may still be read once before the loop (R115 (iii)). -/
def beforeLoop (c : ClaimInFlight) (irq : Nat) (r : ScanReads) : Bool :=
  irq == 1 && r == noReads && c.heldThreshold.isNone

/-- One move of a claim that is scanning. -/
def advanceScan (choice : ClaimChoice) (c : ClaimInFlight) (irq : Nat) (r : ScanReads) (s : State) : State :=
  match choice with
  | .thresholdOnce =>
      if beforeLoop c irq r then keepClaim { c with heldThreshold := some (getThreshold s c.ctx) } s
      else scanRead .threshold false c irq r s
  | .read field skipRest => scanRead field skipRest c irq r s

/-- One move of an in-flight claim: one field operation (R115, R116). After the scan the winner's pending flag is
cleared first and the claim cell written second, with no further check (R111, R116). -/
def advanceClaim (choice : ClaimChoice) (c : ClaimInFlight) (s : State) : State :=
  match c.phase with
  | .scan irq r => advanceScan choice c irq r s
  | .clear => keepClaim { c with phase := .record } (setPendingFlag s c.best false)
  | .record => finishClaim c (some c.best) (setClaim s c.ctx (BitVec.ofNat 32 c.best))

/-! The start of a claim. -/

/-- The private state a relaxed claim starts with (R101, R115). -/
def freshClaim (agent ctx : Nat) (form : ClaimForm) : ClaimInFlight :=
  ⟨agent, ctx, form, .scan 1 noReads, 0, 0, none⟩

/-- CLAIM_IRQ issued by `s.agent`. In the atomic variant it happens whole (R110). In the relaxed variant it is now
in flight: its field operations are the agent's next moves and its response comes with the last of them (R115,
R116; log 11). -/
def beginClaim (form : ClaimForm) (ctx : Nat) (s : State) : State :=
  match s.cfg.claimAtomicity with
  | .atomic => respond (claimResponse form (winnerOf (best s ctx))) (claimAtomic s ctx)
  | .relaxed => { keepClaim (freshClaim s.agent ctx form) s with response := none }

end Sys2Proof.Machine
end

