-- ==== Sys2Proof/Machine/Agents.lean ====
section
/-! DEFINITION. How the agents' requests reach the block: the next request of an agent in its program order
(20_memory.md R44), the agent whose turn it is (60_exceptions.md R157), and where an outside agent presents one. -/

namespace Sys2Proof.Machine

/-- The first request of an agent and the requests that stay, in their order (20_memory.md R44). -/
def takeRequest (agent : Nat) : List Issued → Option (Request × List Issued)
  | [] => none
  | i :: rest =>
      if i.agent = agent then some (i.request, rest)
      else
        match takeRequest agent rest with
        | some (r, rest') => some (r, i :: rest')
        | none => none

/-- The agent of the turn moves: nothing has been answered in this move yet. -/
def startTurn (t : Turn) (rest : List Turn) (s : State) : State :=
  { s with schedule := rest, agent := t.agent, response := none }

/-- An agent with no claim in flight. -/
def freshAgent (s : State) : Nat := s.inflight.foldr (fun c n => max (c.agent + 1) n) 0

/-- An agent presents a request to be run in the very next move (log 2). -/
def presentRequest (agent : Nat) (r : Request) (s : State) : State :=
  { s with
    requests := ⟨agent, r⟩ :: s.requests
    schedule := ⟨agent, .read .priority false⟩ :: s.schedule }

end Sys2Proof.Machine
end

