-- ==== Sys2Proof/Machine/ClaimEngine.lean ====
section
/-! DEFINITION. The meanings of the port operations of `plic_claim_engine` (42_claim_complete.md). -/

namespace Sys2Proof.Machine

/-- `CLAIM_IRQ` (R110; relaxed variant R115, R116). -/
def execClaimIrq (ctx : Nat) (s : State) : Host.Outcome State Fault Refusal := .next (beginClaim .port ctx s)

/-- `COMPLETE_IRQ` (R119). -/
def execCompleteIrq (ctx : Nat) (irqArgument : Word) (s : State) : Host.Outcome State Fault Refusal :=
  .next (respond .done (completeClaim s ctx irqArgument))

end Sys2Proof.Machine
end

