-- ==== Sys2Proof/Machine/ContextStore.lean ====
section
/-! DEFINITION. The meanings of the port operations of `plic_context_enable_threshold_reg` (40_store_ops.md R79 to
R84, R87, R88). -/

namespace Sys2Proof.Machine

/-- `GET_ENABLE_BIT` (R79). -/
def execGetEnableBit (ctx irq : Nat) (s : State) : Host.Outcome State Fault Refusal :=
  .next (respond (.flag (getEnableBit s ctx irq)) s)

/-- `SET_ENABLE_BIT` (R80). -/
def execSetEnableBit (ctx irq : Nat) (e : Bool) (s : State) : Host.Outcome State Fault Refusal :=
  .next (respond .done (setEnableBit s ctx irq e))

/-- `GET_ENABLE_WORD` (R81). -/
def execGetEnableWord (ctx w : Nat) (s : State) : Host.Outcome State Fault Refusal :=
  .next (respond (.word (getEnableWord s ctx w)) s)

/-- `SET_ENABLE_WORD` (R82). -/
def execSetEnableWord (ctx w : Nat) (v : Word) (s : State) : Host.Outcome State Fault Refusal :=
  .next (respond .done (setEnableWord s ctx w v))

/-- `GET_THRESHOLD` (R83). -/
def execGetThreshold (ctx : Nat) (s : State) : Host.Outcome State Fault Refusal :=
  .next (respond (.word (getThreshold s ctx)) s)

/-- `SET_THRESHOLD` (R84). -/
def execSetThreshold (ctx : Nat) (t : Word) (s : State) : Host.Outcome State Fault Refusal :=
  .next (respond .done (setThreshold s ctx t))

/-- `GET_CLAIM` (R87). -/
def execGetClaim (ctx : Nat) (s : State) : Host.Outcome State Fault Refusal :=
  .next (respond (.word (getClaim s ctx)) s)

/-- `SET_CLAIM` (R88). -/
def execSetClaim (ctx : Nat) (v : Word) (s : State) : Host.Outcome State Fault Refusal :=
  .next (respond .done (setClaim s ctx v))

end Sys2Proof.Machine
end

