-- ==== Sys2Proof/Machine/Operands.lean ====
section
/-! DEFINITION. The address decoder and the operand forms of an MMIO transaction: 20_memory.md R32, 30_encoding.md
R52 to R59, 43_mmio_front_end.md R131; and the pseudo-operations of 30_encoding.md R66. -/

namespace Sys2Proof.Machine

/-- The six outcomes of `DECODE` (30_encoding.md section 2). -/
inductive Register where
  | priority (irq : Nat)
  | pending (w : Nat)
  | enable (ctx w : Nat)
  | threshold (ctx : Nat)
  | claim (ctx : Nat)
  | noRegister
  deriving DecidableEq, Repr

/-- The byte offset of a guest address in the window, if it lies there (20_memory.md R32, decision D15). -/
def windowOffset (cfg : Config) (addr : Nat) : Option Nat :=
  if cfg.base ≤ addr ∧ addr - cfg.base < windowLength then some (addr - cfg.base) else none

/-- A transaction is serviced exactly when it is 4 bytes wide and its offset is a multiple of 4
(43_mmio_front_end.md R131; 90_conflicts.md C2). -/
def serviced (width off : Nat) : Bool := decide (width = 4 ∧ off % 4 = 0)

/-- The first byte offset of the pending region (R53). -/
@[simp, reducible] def pendingBase : Nat := 0x1000

/-- The first byte offset of the enable region (R53). -/
@[simp, reducible] def enableBase : Nat := 0x2000

/-- The first byte offset of the threshold/claim region (R53), the "base" of R57 (90_conflicts.md C1). -/
@[simp, reducible] def contextBase : Nat := 0x200000

/-- Bytes of an enable block (R56). -/
@[simp, reducible] def enableStride : Nat := 0x80

/-- Bytes of a threshold/claim block (R57). -/
@[simp, reducible] def contextStride : Nat := 0x1000

/-- The threshold/claim region (R57): local offset 0 is the threshold, 4 the claim register. -/
def decodeContextBlock (rel : Nat) : Register :=
  if rel % contextStride = 0 then .threshold (rel / contextStride)
  else if rel % contextStride = 4 then .claim (rel / contextStride)
  else .noRegister

/-- `DECODE(off)` (30_encoding.md R52 to R58): total, by the offset alone, with no test of width, alignment or
capacity (R59). -/
def decodeOffset (off : Nat) : Register :=
  if off < pendingBase then .priority (off / 4)
  else if off < enableBase then .pending ((off - pendingBase) / 4)
  else if off < contextBase then
    .enable ((off - enableBase) / enableStride) ((off - enableBase) % enableStride / 4)
  else if off < windowLength then decodeContextBlock (off - contextBase)
  else .noRegister

/-- The byte offset of `PRIORITY[irq]` (10_state.md R19). -/
def priorityOffset (irq : Nat) : Nat := 4 * irq

/-- The byte offset of `PENDING[w]` (10_state.md R19). -/
def pendingOffset (w : Nat) : Nat := pendingBase + 4 * w

/-- The byte offset of `ENABLE[ctx][w]` (10_state.md R19). -/
def enableOffset (ctx w : Nat) : Nat := enableBase + enableStride * ctx + 4 * w

/-- The byte offset of `THRESHOLD[ctx]` (10_state.md R19). -/
def thresholdOffset (ctx : Nat) : Nat := contextBase + contextStride * ctx

/-- The byte offset of `CLAIM[ctx]` (10_state.md R19). -/
def claimOffset (ctx : Nat) : Nat := contextBase + contextStride * ctx + 4

/-- `R32 off` (30_encoding.md R65). -/
def r32 (cfg : Config) (off : Nat) : Instr := .mmioRead (cfg.base + off) 4

/-- `W32 off, v` (30_encoding.md R65). -/
def w32 (cfg : Config) (off : Nat) (v : Word) : Instr := .mmioWrite (cfg.base + off) 4 v.toNat

/-- `PRIO irq, p` (30_encoding.md R66). -/
def pseudoPrio (cfg : Config) (irq : Nat) (p : Word) : Instr := w32 cfg (priorityOffset irq) p

/-- `THRESH ctx, t` (R66). -/
def pseudoThresh (cfg : Config) (ctx : Nat) (t : Word) : Instr := w32 cfg (thresholdOffset ctx) t

/-- `CLAIM ctx -> v` (R66). -/
def pseudoClaim (cfg : Config) (ctx : Nat) : Instr := r32 cfg (claimOffset ctx)

/-- `COMPLETE ctx, irq` (R66). -/
def pseudoComplete (cfg : Config) (ctx : Nat) (irq : Word) : Instr := w32 cfg (claimOffset ctx) irq

/-- `ENWORD ctx, w, v` (R66). -/
def pseudoEnword (cfg : Config) (ctx w : Nat) (v : Word) : Instr := w32 cfg (enableOffset ctx w) v

/-- `PENDWORD w, v` (R66). -/
def pseudoPendword (cfg : Config) (w : Nat) (v : Word) : Instr := w32 cfg (pendingOffset w) v

/-- The first transaction of `ENABLE ctx, irq` (R66): read the enable word of `irq`. -/
def pseudoEnableRead (cfg : Config) (ctx irq : Nat) : Instr := r32 cfg (enableOffset ctx (irq / 32))

/-- The second transaction of `ENABLE ctx, irq` (R66), given the value the first one read: write it back with the
bit of `irq` set. The pair is not atomic (70_reset_and_hazards.md R181). -/
def pseudoEnableWrite (cfg : Config) (ctx irq : Nat) (v : Word) : Instr :=
  w32 cfg (enableOffset ctx (irq / 32)) (v ||| BitVec.twoPow 32 (irq % 32))

end Sys2Proof.Machine
end

