-- ==== Sys2Proof/Machine/FrontEnd.lean ====
section
/-! DEFINITION. The meanings of the MMIO front end (43_mmio_front_end.md): the contract with the host, and the 14
rows of 30_encoding.md R61. Every transaction answers success (R148). -/

namespace Sys2Proof.Machine

/-- The response of a read, with success (R148). -/
def answerRead (v : Word) (s : State) : State := respond (.value v .success) s

/-- The response of a write, with success (R148). -/
def answerWrite (s : State) : State := respond (.ack .success) s

/-- A serviced read dispatched to the store getter of the register, or to the claim (R132). -/
def readRegister (reg : Register) (s : State) : State :=
  match reg with
  | .priority irq => answerRead (getPrio s irq) s
  | .pending w => answerRead (getPendingWord s w) s
  | .enable ctx w => answerRead (getEnableWord s ctx w) s
  | .threshold ctx => answerRead (getThreshold s ctx) s
  | .claim ctx => beginClaim .mmio ctx s
  | .noRegister => answerRead 0 s

/-- A serviced write dispatched to the store setter of the register, or to the completion (R133). -/
def writeRegister (reg : Register) (v : Word) (s : State) : State :=
  match reg with
  | .priority irq => answerWrite (setPrio s irq v)
  | .pending w => answerWrite (setPendingWord s w v)
  | .enable ctx w => answerWrite (setEnableWord s ctx w v)
  | .threshold ctx => answerWrite (setThreshold s ctx v)
  | .claim ctx => answerWrite (completeClaim s ctx v)
  | .noRegister => answerWrite s

/-- `ADDRESS_RANGE` (R130). -/
def execAddressRange (s : State) : Host.Outcome State Fault Refusal :=
  .next (respond (.range s.cfg.base windowLength) s)

/-- The register a transaction reaches: none outside the window (20_memory.md R32) or if it is not serviced
(R131). -/
def accessedRegister (cfg : Config) (addr width : Nat) : Register :=
  match windowOffset cfg addr with
  | none => .noRegister
  | some off => if serviced width off then decodeOffset off else .noRegister

/-- `MMIO_READ` (R132). -/
def execMmioRead (addr width : Nat) (s : State) : Host.Outcome State Fault Refusal :=
  .next (readRegister (accessedRegister s.cfg addr width) s)

/-- `MMIO_WRITE` (R133): the low 32 bits of the value are used (R149). -/
def execMmioWrite (addr width value : Nat) (s : State) : Host.Outcome State Fault Refusal :=
  .next (writeRegister (accessedRegister s.cfg addr width) (writeValue value) s)

/-- `PRIORITY.R` (R134). -/
def execPriorityR (irq : BitVec 10) (s : State) : Host.Outcome State Fault Refusal :=
  .next (readRegister (.priority irq.toNat) s)

/-- `PRIORITY.W` (R135). -/
def execPriorityW (irq : BitVec 10) (value : Word) (s : State) : Host.Outcome State Fault Refusal :=
  .next (writeRegister (.priority irq.toNat) value s)

/-- `PENDING.R` (R136). -/
def execPendingR (w : BitVec 10) (s : State) : Host.Outcome State Fault Refusal :=
  .next (readRegister (.pending w.toNat) s)

/-- `PENDING.W` (R137). -/
def execPendingW (w : BitVec 10) (value : Word) (s : State) : Host.Outcome State Fault Refusal :=
  .next (writeRegister (.pending w.toNat) value s)

/-- `THRESHOLD.R` (R140). -/
def execThresholdR (ctx : BitVec 9) (s : State) : Host.Outcome State Fault Refusal :=
  .next (readRegister (.threshold ctx.toNat) s)

/-- `THRESHOLD.W` (R141). -/
def execThresholdW (ctx : BitVec 9) (value : Word) (s : State) : Host.Outcome State Fault Refusal :=
  .next (writeRegister (.threshold ctx.toNat) value s)

/-- `CLAIM.R` (R142). -/
def execClaimR (ctx : BitVec 9) (s : State) : Host.Outcome State Fault Refusal :=
  .next (readRegister (.claim ctx.toNat) s)

/-- `CLAIM.W` (R143). -/
def execClaimW (ctx : BitVec 9) (value : Word) (s : State) : Host.Outcome State Fault Refusal :=
  .next (writeRegister (.claim ctx.toNat) value s)

/-- `NOREG.R` (R144). -/
def execNoregR (_ctx : BitVec 9) (_word : BitVec 10) (s : State) : Host.Outcome State Fault Refusal :=
  .next (readRegister .noRegister s)

/-- `NOREG.W` (R145). -/
def execNoregW (_ctx : BitVec 9) (_word : BitVec 10) (value : Word) (s : State) :
    Host.Outcome State Fault Refusal :=
  .next (writeRegister .noRegister value s)

/-- `ENABLE.R` (R138). -/
def execEnableR (ctx : BitVec 14) (w : BitVec 5) (s : State) : Host.Outcome State Fault Refusal :=
  .next (readRegister (.enable ctx.toNat w.toNat) s)

/-- `ENABLE.W` (R139). -/
def execEnableW (ctx : BitVec 14) (w : BitVec 5) (value : Word) (s : State) : Host.Outcome State Fault Refusal :=
  .next (writeRegister (.enable ctx.toNat w.toNat) value s)

/-- `UNSERVICED.R` (R146): reads 0 and changes nothing, claim registers included. -/
def execUnservicedR (_w4 : Bool) (_off : Offset) (s : State) : Host.Outcome State Fault Refusal :=
  .next (answerRead 0 s)

/-- `UNSERVICED.W` (R147). -/
def execUnservicedW (_w4 : Bool) (_off : Offset) (_value : Word) (s : State) : Host.Outcome State Fault Refusal :=
  .next (answerWrite s)

end Sys2Proof.Machine
end

