-- ==== Sys2Proof/Machine/SourceStore.lean ====
section
/-! DEFINITION. The meanings of the port operations of `interrupt_source_store` (40_store_ops.md R72 to R78). -/

namespace Sys2Proof.Machine

/-- `GET_PRIO` (R72). -/
def execGetPrio (irq : Nat) (s : State) : Host.Outcome State Fault Refusal :=
  .next (respond (.word (getPrio s irq)) s)

/-- `SET_PRIO` (R73). -/
def execSetPrio (irq : Nat) (p : Word) (s : State) : Host.Outcome State Fault Refusal :=
  .next (respond .done (setPrio s irq p))

/-- `GET_PENDING` (R74). -/
def execGetPending (irq : Nat) (s : State) : Host.Outcome State Fault Refusal :=
  .next (respond (.flag (getPending s irq)) s)

/-- `SET_PENDING` (R75). -/
def execSetPending (irq : Nat) (s : State) : Host.Outcome State Fault Refusal :=
  .next (respond .done (setPendingFlag s irq true))

/-- `CLEAR_PENDING` (R76). -/
def execClearPending (irq : Nat) (s : State) : Host.Outcome State Fault Refusal :=
  .next (respond .done (setPendingFlag s irq false))

/-- `GET_PENDING_WORD` (R77). -/
def execGetPendingWord (w : Nat) (s : State) : Host.Outcome State Fault Refusal :=
  .next (respond (.word (getPendingWord s w)) s)

/-- `SET_PENDING_WORD` (R78). -/
def execSetPendingWord (w : Nat) (v : Word) (s : State) : Host.Outcome State Fault Refusal :=
  .next (respond .done (setPendingWord s w v))

end Sys2Proof.Machine
end

