-- ==== Sys2Proof/Machine/Dispatch.lean ====
section
/-! DEFINITION. The meaning of every request: one arm per constructor of `Instr`. -/

namespace Sys2Proof.Machine

/-- The effect of a request issued by `s.agent`. -/
def exec (i : Instr) (s : State) : Host.Outcome State Fault Refusal :=
  match i with
  | .priorityR irq => Sys2Proof.Machine.execPriorityR irq s
  | .priorityW irq value => Sys2Proof.Machine.execPriorityW irq value s
  | .pendingR w => Sys2Proof.Machine.execPendingR w s
  | .pendingW w value => Sys2Proof.Machine.execPendingW w value s
  | .thresholdR ctx => Sys2Proof.Machine.execThresholdR ctx s
  | .thresholdW ctx value => Sys2Proof.Machine.execThresholdW ctx value s
  | .claimR ctx => Sys2Proof.Machine.execClaimR ctx s
  | .claimW ctx value => Sys2Proof.Machine.execClaimW ctx value s
  | .noregR ctx word => Sys2Proof.Machine.execNoregR ctx word s
  | .noregW ctx word value => Sys2Proof.Machine.execNoregW ctx word value s
  | .enableR ctx w => Sys2Proof.Machine.execEnableR ctx w s
  | .enableW ctx w value => Sys2Proof.Machine.execEnableW ctx w value s
  | .unservicedR w4 off => Sys2Proof.Machine.execUnservicedR w4 off s
  | .unservicedW w4 off value => Sys2Proof.Machine.execUnservicedW w4 off value s
  | .getPrio irq => Sys2Proof.Machine.execGetPrio irq s
  | .setPrio irq p => Sys2Proof.Machine.execSetPrio irq p s
  | .getPending irq => Sys2Proof.Machine.execGetPending irq s
  | .setPending irq => Sys2Proof.Machine.execSetPending irq s
  | .clearPending irq => Sys2Proof.Machine.execClearPending irq s
  | .getPendingWord w => Sys2Proof.Machine.execGetPendingWord w s
  | .setPendingWord w v => Sys2Proof.Machine.execSetPendingWord w v s
  | .getEnableBit ctx irq => Sys2Proof.Machine.execGetEnableBit ctx irq s
  | .setEnableBit ctx irq e => Sys2Proof.Machine.execSetEnableBit ctx irq e s
  | .getEnableWord ctx w => Sys2Proof.Machine.execGetEnableWord ctx w s
  | .setEnableWord ctx w v => Sys2Proof.Machine.execSetEnableWord ctx w v s
  | .getThreshold ctx => Sys2Proof.Machine.execGetThreshold ctx s
  | .setThreshold ctx t => Sys2Proof.Machine.execSetThreshold ctx t s
  | .getClaim ctx => Sys2Proof.Machine.execGetClaim ctx s
  | .setClaim ctx v => Sys2Proof.Machine.execSetClaim ctx v s
  | .claimIrq ctx => Sys2Proof.Machine.execClaimIrq ctx s
  | .completeIrq ctx irqArgument => Sys2Proof.Machine.execCompleteIrq ctx irqArgument s
  | .addressRange => Sys2Proof.Machine.execAddressRange s
  | .mmioRead addr width => Sys2Proof.Machine.execMmioRead addr width s
  | .mmioWrite addr width value => Sys2Proof.Machine.execMmioWrite addr width value s

end Sys2Proof.Machine
end

