-- ==== Sys2Proof/Machine/Step.lean ====
section
/-! DEFINITION. The step: one operation of one agent, and inside a relaxed claim one field operation (10_state.md
R24, decision D19). The block has no program counter; the next move is the first turn of the schedule (log 1). -/

namespace Sys2Proof.Machine

/-- An agent with no claim in flight starts its next request: it is taken from the requests, decoded and
executed. An agent with none does nothing. -/
def issueNext (s : State) : Host.Outcome State Fault Refusal :=
  match takeRequest s.agent s.requests with
  | none => .next s
  | some (r, rest) =>
      match decode r with
      | .ok i => exec i { s with requests := rest }
      | .error e => .refused (.undecodable e)

/-- An agent's operation ends before its next one starts (20_memory.md R44): an agent with a claim in flight moves
that claim, any other starts its next request. -/
def takeTurn (choice : ClaimChoice) (s : State) : Host.Outcome State Fault Refusal :=
  match findClaim s.agent s.inflight with
  | some c => .next (advanceClaim choice c s)
  | none => issueNext s

/-- One move. With no turn to take there is nothing to do (R24). -/
def step (s : State) : Host.Outcome State Fault Refusal :=
  match s.schedule with
  | [] => .next s
  | t :: rest => takeTurn t.choice (startTurn t rest s)

/-- `s` with an agent that has nothing in flight presenting a table word, its turn being next (log 2). -/
def State.withFetchWord (s : State) (nbits w : Nat) : State :=
  presentRequest (freshAgent s) (tableRequest nbits w) s

end Sys2Proof.Machine
end

