-- ==== Sys2Proof/Safety.lean ====
section
/-! DEFINITION. The terms claims are stated in: eligibility, what a move leaves unchanged, the invariant of the
machine, and the number of field operations a claim in flight still needs. -/

namespace Sys2Proof.Machine

/-- 41_arbitration.md R100 in its own words: the four conditions, the comparison on unsigned values. -/
def EligibleFor (s : State) (ctx irq : Nat) : Prop :=
  1 ≤ irq ∧ irq ≤ 511 ∧ getPending s irq = true ∧ getEnableBit s ctx irq = true ∧
    (getThreshold s ctx).toNat < (getPrio s irq).toNat

/-- The requests that perform a claim on a context, with the form of their answer: CLAIM_IRQ (42_claim_complete.md
R110), CLAIM.R (43_mmio_front_end.md R142), and a serviced MMIO_READ of `CLAIM[ctx]` (20_memory.md R38). -/
def IsClaimRequest (cfg : Config) (ctx : Nat) (form : ClaimForm) (i : Instr) : Prop :=
  (i = .claimIrq ctx ∧ form = .port) ∨
    (∃ k : BitVec 9, i = .claimR k ∧ k.toNat = ctx ∧ form = .mmio) ∨
    (ctx ≤ 511 ∧ i = .mmioRead (cfg.base + (0x200004 + 0x1000 * ctx)) 4 ∧ form = .mmio)

/-- The requests that make source `irq` pending (60_exceptions.md R153): SET_PENDING, and a write of a 1 to its bit
by SET_PENDING_WORD, by PENDING.W, or by a serviced MMIO_WRITE of its pending word. -/
def Signals (cfg : Config) (irq : Nat) : Instr → Prop
  | .setPending j => j = irq
  | .setPendingWord w v => w = irq / 32 ∧ v.getLsbD (irq % 32) = true
  | .pendingW w v => w.toNat = irq / 32 ∧ v.getLsbD (irq % 32) = true
  | .mmioWrite addr width v =>
      width = 4 ∧ addr = cfg.base + (0x1000 + 4 * (irq / 32)) ∧ v.testBit (irq % 32) = true
  | _ => False

/-- Requests performed one wholly before the other, in the order of the list (20_memory.md R43). -/
def execAll : List Instr → State → Host.Outcome State Fault Refusal
  | [], s => .next s
  | i :: l, s =>
      match exec i s with
      | .next t => execAll l t
      | .fault f => .fault f
      | .refused r => .refused r

/-- A claim in flight that has found nothing so far and will not in this iteration: it is scanning, its best
candidate is none (41_arbitration.md R101), and it has not read a set enable flag in the iteration. -/
def NoCandidate (c : ClaimInFlight) : Prop :=
  c.best = 0 ∧
    match c.phase with
    | .scan _ r => r.enable ≠ some true
    | .clear => False
    | .record => False

/-- Nothing but the response differs. -/
def SameButResponse (s t : State) : Prop := { t with response := s.response } = s

/-- Nothing but the pending flags and the response differs. -/
def SameButPending (s t : State) : Prop := { t with pending := s.pending, response := s.response } = s

/-- Nothing but the enable flags and the response differs. -/
def SameButEnable (s t : State) : Prop := { t with enable := s.enable, response := s.response } = s

/-- The five arrays of 10_state.md R10 are the same. -/
def SameArrays (s t : State) : Prop :=
  t.priority = s.priority ∧ t.pending = s.pending ∧ t.enable = s.enable ∧ t.threshold = s.threshold ∧
    t.claim = s.claim

/-- The response reports no failure (43_mmio_front_end.md R148). -/
def reportsNoFailure : Option Response → Bool
  | some (.value _ .failure) => false
  | some (.ack .failure) => false
  | _ => true

/-- The entries of the context arrays at or above `NUM_CONTEXTS` are no storage; they stay zero (log 7). -/
def spareContextsZero (s : State) : Prop :=
  ∀ c, ∀ h : c < 16, s.cfg.numContexts ≤ c → s.enable[c] = 0 ∧ s.threshold[c] = 0 ∧ s.claim[c] = 0

/-- What 10_state.md R27 says a claim in flight can hold: a scan position `1 .. MAX_IRQ` with a field still to be
read, a best candidate below it, and after the scan a winner. -/
def claimPhaseOk (c : ClaimInFlight) : Prop :=
  match c.phase with
  | .scan irq r => 1 ≤ irq ∧ irq ≤ 511 ∧ c.best < irq ∧ allRead c r = false
  | .clear => c.best ≠ 0
  | .record => c.best ≠ 0

/-- A possible claim in flight (R27): `best` is 0 or an irq id, and it is 0 exactly while `bestPrio` is 0. -/
def claimOk (c : ClaimInFlight) : Prop :=
  c.best ≤ 511 ∧ (c.best = 0 ↔ c.bestPrio = 0) ∧ claimPhaseOk c

/-- The invariant: admitted parameters, unused context entries zero, at most one claim in flight per agent and in
the list's canonical order, each of them possible, and none in the atomic variant (R27). -/
structure State.Inv (s : State) : Prop where
  cfgOk : s.cfg.wf = true
  spare : spareContextsZero s
  sorted : s.inflight.Pairwise (fun c d => c.agent < d.agent)
  claims : ∀ c ∈ s.inflight, claimOk c
  atomic : s.cfg.claimAtomicity = .atomic → s.inflight = []

/-- Every claim cell holds 0 or an irq id. Kept by everything but a raw SET_CLAIM (92_eei_decisions.md D33). -/
def claimCellsAreIrqs (s : State) : Prop := ∀ c, ∀ h : c < 16, (s.claim[c]).toNat ≤ 511

/-- How many of the four fields of an iteration are still to be read. -/
def unreadCount (c : ClaimInFlight) (r : ScanReads) : Nat :=
  (unread c r .threshold).toNat + (unread c r .priority).toNat + (unread c r .pending).toNat +
    (unread c r .enable).toNat

/-- A bound on the field operations a claim in flight still needs: four reads for each iteration to come, and the
two writes of the commit (70_reset_and_hazards.md R185). -/
def movesLeft (c : ClaimInFlight) : Nat :=
  match c.phase with
  | .scan irq r => unreadCount c r + 4 * (511 - irq) + 2
  | .clear => 2
  | .record => 1

/-- Requests that write and answer no value: the set accessors, the completion and the MMIO writes. -/
def isWriteRequest : Instr → Bool
  | .priorityW _ _ => true
  | .pendingW _ _ => true
  | .thresholdW _ _ => true
  | .claimW _ _ => true
  | .noregW _ _ _ => true
  | .enableW _ _ _ => true
  | .unservicedW _ _ _ => true
  | .setPrio _ _ => true
  | .setPending _ => true
  | .clearPending _ => true
  | .setPendingWord _ _ => true
  | .setEnableBit _ _ _ => true
  | .setEnableWord _ _ _ => true
  | .setThreshold _ _ => true
  | .setClaim _ _ => true
  | .completeIrq _ _ => true
  | .mmioWrite _ _ _ => true
  | _ => false

/-- An accessor call with an index out of range (40_store_ops.md R71). -/
def indexOutOfRange (cfg : Config) : Instr → Prop
  | .getPrio irq => 511 < irq
  | .setPrio irq _ => 511 < irq
  | .getPending irq => 511 < irq
  | .setPending irq => 511 < irq
  | .clearPending irq => 511 < irq
  | .getPendingWord w => 16 ≤ w
  | .setPendingWord w _ => 16 ≤ w
  | .getEnableBit ctx irq => cfg.numContexts ≤ ctx ∨ 511 < irq
  | .setEnableBit ctx irq _ => cfg.numContexts ≤ ctx ∨ 511 < irq
  | .getEnableWord ctx w => cfg.numContexts ≤ ctx ∨ 16 ≤ w
  | .setEnableWord ctx w _ => cfg.numContexts ≤ ctx ∨ 16 ≤ w
  | .getThreshold ctx => cfg.numContexts ≤ ctx
  | .setThreshold ctx _ => cfg.numContexts ≤ ctx
  | .getClaim ctx => cfg.numContexts ≤ ctx
  | .setClaim ctx _ => cfg.numContexts ≤ ctx
  | _ => False

/-- The benign response of an accessor call with an index out of range: `0`, `false`, or nothing (R71). -/
def benignResponse : Instr → Response
  | .getPrio _ => .word 0
  | .getPending _ => .flag false
  | .getPendingWord _ => .word 0
  | .getEnableBit _ _ => .flag false
  | .getEnableWord _ _ => .word 0
  | .getThreshold _ => .word 0
  | .getClaim _ => .word 0
  | _ => .done

end Sys2Proof.Machine
end

