-- ==== Sys2Proof/Certificates/Slice0/Obligations.lean ====
section
/-! DEFINITION. The statements for the provers. -/

open Sys2Proof Sys2Proof.Machine

/-- Decode and encode agree on every well-formed request. The argument lists are the model's own layout (log 13). -/
def Obligations.DecodeEncodeRoundTrip : Prop :=
  ∀ i : Instr, i.wf = true → decode (encode i) = .ok i

/-- The selector words have no illegal encoding (R63), and decoding loses no bit of one. -/
def Obligations.EverySelectorWordDecodes : Prop :=
  ∀ (sel : Selector) (v : Word), ∃ i : Instr,
    decode (.mmio sel (if selIsWrite sel then [v.toNat] else [])) = .ok i ∧ i.wf = true ∧
      encode i = .mmio sel (if selIsWrite sel then [v.toNat] else [])

/-- The spec says it checked its table against DECODE by a script (95_test_vectors.md); this says it of every
selector word. -/
def Obligations.SelectorRowsAgreeWithMmioAccesses : Prop :=
  ∀ (s : State) (sel : Selector) (width : Nat), selW4 sel = decide (width = 4) →
    (selIsWrite sel = false → ∀ i, decode (.mmio sel []) = .ok i →
      exec i s = exec (.mmioRead (s.cfg.base + (selOff sel).toNat) width) s) ∧
    (selIsWrite sel = true → ∀ (v : Nat) (i : Instr), decode (.mmio sel [v]) = .ok i →
      exec i s = exec (.mmioWrite (s.cfg.base + (selOff sel).toNat) width v) s)

/-- A sanity check of the decoder on words the spec writes out. -/
def Obligations.WrittenSelectorWordsDecode : Prop :=
  decode (.mmio 0xC0001C [9]) = .ok (.priorityW 7 9) ∧
    decode (.mmio 0x401000 []) = .ok (.pendingR 0) ∧
    decode (.mmio 0xC02104 [0x100]) = .ok (.enableW 2 1 0x100) ∧
    decode (.mmio 0x5FFFFC []) = .ok (.enableR 16319 31) ∧
    decode (.mmio 0xE01000 [8]) = .ok (.thresholdW 1 8) ∧
    decode (.mmio 0x600004 []) = .ok (.claimR 0) ∧
    decode (.mmio 0x600008 []) = .ok (.noregR 0 2) ∧
    decode (.mmio 0xA00000 [1]) = .ok (.unservicedW false 0x200000 1) ∧
    decode (.port 0b01111 [3]) = .ok (.claimIrq 3) ∧
    decode (.port 0b01000 [0, 40, 1]) = .ok (.setEnableBit 0 40 true)

/-- The offsets of R19 and R40 against the index formulas of R54 to R57. -/
def Obligations.RegisterOffsetsDecodeToTheirRegister : Prop :=
  (∀ irq, irq ≤ 1023 → decodeOffset (4 * irq) = .priority irq) ∧
    (∀ w, w ≤ 1023 → decodeOffset (0x1000 + 4 * w) = .pending w) ∧
    (∀ ctx w, ctx ≤ 16319 → w ≤ 31 → decodeOffset (0x2000 + 0x80 * ctx + 4 * w) = .enable ctx w) ∧
    (∀ ctx, ctx ≤ 511 → decodeOffset (0x200000 + 0x1000 * ctx) = .threshold ctx) ∧
    (∀ ctx, ctx ≤ 511 → decodeOffset (0x200000 + 0x1000 * ctx + 4) = .claim ctx)

/-- R58, with its reads and writes. -/
def Obligations.NoRegisterArisesInExactlyTwoWays : Prop :=
  (∀ off, decodeOffset off = .noRegister ↔
      (0x400000 ≤ off ∨
        (0x200000 ≤ off ∧ off < 0x400000 ∧ (off - 0x200000) % 0x1000 ≠ 0 ∧ (off - 0x200000) % 0x1000 ≠ 4))) ∧
    (∀ (s : State) (off v : Nat), decodeOffset off = .noRegister →
      exec (.mmioRead (s.cfg.base + off) 4) s = .next { s with response := some (.value 0 .success) } ∧
      exec (.mmioWrite (s.cfg.base + off) 4 v) s = .next { s with response := some (.ack .success) })

/-- How the meanings reach a run: the model's own fields are those of log 1 and 12. -/
def Obligations.StepRunsTheDecodedRequest : Prop :=
  ∀ (s : State) (t : Turn) (rest : List Turn) (r : Request) (requests : List Issued) (i : Instr),
    s.schedule = t :: rest → findClaim t.agent s.inflight = none →
    takeRequest t.agent s.requests = some (r, requests) → decode r = .ok i →
    step s =
      exec i { s with schedule := rest, agent := t.agent, response := none, requests := requests }

/-- How a request comes to run from any state (log 2). -/
def Obligations.PresentedTableWordRunsNext : Prop :=
  ∀ (s : State) (nbits w : Nat) (i : Instr), decodeTableWord nbits w = some i →
    step (s.withFetchWord nbits w) = exec i { s with agent := freshAgent s, response := none }

/-- The program order of R44. -/
def Obligations.AgentsKeepProgramOrder : Prop :=
  ∀ (a : Nat) (l : List Issued),
    (∀ r rest, takeRequest a l = some (r, rest) →
      l.filter (fun i => i.agent == a) = ⟨a, r⟩ :: rest.filter (fun i => i.agent == a) ∧
      ∀ b, b ≠ a → rest.filter (fun i => i.agent == b) = l.filter (fun i => i.agent == b)) ∧
    (takeRequest a l = none ↔ ∀ i ∈ l, i.agent ≠ a)

/-- "an agent's next operation starts only after its previous one has completed" (R44). -/
def Obligations.BusyAgentFinishesBeforeItsNextRequest : Prop :=
  ∀ (s : State) (t : Turn) (rest : List Turn) (c : ClaimInFlight),
    s.schedule = t :: rest → findClaim t.agent s.inflight = some c →
    step s = .next (advanceClaim t.choice c { s with schedule := rest, agent := t.agent, response := none }) ∧
      (advanceClaim t.choice c { s with schedule := rest, agent := t.agent, response := none }).requests = s.requests

/-- The block does nothing by itself (R24); the form of an idle move is the model's (log 1). -/
def Obligations.IdleMovesChangeNoRegister : Prop :=
  ∀ s : State,
    (s.schedule = [] → step s = .next s) ∧
    (∀ (t : Turn) (rest : List Turn), s.schedule = t :: rest → findClaim t.agent s.inflight = none →
      (∀ i ∈ s.requests, i.agent ≠ t.agent) →
      step s = .next { s with schedule := rest, agent := t.agent, response := none })

/-- R150: every request gets a normal next state. The one refusal is of a word that is no request (log 13). -/
def Obligations.EveryRequestCompletesWithoutFailure : Prop :=
  (∀ (i : Instr) (s : State), ∃ t, exec i s = .next t ∧ reportsNoFailure t.response = true) ∧
    (∀ (s : State) (f : Fault), step s ≠ .fault f) ∧
    (∀ (s : State) (r : Refusal), step s = .refused r → ∃ e, r = .undecodable e) ∧
    (∀ (choice : ClaimChoice) (c : ClaimInFlight) (s : State), s.response = none →
      reportsNoFailure (advanceClaim choice c s).response = true)

/-- R72 and R73: result, state written and frame, for every irq. -/
def Obligations.PriorityAccessors : Prop :=
  ∀ (s : State) (irq : Nat) (p : Word),
    exec (.getPrio irq) s =
      .next { s with response := some (.word (if h : irq < 512 then s.priority[irq] else 0)) } ∧
    exec (.setPrio irq p) s =
      .next (if h : irq < 512 then { s with priority := s.priority.set irq p, response := some .done }
        else { s with response := some .done }) ∧
    encode (.getPrio irq) = .port 0b00000 [irq] ∧ encode (.setPrio irq p) = .port 0b00001 [irq, p.toNat]

/-- R74 to R76, flag by flag. -/
def Obligations.PendingFlagAccessors : Prop :=
  ∀ (s : State) (irq : Nat),
    exec (.getPending irq) s =
      .next { s with response := some (.flag (decide (irq ≤ 511) && s.pending.getLsbD irq)) } ∧
    (∃ t, exec (.setPending irq) s = .next t ∧ t.response = some .done ∧ SameButPending s t ∧
      ∀ j, j ≤ 511 → t.pending.getLsbD j = if j = irq then true else s.pending.getLsbD j) ∧
    (∃ t, exec (.clearPending irq) s = .next t ∧ t.response = some .done ∧ SameButPending s t ∧
      ∀ j, j ≤ 511 → t.pending.getLsbD j = if j = irq then false else s.pending.getLsbD j) ∧
    encode (.getPending irq) = .port 0b00010 [irq] ∧ encode (.setPending irq) = .port 0b00011 [irq] ∧
    encode (.clearPending irq) = .port 0b00100 [irq]

/-- R77, R78. The place of a flag in its word is the spec's decision D5 (log 8), the 16 words decision D6 (log 9). -/
def Obligations.PendingWordAccessors : Prop :=
  ∀ (s : State) (w : Nat) (v : Word),
    (∃ t r, exec (.getPendingWord w) s = .next t ∧ SameButResponse s t ∧ t.response = some (.word r) ∧
      ∀ b, b < 32 → r.getLsbD b = (decide (w < 16) && s.pending.getLsbD (32 * w + b))) ∧
    (∃ t, exec (.setPendingWord w v) s = .next t ∧ t.response = some .done ∧ SameButPending s t ∧
      ∀ j, j ≤ 511 → t.pending.getLsbD j = if j / 32 = w then v.getLsbD (j % 32) else s.pending.getLsbD j)

/-- R79 and R80, flag by flag and context by context. -/
def Obligations.EnableFlagAccessors : Prop :=
  ∀ (s : State) (ctx irq : Nat) (e : Bool),
    (∀ h : ctx < s.cfg.numContexts, irq ≤ 511 → exec (.getEnableBit ctx irq) s =
      .next { s with response := some (.flag ((s.enable[ctx]'(s.cfg.context_lt h)).getLsbD irq)) }) ∧
    (¬ (ctx < s.cfg.numContexts ∧ irq ≤ 511) → exec (.getEnableBit ctx irq) s =
      .next { s with response := some (.flag false) }) ∧
    (∃ t, exec (.setEnableBit ctx irq e) s = .next t ∧ t.response = some .done ∧ SameButEnable s t ∧
      ∀ c, ∀ h : c < 16, ∀ j, j ≤ 511 → (t.enable[c]).getLsbD j =
        if c = ctx ∧ ctx < s.cfg.numContexts ∧ j = irq then e else (s.enable[c]).getLsbD j) ∧
    encode (.getEnableBit ctx irq) = .port 0b00111 [ctx, irq] ∧
    encode (.setEnableBit ctx irq e) = .port 0b01000 [ctx, irq, if e then 1 else 0]

/-- R81, R82. The place of a flag in its word is the spec's decision D5 (log 8), the 16 words decision D6 (log 9). -/
def Obligations.EnableWordAccessors : Prop :=
  ∀ (s : State) (ctx w : Nat) (v : Word),
    (∃ t r, exec (.getEnableWord ctx w) s = .next t ∧ SameButResponse s t ∧ t.response = some (.word r) ∧
      (∀ h : ctx < s.cfg.numContexts, w < 16 →
        ∀ b, b < 32 → r.getLsbD b = (s.enable[ctx]'(s.cfg.context_lt h)).getLsbD (32 * w + b)) ∧
      (¬ (ctx < s.cfg.numContexts ∧ w < 16) → r = 0)) ∧
    (∃ t, exec (.setEnableWord ctx w v) s = .next t ∧ t.response = some .done ∧ SameButEnable s t ∧
      ∀ c, ∀ h : c < 16, ∀ j, j ≤ 511 → (t.enable[c]).getLsbD j =
        if c = ctx ∧ ctx < s.cfg.numContexts ∧ j / 32 = w then v.getLsbD (j % 32) else (s.enable[c]).getLsbD j)

/-- R83 and R84: result, state written and frame, for every context index. -/
def Obligations.ThresholdAccessors : Prop :=
  ∀ (s : State) (ctx : Nat) (t : Word),
    exec (.getThreshold ctx) s = .next { s with
      response := some (.word (if h : ctx < s.cfg.numContexts then s.threshold[ctx]'(s.cfg.context_lt h) else 0)) } ∧
    exec (.setThreshold ctx t) s = .next (if h : ctx < s.cfg.numContexts then
        { s with threshold := s.threshold.set ctx t (s.cfg.context_lt h), response := some .done }
      else { s with response := some .done }) ∧
    encode (.getThreshold ctx) = .port 0b01011 [ctx] ∧
    encode (.setThreshold ctx t) = .port 0b01100 [ctx, t.toNat] ∧
    (t = 0xFFFFFFFF → ∀ irq, ctx < s.cfg.numContexts → ¬ EligibleFor (setThreshold s ctx t) ctx irq) ∧
    (t = 0 → ∀ irq, ctx < s.cfg.numContexts → 1 ≤ irq → irq ≤ 511 → 1 ≤ (getPrio s irq).toNat →
      getPending s irq = true → getEnableBit s ctx irq = true → EligibleFor (setThreshold s ctx t) ctx irq)

/-- R87, R88. That any u32 is stored unchanged is the spec's decision D33 (log 18). -/
def Obligations.ClaimCellAccessors : Prop :=
  ∀ (s : State) (ctx : Nat) (v : Word),
    exec (.getClaim ctx) s = .next { s with
      response := some (.word (if h : ctx < s.cfg.numContexts then s.claim[ctx]'(s.cfg.context_lt h) else 0)) } ∧
    exec (.setClaim ctx v) s = .next (if h : ctx < s.cfg.numContexts then
        { s with claim := s.claim.set ctx v (s.cfg.context_lt h), response := some .done }
      else { s with response := some .done })

/-- "reads return 0, writes are silently dropped" (R71). NUM_WORDS = 16 is the spec's decision D6 (log 9). -/
def Obligations.OutOfRangeIndexIsBenign : Prop :=
  ∀ (i : Instr) (s : State), indexOutOfRange s.cfg i →
    exec i s = .next { s with response := some (benignResponse i) }

/-- R85. The place of a flag in its word is the spec's decision D5 (log 8). -/
def Obligations.BitViewAndWordViewCohere : Prop :=
  ∀ (s : State) (irq w : Nat), irq ≤ 511 → w < 16 →
    getPendingWord (setPendingFlag s irq true) w =
      (if w = irq / 32 then getPendingWord s w ||| BitVec.twoPow 32 (irq % 32) else getPendingWord s w) ∧
    getPendingWord (setPendingFlag s irq false) w =
      (if w = irq / 32 then getPendingWord s w &&& ~~~(BitVec.twoPow 32 (irq % 32)) else getPendingWord s w) ∧
    ∀ ctx c, ctx < s.cfg.numContexts →
      getEnableWord (setEnableBit s ctx irq true) c w =
        (if c = ctx ∧ w = irq / 32 then getEnableWord s c w ||| BitVec.twoPow 32 (irq % 32)
          else getEnableWord s c w) ∧
      getEnableWord (setEnableBit s ctx irq false) c w =
        (if c = ctx ∧ w = irq / 32 then getEnableWord s c w &&& ~~~(BitVec.twoPow 32 (irq % 32))
          else getEnableWord s c w)

/-- R102, which the spec derives from R100 and R101 by induction on the scan. -/
def Obligations.ArbiterClosedForm : Prop :=
  ∀ (s : State) (ctx : Nat),
    (best s ctx = 0 ∧ ∀ irq, ¬ EligibleFor s ctx irq) ∨
    (EligibleFor s ctx (best s ctx) ∧
      ∀ j, EligibleFor s ctx j →
        (getPrio s j).toNat ≤ (getPrio s (best s ctx)).toNat ∧
        ((getPrio s j).toNat = (getPrio s (best s ctx)).toNat → best s ctx ≤ j))

/-- R103's order (the spec's decision D30, preserved from its source). -/
def Obligations.TiesGoToTheLowestIrqFirst : Prop :=
  ∀ (s : State) (ctx a b : Nat), s.cfg.claimAtomicity = .atomic → a < b →
    EligibleFor s ctx a → EligibleFor s ctx b → getPrio s a = getPrio s b →
    (∀ j, EligibleFor s ctx j → j = a ∨ j = b ∨ (getPrio s j).toNat < (getPrio s a).toNat) →
    ∃ t u, exec (.claimIrq ctx) s = .next t ∧ t.response = some (.claim (some a)) ∧
      exec (.claimIrq ctx) t = .next u ∧ u.response = some (.claim (some b))

/-- R104: masked by priority 0, and its pending flag stays. -/
def Obligations.PriorityZeroNeverWins : Prop :=
  ∀ (s : State) (ctx irq : Nat), getPrio s irq = 0 →
    ¬ EligibleFor s ctx irq ∧ (irq ≠ 0 → best s ctx ≠ irq) ∧
    (∀ (c : ClaimInFlight) (r : ScanReads), r.priority = some 0 → concludeIteration c irq r = c) ∧
    (∀ (ctx' : Nat) (form : ClaimForm) (i : Instr), IsClaimRequest s.cfg ctx' form i →
      ∃ t, exec i s = .next t ∧ getPending t irq = getPending s irq)

/-- R106. -/
def Obligations.ScanStartsAtIrqOne : Prop :=
  (∀ (s : State) (ctx : Nat), best s ctx ≤ 511 ∧ (best s ctx ≠ 0 → EligibleFor s ctx (best s ctx))) ∧
    (∀ (s : State) (ctx : Nat) (p : Word) (b e : Bool),
      best (setEnableBit (setPendingFlag (setPrio s 0 p) 0 b) ctx 0 e) ctx = best s ctx)

/-- R109, which the spec derives from R101. -/
def Obligations.ArbiterReadsOnlyItsInputs : Prop :=
  ∀ (s t : State) (ctx : Nat),
    (∀ irq, 1 ≤ irq → irq ≤ 511 → getPrio t irq = getPrio s irq ∧ getPending t irq = getPending s irq ∧
      getEnableBit t ctx irq = getEnableBit s ctx irq) →
    getThreshold t ctx = getThreshold s ctx → best t ctx = best s ctx

/-- R107 and R122, in both variants. -/
def Obligations.ContextWithoutStorageHasNoWinner : Prop :=
  ∀ (s : State) (ctx : Nat), s.cfg.numContexts ≤ ctx →
    best s ctx = 0 ∧
    (s.cfg.claimAtomicity = .atomic → ∀ (form : ClaimForm) (i : Instr), IsClaimRequest s.cfg ctx form i →
      exec i s = .next { s with response := some (claimResponse form none) }) ∧
    (s.cfg.claimAtomicity = .relaxed → ∀ (form : ClaimForm) (i : Instr), IsClaimRequest s.cfg ctx form i →
      ∃ t c, exec i s = .next t ∧ SameArrays s t ∧ findClaim s.agent t.inflight = some c ∧ c.ctx = ctx ∧
        c.form = form ∧ NoCandidate c) ∧
    (∀ (choice : ClaimChoice) (c : ClaimInFlight), c.ctx = ctx → NoCandidate c →
      SameArrays s (advanceClaim choice c s) ∧
      ((findClaim c.agent (advanceClaim choice c s).inflight = none ∧
          (advanceClaim choice c s).response = some (claimResponse c.form none)) ∨
        ∃ c', findClaim c.agent (advanceClaim choice c s).inflight = some c' ∧ c'.ctx = c.ctx ∧
          c'.form = c.form ∧ NoCandidate c')) ∧
    (∀ v, exec (.completeIrq ctx v) s = .next { s with response := some .done }) ∧
    (∀ (k : BitVec 9) v, k.toNat = ctx → exec (.claimW k v) s = .next { s with response := some (.ack .success) }) ∧
    (∀ v, ctx ≤ 511 → exec (.mmioWrite (s.cfg.base + (0x200004 + 0x1000 * ctx)) 4 v) s =
      .next { s with response := some (.ack .success) })

/-- An observation, not state or output of the block (R158, decision D27, log 21). -/
def Obligations.PendingObservationMeansSomethingEligible : Prop :=
  ∀ (s : State) (ctx : Nat), eip s ctx = true ↔ ∃ irq, EligibleFor s ctx irq

/-- R110 (with R112): result, state written and frame. -/
def Obligations.AtomicClaimTakesTheWinner : Prop :=
  ∀ (s : State) (ctx : Nat), s.cfg.claimAtomicity = .atomic →
    encode (.claimIrq ctx) = .port 0b01111 [ctx] ∧
    (best s ctx ≠ 0 → ∃ t, exec (.claimIrq ctx) s = .next t ∧ t.response = some (.claim (some (best s ctx))) ∧
      (∀ j, j ≤ 511 → t.pending.getLsbD j = (decide (j ≠ best s ctx) && s.pending.getLsbD j)) ∧
      (∃ h : ctx < s.cfg.numContexts,
        t.claim = s.claim.set ctx (BitVec.ofNat 32 (best s ctx)) (s.cfg.context_lt h)) ∧
      { t with pending := s.pending, claim := s.claim, response := s.response } = s) ∧
    (best s ctx = 0 → exec (.claimIrq ctx) s = .next { s with response := some (.claim none) })

/-- "two contexts can never both be given the same signalled occurrence of an irq" (R123). A new occurrence is one of
the requests of R153. -/
def Obligations.AtomicClaimsNeverShareAnIrq : Prop :=
  ∀ (s : State) (a w : Nat) (form : ClaimForm) (i : Instr),
    s.cfg.claimAtomicity = .atomic → best s a = w → w ≠ 0 → IsClaimRequest s.cfg a form i →
    ∃ t, exec i s = .next t ∧ t.response = some (claimResponse form (some w)) ∧
      ∀ between : List Instr, (∀ j ∈ between, ¬ Signals s.cfg w j) →
        ∃ u, execAll between t = .next u ∧
          ∀ (b : Nat) (form' : ClaimForm) (k : Instr), IsClaimRequest s.cfg b form' k →
            ∃ v, exec k u = .next v ∧ v.response ≠ some (claimResponse form' (some w))

/-- R113: a claim while a claim is recorded is arbitrated exactly like one that is not; completion therefore re-arms
nothing (R121). -/
def Obligations.ClaimsNeverReadAClaimCell : Prop :=
  ∀ (s : State) (cells erased : Vector Word 16),
    (∀ (ctx : Nat) (form : ClaimForm) (i : Instr), IsClaimRequest s.cfg ctx form i →
      ∃ t u, exec i s = .next t ∧ exec i { s with claim := cells } = .next u ∧
        { t with claim := erased } = { u with claim := erased }) ∧
    (∀ (choice : ClaimChoice) (c : ClaimInFlight),
      { advanceClaim choice c s with claim := erased } =
        { advanceClaim choice c { s with claim := cells } with claim := erased })

/-- R119, and R120's unvalidated argument. -/
def Obligations.CompletionClearsOnlyItsCell : Prop :=
  ∀ (s : State) (ctx : Nat) (v v' : Word),
    exec (.completeIrq ctx v) s = .next (if h : ctx < s.cfg.numContexts then
        { s with claim := s.claim.set ctx 0 (s.cfg.context_lt h), response := some .done }
      else { s with response := some .done }) ∧
    exec (.completeIrq ctx v) s = exec (.completeIrq ctx v') s ∧
    encode (.completeIrq ctx v) = .port 0b10000 [ctx, v.toNat]

/-- R130. The length is the spec's decision D8 (log 9). -/
def Obligations.AddressRangeAnswersTheWindow : Prop :=
  ∀ s : State, exec .addressRange s = .next { s with response := some (.range s.cfg.base 0x400000) }

/-- R131, R32. Alignment is tested by the spec's decision D12 (log 16), addresses below BASE by D15 (log 25). -/
def Obligations.UnservicedAndOutsideAccessesDoNothing : Prop :=
  ∀ (s : State) (addr width v : Nat),
    (addr < s.cfg.base ∨ s.cfg.base + 0x400000 ≤ addr ∨ width ≠ 4 ∨ (addr - s.cfg.base) % 4 ≠ 0) →
    exec (.mmioRead addr width) s = .next { s with response := some (.value 0 .success) } ∧
    exec (.mmioWrite addr width v) s = .next { s with response := some (.ack .success) }

/-- R132's dispatch at the offsets of R19. That None reads as 0 is the spec's decision D18. -/
def Obligations.MmioReadsReachTheirRegister : Prop :=
  ∀ s : State,
    (∀ irq, irq ≤ 1023 → exec (.mmioRead (s.cfg.base + 4 * irq) 4) s =
      .next { s with response := some (.value (getPrio s irq) .success) }) ∧
    (∀ w, w ≤ 1023 → exec (.mmioRead (s.cfg.base + (0x1000 + 4 * w)) 4) s =
      .next { s with response := some (.value (getPendingWord s w) .success) }) ∧
    (∀ ctx w, ctx ≤ 16319 → w ≤ 31 → exec (.mmioRead (s.cfg.base + (0x2000 + 0x80 * ctx + 4 * w)) 4) s =
      .next { s with response := some (.value (getEnableWord s ctx w) .success) }) ∧
    (∀ ctx, ctx ≤ 511 → exec (.mmioRead (s.cfg.base + (0x200000 + 0x1000 * ctx)) 4) s =
      .next { s with response := some (.value (getThreshold s ctx) .success) }) ∧
    (∀ ctx, ctx ≤ 511 → s.cfg.claimAtomicity = .atomic →
      exec (.mmioRead (s.cfg.base + (0x200004 + 0x1000 * ctx)) 4) s =
        .next { claimAtomic s ctx with response := some (.value (BitVec.ofNat 32 (best s ctx)) .success) })

/-- R133's dispatch at the offsets of R19; truncation is the spec's decision D14 (R149, log 24), writable pending words
D31 (log 28). -/
def Obligations.MmioWritesReachTheirRegister : Prop :=
  ∀ (s : State) (v : Nat),
    (∀ irq, irq ≤ 1023 → exec (.mmioWrite (s.cfg.base + 4 * irq) 4 v) s =
      .next { setPrio s irq (BitVec.ofNat 32 (v % 2 ^ 32)) with response := some (.ack .success) }) ∧
    (∀ w, w ≤ 1023 → exec (.mmioWrite (s.cfg.base + (0x1000 + 4 * w)) 4 v) s =
      .next { setPendingWord s w (BitVec.ofNat 32 (v % 2 ^ 32)) with response := some (.ack .success) }) ∧
    (∀ ctx w, ctx ≤ 16319 → w ≤ 31 → exec (.mmioWrite (s.cfg.base + (0x2000 + 0x80 * ctx + 4 * w)) 4 v) s =
      .next { setEnableWord s ctx w (BitVec.ofNat 32 (v % 2 ^ 32)) with response := some (.ack .success) }) ∧
    (∀ ctx, ctx ≤ 511 → exec (.mmioWrite (s.cfg.base + (0x200000 + 0x1000 * ctx)) 4 v) s =
      .next { setThreshold s ctx (BitVec.ofNat 32 (v % 2 ^ 32)) with response := some (.ack .success) }) ∧
    (∀ ctx, ctx ≤ 511 → exec (.mmioWrite (s.cfg.base + (0x200004 + 0x1000 * ctx)) 4 v) s =
      .next { setClaim s ctx 0 with response := some (.ack .success) })

/-- The seven read rows of R61. -/
def Obligations.ReadRowsAnswerTheirRegister : Prop :=
  ∀ s : State,
    (∀ irq, exec (.priorityR irq) s = .next { s with response := some (.value (getPrio s irq.toNat) .success) }) ∧
    (∀ w, exec (.pendingR w) s = .next { s with response := some (.value (getPendingWord s w.toNat) .success) }) ∧
    (∀ ctx w, exec (.enableR ctx w) s =
      .next { s with response := some (.value (getEnableWord s ctx.toNat w.toNat) .success) }) ∧
    (∀ ctx, exec (.thresholdR ctx) s =
      .next { s with response := some (.value (getThreshold s ctx.toNat) .success) }) ∧
    (∀ ctx word, exec (.noregR ctx word) s = .next { s with response := some (.value 0 .success) }) ∧
    (∀ w4 off, exec (.unservicedR w4 off) s = .next { s with response := some (.value 0 .success) }) ∧
    (∀ ctx, s.cfg.claimAtomicity = .atomic → exec (.claimR ctx) s =
      .next { claimAtomic s ctx.toNat with
        response := some (.value (BitVec.ofNat 32 (best s ctx.toNat)) .success) })

/-- The seven write rows of R61. -/
def Obligations.WriteRowsWriteTheirRegister : Prop :=
  ∀ (s : State) (v : Word),
    (∀ irq, exec (.priorityW irq v) s = .next { setPrio s irq.toNat v with response := some (.ack .success) }) ∧
    (∀ w, exec (.pendingW w v) s = .next { setPendingWord s w.toNat v with response := some (.ack .success) }) ∧
    (∀ ctx w, exec (.enableW ctx w v) s =
      .next { setEnableWord s ctx.toNat w.toNat v with response := some (.ack .success) }) ∧
    (∀ ctx, exec (.thresholdW ctx v) s =
      .next { setThreshold s ctx.toNat v with response := some (.ack .success) }) ∧
    (∀ ctx, exec (.claimW ctx v) s = .next { setClaim s ctx.toNat 0 with response := some (.ack .success) }) ∧
    (∀ ctx word, exec (.noregW ctx word v) s = .next { s with response := some (.ack .success) }) ∧
    (∀ w4 off, exec (.unservicedW w4 off v) s = .next { s with response := some (.ack .success) })

/-- R38. -/
def Obligations.OnlyAClaimReadHasASideEffect : Prop :=
  ∀ s : State,
    (∀ addr width t, exec (.mmioRead addr width) s = .next t → ¬ SameButResponse s t →
      width = 4 ∧ ∃ ctx, ctx ≤ 511 ∧ addr = s.cfg.base + (0x200004 + 0x1000 * ctx)) ∧
    (∀ ctx, ctx ≤ 511 → s.cfg.claimAtomicity = .atomic → best s ctx ≠ 0 →
      ∃ t, exec (.mmioRead (s.cfg.base + (0x200004 + 0x1000 * ctx)) 4) s = .next t ∧
        t.pending ≠ s.pending ∧ getClaim t ctx = BitVec.ofNat 32 (best s ctx))

/-- R39, which the spec derives from the operation rules. -/
def Obligations.WritesAreIdempotent : Prop :=
  ∀ (i : Instr) (s t : State), isWriteRequest i = true → exec i s = .next t → exec i t = .next t

/-- R66's pair of transactions and R181's lost update. The place of a flag in its word is decision D5 (log 8). -/
def Obligations.EnablePseudoOperationSetsOneFlag : Prop :=
  ∀ (s : State) (ctx irq : Nat), ctx < s.cfg.numContexts → irq ≤ 511 →
    ∃ t v, exec (pseudoEnableRead s.cfg ctx irq) s = .next t ∧ t.response = some (.value v .success) ∧
      (∃ u, exec (pseudoEnableWrite s.cfg ctx irq v) t = .next u ∧ SameButEnable s u ∧
        ∀ c j, j ≤ 511 → getEnableBit u c j = if c = ctx ∧ j = irq then true else getEnableBit s c j) ∧
      (∀ other : Word, ∃ u, exec (pseudoEnableWrite s.cfg ctx irq v) (setEnableWord t ctx (irq / 32) other) = .next u ∧
        getEnableWord u ctx (irq / 32) = getEnableWord s ctx (irq / 32) ||| BitVec.twoPow 32 (irq % 32))

/-- R30, R171, R172. The zero priorities, enables and thresholds are the spec's own decision D11 (log 5). -/
def Obligations.ConstructionLeavesEverythingZero : Prop :=
  ∀ cfg : Config,
    (∀ irq, getPrio (State.initial cfg) irq = 0 ∧ getPending (State.initial cfg) irq = false) ∧
    (∀ ctx irq, getEnableBit (State.initial cfg) ctx irq = false) ∧
    (∀ ctx, getThreshold (State.initial cfg) ctx = 0 ∧ getClaim (State.initial cfg) ctx = 0) ∧
    (State.initial cfg).inflight = [] ∧
    (∀ ctx, cfg.claimAtomicity = .atomic → exec (.claimIrq ctx) (State.initial cfg) =
      .next { State.initial cfg with response := some (.claim none) })

/-- What a model should refuse at construction (U8, U9; log 4). -/
def Obligations.ConstructionRefusesBadParameters : Prop :=
  ∀ (n base : Nat) (at' : Atomicity) (m : List ContextRole),
    (8 < n → State.construct n base at' m = .refused .tooManyHarts) ∧
    (∀ h : n < 9,
      (base % 4 ≠ 0 → State.construct n base at' m = .refused .misalignedBase) ∧
      (base % 4 = 0 → (⟨⟨n, h⟩, base, at', m⟩ : Config).contextMapOk = false →
        State.construct n base at' m = .refused .badContextMap) ∧
      (base % 4 = 0 → (⟨⟨n, h⟩, base, at', m⟩ : Config).contextMapOk = true →
        State.construct n base at' m = .next (State.initial ⟨⟨n, h⟩, base, at', m⟩)))

/-- The invariant at reset. Unused context entries and the list's order are the model's choice (log 7, 11). -/
def Obligations.ResetMeetsTheInvariant : Prop :=
  (∀ cfg : Config, cfg.wf = true → (State.initial cfg).Inv) ∧ State.reset.Inv

/-- R27 and R22 over every step. Unused context entries and the list's order are the model's choice (log 7, 11). -/
def Obligations.StepKeepsTheInvariant : Prop :=
  ∀ s t : State, s.Inv → step s = .next t → t.Inv

/-- R4: "They are fixed when the block is constructed and never change afterwards". -/
def Obligations.StepKeepsTheParameters : Prop :=
  ∀ s t : State, step s = .next t → t.cfg = s.cfg

/-- The invariant D33 says holds only without raw SET_CLAIM. -/
def Obligations.ClaimCellsHoldIrqsUnlessWrittenRaw : Prop :=
  (∀ (i : Instr) (s t : State), (∀ ctx v, i ≠ .setClaim ctx v) → claimCellsAreIrqs s → exec i s = .next t →
      claimCellsAreIrqs t) ∧
    (∀ (choice : ClaimChoice) (c : ClaimInFlight) (s : State), claimOk c → claimCellsAreIrqs s →
      claimCellsAreIrqs (advanceClaim choice c s))

/-- R11: "No operation writes it as a side effect". -/
def Obligations.OnlyPriorityWritesChangeAPriority : Prop :=
  (∀ (i : Instr) (s t : State) (irq : Nat), exec i s = .next t → getPrio t irq ≠ getPrio s irq →
      (∃ p, i = .setPrio irq p) ∨ (∃ k v, i = .priorityW k v ∧ k.toNat = irq) ∨
        (∃ v, i = .mmioWrite (s.cfg.base + 4 * irq) 4 v)) ∧
    (∀ (choice : ClaimChoice) (c : ClaimInFlight) (s : State) (irq : Nat),
      getPrio (advanceClaim choice c s) irq = getPrio s irq)

/-- R12, for requests and, in the relaxed variant, for the move of a claim that clears its winner's flag (R116). The
place of a flag in its word is the spec's decision D5 (log 8). -/
def Obligations.OnlyTheseRequestsChangeAPendingFlag : Prop :=
  (∀ (i : Instr) (s t : State) (irq : Nat), exec i s = .next t → getPending t irq ≠ getPending s irq →
      (i = .setPending irq ∧ getPending t irq = true) ∨ (i = .clearPending irq ∧ getPending t irq = false) ∨
      (∃ v, i = .setPendingWord (irq / 32) v ∧ getPending t irq = v.getLsbD (irq % 32)) ∨
      (∃ k v, i = .pendingW k v ∧ k.toNat = irq / 32 ∧ getPending t irq = v.getLsbD (irq % 32)) ∨
      (∃ v, i = .mmioWrite (s.cfg.base + (0x1000 + 4 * (irq / 32))) 4 v ∧
        getPending t irq = v.testBit (irq % 32)) ∨
      (s.cfg.claimAtomicity = .atomic ∧ getPending t irq = false ∧
        ∃ ctx form, best s ctx = irq ∧ IsClaimRequest s.cfg ctx form i)) ∧
    (∀ (choice : ClaimChoice) (c : ClaimInFlight) (s : State) (irq : Nat),
      getPending (advanceClaim choice c s) irq ≠ getPending s irq →
      c.phase = .clear ∧ irq = c.best ∧ getPending (advanceClaim choice c s) irq = false)

/-- R15: "no operation changes it as a side effect". -/
def Obligations.OnlyEnableWritesChangeAnEnableFlag : Prop :=
  (∀ (i : Instr) (s t : State) (ctx irq : Nat), exec i s = .next t →
      getEnableBit t ctx irq ≠ getEnableBit s ctx irq →
      (∃ e, i = .setEnableBit ctx irq e) ∨ (∃ v, i = .setEnableWord ctx (irq / 32) v) ∨
        (∃ k w v, i = .enableW k w v ∧ k.toNat = ctx ∧ w.toNat = irq / 32) ∨
        (∃ v, i = .mmioWrite (s.cfg.base + (0x2000 + 0x80 * ctx + 4 * (irq / 32))) 4 v)) ∧
    (∀ (choice : ClaimChoice) (c : ClaimInFlight) (s : State) (ctx irq : Nat),
      getEnableBit (advanceClaim choice c s) ctx irq = getEnableBit s ctx irq)

/-- How a relaxed claim starts (R115). That the start is a move of its own is the model's choice (log 11). -/
def Obligations.RelaxedClaimStarts : Prop :=
  ∀ (s : State) (ctx : Nat) (form : ClaimForm) (i : Instr), s.cfg.claimAtomicity = .relaxed →
    IsClaimRequest s.cfg ctx form i →
      ∃ t, exec i s = .next t ∧ t.response = none ∧
        findClaim s.agent t.inflight =
          some ⟨s.agent, ctx, form, .scan 1 ⟨none, none, none, none⟩, 0, 0, none⟩ ∧
        (∀ b, b ≠ s.agent → findClaim b t.inflight = findClaim b s.inflight) ∧
        { t with inflight := s.inflight, response := s.response } = s

/-- The scan is read-only (R101, R115). -/
def Obligations.RelaxedScanOnlyReads : Prop :=
  ∀ (s : State) (choice : ClaimChoice) (c : ClaimInFlight) (irq : Nat) (r : ScanReads), c.phase = .scan irq r →
    { advanceClaim choice c s with inflight := s.inflight, response := s.response } = s ∧
      (∀ b, b ≠ c.agent → findClaim b (advanceClaim choice c s).inflight = findClaim b s.inflight) ∧
      ((advanceClaim choice c s).response = s.response ∨
        (advanceClaim choice c s).response = some (claimResponse c.form none))

/-- R115's reads, each of its own instant, and R101's four conditions. -/
def Obligations.RelaxedIterationReadsAndDecides : Prop :=
  ∀ (s : State) (c : ClaimInFlight) (irq : Nat) (r : ScanReads) (f : ScanField),
    c.phase = .scan irq r → unread c r f = true →
    (allRead c (readField s c.ctx irq r f) = false →
      findClaim c.agent (advanceClaim (.read f false) c s).inflight =
        some { c with phase := .scan irq (readField s c.ctx irq r f) }) ∧
    (∀ p t pend en, irq < 511 → (readField s c.ctx irq r f).priority = some p →
      knownThreshold c (readField s c.ctx irq r f) = some t →
      (readField s c.ctx irq r f).pending = some pend → (readField s c.ctx irq r f).enable = some en →
      findClaim c.agent (advanceClaim (.read f false) c s).inflight =
        some { c with
          phase := .scan (irq + 1) ⟨none, none, none, none⟩
          best := if pend = true ∧ en = true ∧ t.toNat < p.toNat ∧ c.bestPrio.toNat < p.toNat then irq else c.best
          bestPrio := if pend = true ∧ en = true ∧ t.toNat < p.toNat ∧ c.bestPrio.toNat < p.toNat then p
            else c.bestPrio })

/-- R116 (and R111's order). -/
def Obligations.RelaxedCommitClearsThenRecords : Prop :=
  ∀ (s : State) (choice : ClaimChoice) (c : ClaimInFlight),
    (c.phase = .clear →
      (∀ j, getPending (advanceClaim choice c s) j =
        if j = c.best ∧ c.best ≤ 511 then false else getPending s j) ∧
      findClaim c.agent (advanceClaim choice c s).inflight = some { c with phase := .record } ∧
      { advanceClaim choice c s with pending := s.pending, inflight := s.inflight } = s) ∧
    (c.phase = .record →
      (∀ k, getClaim (advanceClaim choice c s) k =
        if k = c.ctx ∧ c.ctx < s.cfg.numContexts then BitVec.ofNat 32 c.best else getClaim s k) ∧
      (advanceClaim choice c s).response = some (claimResponse c.form (some c.best)) ∧
      findClaim c.agent (advanceClaim choice c s).inflight = none ∧
      { advanceClaim choice c s with claim := s.claim, inflight := s.inflight, response := s.response } = s) ∧
    (∀ irq, 511 ≤ irq → (c.best ≠ 0 → afterIteration irq c s = keepClaim { c with phase := .clear } s) ∧
      (c.best = 0 → afterIteration irq c s = finishClaim c none s ∧
        SameArrays s (afterIteration irq c s) ∧
        (afterIteration irq c s).response = some (claimResponse c.form none)))

/-- R185's count, which the spec derives from R101. -/
def Obligations.RelaxedClaimEndsWithinItsBound : Prop :=
  (∀ agent ctx form, movesLeft (freshClaim agent ctx form) = 4 * 511 + 2) ∧
    ∀ (s : State) (choice : ClaimChoice) (c : ClaimInFlight), claimOk c →
      (findClaim c.agent (advanceClaim choice c s).inflight = none ∧
        ∃ w, (advanceClaim choice c s).response = some (claimResponse c.form w)) ∨
      ∃ c', findClaim c.agent (advanceClaim choice c s).inflight = some c' ∧ movesLeft c' < movesLeft c

/-- R118, which the spec derives from R110, R115 and R116: the relaxed scan, in every order of its reads, refines to
the atomic claim. R185 counts 4 * 511 + 2 = 2046 field operations; the 2047th step is the start of the claim, which
is a move of its own by the model's choice (log 11). -/
def Obligations.RelaxedClaimAloneIsAtomic : Prop :=
  ∀ (s : State) (a ctx : Nat) (form : ClaimForm) (r : Request) (i : Instr) (rest : List Issued),
    s.cfg.claimAtomicity = .relaxed → findClaim a s.inflight = none →
    takeRequest a s.requests = some (r, rest) → decode r = .ok i → IsClaimRequest s.cfg ctx form i →
    2047 ≤ s.schedule.length → (∀ t ∈ s.schedule.take 2047, t.agent = a) →
    ∃ k, k ≤ 2047 ∧ Host.Core.run Sys2Proof.core k s =
      .next { claimAtomic s ctx with
        response := some (claimResponse form (winnerOf (best s ctx)))
        agent := a
        requests := rest
        schedule := s.schedule.drop k }

/-- R117 (a), the double claim, reachable only in the relaxed variant. -/
def Obligations.RacingRelaxedClaimsCanShareAnIrq : Prop :=
  ∀ (s : State) (c d : ClaimInFlight) (x y z w : ClaimChoice), c.agent ≠ d.agent → c.ctx ≠ d.ctx →
    c.phase = .clear → d.phase = .clear → c.best = d.best → c.best ≤ 511 →
    c.ctx < s.cfg.numContexts → d.ctx < s.cfg.numContexts →
    findClaim c.agent s.inflight = some c → findClaim d.agent s.inflight = some d →
    s.schedule = [⟨c.agent, x⟩, ⟨d.agent, y⟩, ⟨c.agent, z⟩, ⟨d.agent, w⟩] →
    ∃ t u, Host.Core.run Sys2Proof.core 3 s = .next t ∧ t.response = some (claimResponse c.form (some c.best)) ∧
      step t = .next u ∧ u.response = some (claimResponse d.form (some c.best)) ∧
      getClaim u c.ctx = BitVec.ofNat 32 c.best ∧ getClaim u d.ctx = BitVec.ofNat 32 c.best ∧
      getPending u c.best = false

/-- R117 (c), the lost signal. -/
def Obligations.SignalDuringARelaxedCommitIsLost : Prop :=
  ∀ (s : State) (c : ClaimInFlight) (b : Nat) (x y : ClaimChoice) (rest : List Issued), b ≠ c.agent →
    c.phase = .clear → c.best ≤ 511 → findClaim c.agent s.inflight = some c → findClaim b s.inflight = none →
    takeRequest b s.requests = some (encode (.setPending c.best), rest) →
    s.schedule = [⟨b, x⟩, ⟨c.agent, y⟩] →
    ∃ t u, step s = .next t ∧ getPending t c.best = true ∧ step t = .next u ∧ getPending u c.best = false

/-- R17: "It is written only by `SET_THRESHOLD`", which the MMIO threshold region reaches. Truncation of a wider value is
the spec's decision D14 (log 24). -/
def Obligations.OnlyThresholdWritesChangeAThreshold : Prop :=
  (∀ (i : Instr) (s t : State) (ctx : Nat), exec i s = .next t → getThreshold t ctx ≠ getThreshold s ctx →
      i = .setThreshold ctx (getThreshold t ctx) ∨
        (∃ k, i = .thresholdW k (getThreshold t ctx) ∧ k.toNat = ctx) ∨
        (∃ v, i = .mmioWrite (s.cfg.base + (0x200000 + 0x1000 * ctx)) 4 v ∧
          getThreshold t ctx = BitVec.ofNat 32 (v % 2 ^ 32))) ∧
    (∀ (choice : ClaimChoice) (c : ClaimInFlight) (s : State) (ctx : Nat),
      getThreshold (advanceClaim choice c s) ctx = getThreshold s ctx)

/-- R18's writers, for requests and, in the relaxed variant, for the last move of a claim (R116). -/
def Obligations.OnlyTheseRequestsChangeAClaimCell : Prop :=
  (∀ (i : Instr) (s t : State) (ctx : Nat), exec i s = .next t → getClaim t ctx ≠ getClaim s ctx →
      i = .setClaim ctx (getClaim t ctx) ∨
      (getClaim t ctx = 0 ∧
        ((∃ v, i = .completeIrq ctx v) ∨ (∃ k v, i = .claimW k v ∧ k.toNat = ctx) ∨
          (∃ v, i = .mmioWrite (s.cfg.base + (0x200004 + 0x1000 * ctx)) 4 v))) ∨
      (s.cfg.claimAtomicity = .atomic ∧ best s ctx ≠ 0 ∧ getClaim t ctx = BitVec.ofNat 32 (best s ctx) ∧
        ∃ form, IsClaimRequest s.cfg ctx form i)) ∧
    (∀ (choice : ClaimChoice) (c : ClaimInFlight) (s : State) (ctx : Nat),
      getClaim (advanceClaim choice c s) ctx ≠ getClaim s ctx →
      c.phase = .record ∧ c.ctx = ctx ∧ getClaim (advanceClaim choice c s) ctx = BitVec.ofNat 32 c.best)
end

