-- ==== Sys2Proof/Laws/Flags.lean ====
section
/-! SUPPORT. What the flag and word operations of Machine/Flags.lean do, flag by flag and bit by bit. -/

namespace Sys2Proof.Machine

@[simp] theorem flag_setFlag (f : IrqSet) (irq : Nat) (e : Bool) (j : Nat) (hj : j < 512) :
    flag (setFlag f irq e) j = if j = irq then e else flag f j := by
  unfold flag setFlag
  by_cases h : j = irq
  · subst h; cases e <;> simp [hj]
  · cases e <;> simp [h, hj]

@[simp] theorem getLsbD_flagWord (f : IrqSet) (w b : Nat) (hb : b < 32) :
    (flagWord f w).getLsbD b = flag f (32 * w + b) := by
  simp [flagWord, flag, firstFlag, hb]

theorem getLsbD_wordMask (w j : Nat) (hj : j < 512) : (wordMask w).getLsbD j = decide (j / 32 = w) := by
  simp only [wordMask, firstFlag, irqsPerWord, BitVec.getLsbD_shiftLeft, BitVec.getLsbD_setWidth,
    BitVec.getLsbD_allOnes]
  by_cases h : j / 32 = w
  · have h1 : ¬ j < 32 * w := by omega
    have h2 : j - 32 * w < 32 := by omega
    simp [h, hj, h1, h2]; omega
  · by_cases h1 : j < 32 * w
    · simp [h, h1]
    · have h2 : ¬ j - 32 * w < 32 := by omega
      simp [h, h1, h2]

@[simp] theorem flag_setFlagWord (f : IrqSet) (w : Nat) (v : Word) (j : Nat) (hj : j < 512) :
    flag (setFlagWord f w v) j = if j / 32 = w then v.getLsbD (j % 32) else flag f j := by
  simp only [flag, setFlagWord, BitVec.getLsbD_or, BitVec.getLsbD_and, BitVec.getLsbD_not, hj, decide_true,
    Bool.true_and, getLsbD_wordMask, firstFlag, irqsPerWord, BitVec.getLsbD_shiftLeft, BitVec.getLsbD_setWidth]
  by_cases h : j / 32 = w
  · have h1 : ¬ j < 32 * w := by omega
    have h2 : j - 32 * w = j % 32 := by omega
    have h3 : j % 32 < 512 := by omega
    simp [h, h1, h2, h3]
  · by_cases h1 : j < 32 * w
    · simp [h, h1]
    · have h2 : v.getLsbD (j - 32 * w) = false := BitVec.getLsbD_of_ge _ _ (by omega)
      simp [h, h2]

/-- Two bitmaps with the same 512 flags are the same. -/
theorem irqSet_ext {f g : IrqSet} (h : ∀ j, j < 512 → flag f j = flag g j) : f = g :=
  BitVec.eq_of_getLsbD_eq h

/-- A word read back after it was written is the word written. -/
@[simp] theorem flagWord_setFlagWord_same (f : IrqSet) (w : Nat) (v : Word) (hw : w < 16) :
    flagWord (setFlagWord f w v) w = v := by
  refine BitVec.eq_of_getLsbD_eq fun b hb => ?_
  rw [getLsbD_flagWord _ _ _ hb, flag_setFlagWord _ _ _ _ (by omega), if_pos (by omega)]
  congr 1; omega

/-- A word is not changed by writing another one. -/
theorem flagWord_setFlagWord_other (f : IrqSet) (w w' : Nat) (v : Word) (hw : w' < 16) (h : w' ≠ w) :
    flagWord (setFlagWord f w v) w' = flagWord f w' := by
  refine BitVec.eq_of_getLsbD_eq fun b hb => ?_
  rw [getLsbD_flagWord _ _ _ hb, getLsbD_flagWord _ _ _ hb, flag_setFlagWord _ _ _ _ (by omega),
    if_neg (by omega)]

@[simp] theorem flag_empty (j : Nat) : flag 0#512 j = false := by simp [flag]

end Sys2Proof.Machine
end

