-- ==== Sys2Proof/Laws/State.lean ====
section
/-! SUPPORT. One lemma for each field that each update of the state leaves as it was, and for what the plain updates
write, so that no proof unfolds a record update. -/

namespace Sys2Proof.Machine

/-! `respond` -/

section
variable (r : Response) (s : State)

@[simp] theorem respond_priority : (respond r s).priority = s.priority := rfl
@[simp] theorem respond_pending : (respond r s).pending = s.pending := rfl
@[simp] theorem respond_enable : (respond r s).enable = s.enable := rfl
@[simp] theorem respond_threshold : (respond r s).threshold = s.threshold := rfl
@[simp] theorem respond_claim : (respond r s).claim = s.claim := rfl
@[simp] theorem respond_inflight : (respond r s).inflight = s.inflight := rfl
@[simp] theorem respond_cfg : (respond r s).cfg = s.cfg := rfl
@[simp] theorem respond_requests : (respond r s).requests = s.requests := rfl
@[simp] theorem respond_schedule : (respond r s).schedule = s.schedule := rfl
@[simp] theorem respond_agent : (respond r s).agent = s.agent := rfl

end

/-! `setPrio` -/

section
variable (s : State) (irq : Nat) (p : Word)

@[simp] theorem setPrio_pending : (setPrio s irq p).pending = s.pending := by unfold setPrio; split <;> rfl
@[simp] theorem setPrio_enable : (setPrio s irq p).enable = s.enable := by unfold setPrio; split <;> rfl
@[simp] theorem setPrio_threshold : (setPrio s irq p).threshold = s.threshold := by unfold setPrio; split <;> rfl
@[simp] theorem setPrio_claim : (setPrio s irq p).claim = s.claim := by unfold setPrio; split <;> rfl
@[simp] theorem setPrio_inflight : (setPrio s irq p).inflight = s.inflight := by unfold setPrio; split <;> rfl
@[simp] theorem setPrio_cfg : (setPrio s irq p).cfg = s.cfg := by unfold setPrio; split <;> rfl
@[simp] theorem setPrio_requests : (setPrio s irq p).requests = s.requests := by unfold setPrio; split <;> rfl
@[simp] theorem setPrio_schedule : (setPrio s irq p).schedule = s.schedule := by unfold setPrio; split <;> rfl
@[simp] theorem setPrio_agent : (setPrio s irq p).agent = s.agent := by unfold setPrio; split <;> rfl
@[simp] theorem setPrio_response : (setPrio s irq p).response = s.response := by unfold setPrio; split <;> rfl

end

/-! `setPendingFlag` -/

section
variable (s : State) (irq : Nat) (e : Bool)

@[simp] theorem setPendingFlag_priority : (setPendingFlag s irq e).priority = s.priority := by unfold setPendingFlag; split <;> rfl
@[simp] theorem setPendingFlag_enable : (setPendingFlag s irq e).enable = s.enable := by unfold setPendingFlag; split <;> rfl
@[simp] theorem setPendingFlag_threshold : (setPendingFlag s irq e).threshold = s.threshold := by unfold setPendingFlag; split <;> rfl
@[simp] theorem setPendingFlag_claim : (setPendingFlag s irq e).claim = s.claim := by unfold setPendingFlag; split <;> rfl
@[simp] theorem setPendingFlag_inflight : (setPendingFlag s irq e).inflight = s.inflight := by unfold setPendingFlag; split <;> rfl
@[simp] theorem setPendingFlag_cfg : (setPendingFlag s irq e).cfg = s.cfg := by unfold setPendingFlag; split <;> rfl
@[simp] theorem setPendingFlag_requests : (setPendingFlag s irq e).requests = s.requests := by unfold setPendingFlag; split <;> rfl
@[simp] theorem setPendingFlag_schedule : (setPendingFlag s irq e).schedule = s.schedule := by unfold setPendingFlag; split <;> rfl
@[simp] theorem setPendingFlag_agent : (setPendingFlag s irq e).agent = s.agent := by unfold setPendingFlag; split <;> rfl
@[simp] theorem setPendingFlag_response : (setPendingFlag s irq e).response = s.response := by unfold setPendingFlag; split <;> rfl

end

/-! `setPendingWord` -/

section
variable (s : State) (w : Nat) (v : Word)

@[simp] theorem setPendingWord_priority : (setPendingWord s w v).priority = s.priority := by unfold setPendingWord; split <;> rfl
@[simp] theorem setPendingWord_enable : (setPendingWord s w v).enable = s.enable := by unfold setPendingWord; split <;> rfl
@[simp] theorem setPendingWord_threshold : (setPendingWord s w v).threshold = s.threshold := by unfold setPendingWord; split <;> rfl
@[simp] theorem setPendingWord_claim : (setPendingWord s w v).claim = s.claim := by unfold setPendingWord; split <;> rfl
@[simp] theorem setPendingWord_inflight : (setPendingWord s w v).inflight = s.inflight := by unfold setPendingWord; split <;> rfl
@[simp] theorem setPendingWord_cfg : (setPendingWord s w v).cfg = s.cfg := by unfold setPendingWord; split <;> rfl
@[simp] theorem setPendingWord_requests : (setPendingWord s w v).requests = s.requests := by unfold setPendingWord; split <;> rfl
@[simp] theorem setPendingWord_schedule : (setPendingWord s w v).schedule = s.schedule := by unfold setPendingWord; split <;> rfl
@[simp] theorem setPendingWord_agent : (setPendingWord s w v).agent = s.agent := by unfold setPendingWord; split <;> rfl
@[simp] theorem setPendingWord_response : (setPendingWord s w v).response = s.response := by unfold setPendingWord; split <;> rfl

end

/-! `setEnableOf` -/

section
variable (s : State) (ctx : Nat) (f : IrqSet)

@[simp] theorem setEnableOf_priority : (setEnableOf s ctx f).priority = s.priority := by unfold setEnableOf; split <;> rfl
@[simp] theorem setEnableOf_pending : (setEnableOf s ctx f).pending = s.pending := by unfold setEnableOf; split <;> rfl
@[simp] theorem setEnableOf_threshold : (setEnableOf s ctx f).threshold = s.threshold := by unfold setEnableOf; split <;> rfl
@[simp] theorem setEnableOf_claim : (setEnableOf s ctx f).claim = s.claim := by unfold setEnableOf; split <;> rfl
@[simp] theorem setEnableOf_inflight : (setEnableOf s ctx f).inflight = s.inflight := by unfold setEnableOf; split <;> rfl
@[simp] theorem setEnableOf_cfg : (setEnableOf s ctx f).cfg = s.cfg := by unfold setEnableOf; split <;> rfl
@[simp] theorem setEnableOf_requests : (setEnableOf s ctx f).requests = s.requests := by unfold setEnableOf; split <;> rfl
@[simp] theorem setEnableOf_schedule : (setEnableOf s ctx f).schedule = s.schedule := by unfold setEnableOf; split <;> rfl
@[simp] theorem setEnableOf_agent : (setEnableOf s ctx f).agent = s.agent := by unfold setEnableOf; split <;> rfl
@[simp] theorem setEnableOf_response : (setEnableOf s ctx f).response = s.response := by unfold setEnableOf; split <;> rfl

end

/-! `setEnableBit` -/

section
variable (s : State) (ctx irq : Nat) (e : Bool)

@[simp] theorem setEnableBit_priority : (setEnableBit s ctx irq e).priority = s.priority := by unfold setEnableBit; split <;> simp
@[simp] theorem setEnableBit_pending : (setEnableBit s ctx irq e).pending = s.pending := by unfold setEnableBit; split <;> simp
@[simp] theorem setEnableBit_threshold : (setEnableBit s ctx irq e).threshold = s.threshold := by unfold setEnableBit; split <;> simp
@[simp] theorem setEnableBit_claim : (setEnableBit s ctx irq e).claim = s.claim := by unfold setEnableBit; split <;> simp
@[simp] theorem setEnableBit_inflight : (setEnableBit s ctx irq e).inflight = s.inflight := by unfold setEnableBit; split <;> simp
@[simp] theorem setEnableBit_cfg : (setEnableBit s ctx irq e).cfg = s.cfg := by unfold setEnableBit; split <;> simp
@[simp] theorem setEnableBit_requests : (setEnableBit s ctx irq e).requests = s.requests := by unfold setEnableBit; split <;> simp
@[simp] theorem setEnableBit_schedule : (setEnableBit s ctx irq e).schedule = s.schedule := by unfold setEnableBit; split <;> simp
@[simp] theorem setEnableBit_agent : (setEnableBit s ctx irq e).agent = s.agent := by unfold setEnableBit; split <;> simp
@[simp] theorem setEnableBit_response : (setEnableBit s ctx irq e).response = s.response := by unfold setEnableBit; split <;> simp

end

/-! `setEnableWord` -/

section
variable (s : State) (ctx w : Nat) (v : Word)

@[simp] theorem setEnableWord_priority : (setEnableWord s ctx w v).priority = s.priority := by unfold setEnableWord; split <;> simp
@[simp] theorem setEnableWord_pending : (setEnableWord s ctx w v).pending = s.pending := by unfold setEnableWord; split <;> simp
@[simp] theorem setEnableWord_threshold : (setEnableWord s ctx w v).threshold = s.threshold := by unfold setEnableWord; split <;> simp
@[simp] theorem setEnableWord_claim : (setEnableWord s ctx w v).claim = s.claim := by unfold setEnableWord; split <;> simp
@[simp] theorem setEnableWord_inflight : (setEnableWord s ctx w v).inflight = s.inflight := by unfold setEnableWord; split <;> simp
@[simp] theorem setEnableWord_cfg : (setEnableWord s ctx w v).cfg = s.cfg := by unfold setEnableWord; split <;> simp
@[simp] theorem setEnableWord_requests : (setEnableWord s ctx w v).requests = s.requests := by unfold setEnableWord; split <;> simp
@[simp] theorem setEnableWord_schedule : (setEnableWord s ctx w v).schedule = s.schedule := by unfold setEnableWord; split <;> simp
@[simp] theorem setEnableWord_agent : (setEnableWord s ctx w v).agent = s.agent := by unfold setEnableWord; split <;> simp
@[simp] theorem setEnableWord_response : (setEnableWord s ctx w v).response = s.response := by unfold setEnableWord; split <;> simp

end

/-! `setThreshold` -/

section
variable (s : State) (ctx : Nat) (t : Word)

@[simp] theorem setThreshold_priority : (setThreshold s ctx t).priority = s.priority := by unfold setThreshold; split <;> rfl
@[simp] theorem setThreshold_pending : (setThreshold s ctx t).pending = s.pending := by unfold setThreshold; split <;> rfl
@[simp] theorem setThreshold_enable : (setThreshold s ctx t).enable = s.enable := by unfold setThreshold; split <;> rfl
@[simp] theorem setThreshold_claim : (setThreshold s ctx t).claim = s.claim := by unfold setThreshold; split <;> rfl
@[simp] theorem setThreshold_inflight : (setThreshold s ctx t).inflight = s.inflight := by unfold setThreshold; split <;> rfl
@[simp] theorem setThreshold_cfg : (setThreshold s ctx t).cfg = s.cfg := by unfold setThreshold; split <;> rfl
@[simp] theorem setThreshold_requests : (setThreshold s ctx t).requests = s.requests := by unfold setThreshold; split <;> rfl
@[simp] theorem setThreshold_schedule : (setThreshold s ctx t).schedule = s.schedule := by unfold setThreshold; split <;> rfl
@[simp] theorem setThreshold_agent : (setThreshold s ctx t).agent = s.agent := by unfold setThreshold; split <;> rfl
@[simp] theorem setThreshold_response : (setThreshold s ctx t).response = s.response := by unfold setThreshold; split <;> rfl

end

/-! `setClaim` -/

section
variable (s : State) (ctx : Nat) (v : Word)

@[simp] theorem setClaim_priority : (setClaim s ctx v).priority = s.priority := by unfold setClaim; split <;> rfl
@[simp] theorem setClaim_pending : (setClaim s ctx v).pending = s.pending := by unfold setClaim; split <;> rfl
@[simp] theorem setClaim_enable : (setClaim s ctx v).enable = s.enable := by unfold setClaim; split <;> rfl
@[simp] theorem setClaim_threshold : (setClaim s ctx v).threshold = s.threshold := by unfold setClaim; split <;> rfl
@[simp] theorem setClaim_inflight : (setClaim s ctx v).inflight = s.inflight := by unfold setClaim; split <;> rfl
@[simp] theorem setClaim_cfg : (setClaim s ctx v).cfg = s.cfg := by unfold setClaim; split <;> rfl
@[simp] theorem setClaim_requests : (setClaim s ctx v).requests = s.requests := by unfold setClaim; split <;> rfl
@[simp] theorem setClaim_schedule : (setClaim s ctx v).schedule = s.schedule := by unfold setClaim; split <;> rfl
@[simp] theorem setClaim_agent : (setClaim s ctx v).agent = s.agent := by unfold setClaim; split <;> rfl
@[simp] theorem setClaim_response : (setClaim s ctx v).response = s.response := by unfold setClaim; split <;> rfl

end

/-! `completeClaim` -/

section
variable (s : State) (ctx : Nat) (v : Word)

@[simp] theorem completeClaim_priority : (completeClaim s ctx v).priority = s.priority := by simp [completeClaim]
@[simp] theorem completeClaim_pending : (completeClaim s ctx v).pending = s.pending := by simp [completeClaim]
@[simp] theorem completeClaim_enable : (completeClaim s ctx v).enable = s.enable := by simp [completeClaim]
@[simp] theorem completeClaim_threshold : (completeClaim s ctx v).threshold = s.threshold := by simp [completeClaim]
@[simp] theorem completeClaim_inflight : (completeClaim s ctx v).inflight = s.inflight := by simp [completeClaim]
@[simp] theorem completeClaim_cfg : (completeClaim s ctx v).cfg = s.cfg := by simp [completeClaim]
@[simp] theorem completeClaim_requests : (completeClaim s ctx v).requests = s.requests := by simp [completeClaim]
@[simp] theorem completeClaim_schedule : (completeClaim s ctx v).schedule = s.schedule := by simp [completeClaim]
@[simp] theorem completeClaim_agent : (completeClaim s ctx v).agent = s.agent := by simp [completeClaim]
@[simp] theorem completeClaim_response : (completeClaim s ctx v).response = s.response := by simp [completeClaim]

end

/-! `commitClaim` -/

section
variable (s : State) (ctx w : Nat)

@[simp] theorem commitClaim_priority : (commitClaim s ctx w).priority = s.priority := by simp [commitClaim]
@[simp] theorem commitClaim_enable : (commitClaim s ctx w).enable = s.enable := by simp [commitClaim]
@[simp] theorem commitClaim_threshold : (commitClaim s ctx w).threshold = s.threshold := by simp [commitClaim]
@[simp] theorem commitClaim_inflight : (commitClaim s ctx w).inflight = s.inflight := by simp [commitClaim]
@[simp] theorem commitClaim_cfg : (commitClaim s ctx w).cfg = s.cfg := by simp [commitClaim]
@[simp] theorem commitClaim_requests : (commitClaim s ctx w).requests = s.requests := by simp [commitClaim]
@[simp] theorem commitClaim_schedule : (commitClaim s ctx w).schedule = s.schedule := by simp [commitClaim]
@[simp] theorem commitClaim_agent : (commitClaim s ctx w).agent = s.agent := by simp [commitClaim]
@[simp] theorem commitClaim_response : (commitClaim s ctx w).response = s.response := by simp [commitClaim]

end

/-! `claimAtomic` -/

section
variable (s : State) (ctx : Nat)

@[simp] theorem claimAtomic_priority : (claimAtomic s ctx).priority = s.priority := by unfold claimAtomic; split <;> simp
@[simp] theorem claimAtomic_enable : (claimAtomic s ctx).enable = s.enable := by unfold claimAtomic; split <;> simp
@[simp] theorem claimAtomic_threshold : (claimAtomic s ctx).threshold = s.threshold := by unfold claimAtomic; split <;> simp
@[simp] theorem claimAtomic_inflight : (claimAtomic s ctx).inflight = s.inflight := by unfold claimAtomic; split <;> simp
@[simp] theorem claimAtomic_cfg : (claimAtomic s ctx).cfg = s.cfg := by unfold claimAtomic; split <;> simp
@[simp] theorem claimAtomic_requests : (claimAtomic s ctx).requests = s.requests := by unfold claimAtomic; split <;> simp
@[simp] theorem claimAtomic_schedule : (claimAtomic s ctx).schedule = s.schedule := by unfold claimAtomic; split <;> simp
@[simp] theorem claimAtomic_agent : (claimAtomic s ctx).agent = s.agent := by unfold claimAtomic; split <;> simp
@[simp] theorem claimAtomic_response : (claimAtomic s ctx).response = s.response := by unfold claimAtomic; split <;> simp

end

/-! `keepClaim` -/

section
variable (c : ClaimInFlight) (s : State)

@[simp] theorem keepClaim_priority : (keepClaim c s).priority = s.priority := rfl
@[simp] theorem keepClaim_pending : (keepClaim c s).pending = s.pending := rfl
@[simp] theorem keepClaim_enable : (keepClaim c s).enable = s.enable := rfl
@[simp] theorem keepClaim_threshold : (keepClaim c s).threshold = s.threshold := rfl
@[simp] theorem keepClaim_claim : (keepClaim c s).claim = s.claim := rfl
@[simp] theorem keepClaim_cfg : (keepClaim c s).cfg = s.cfg := rfl
@[simp] theorem keepClaim_requests : (keepClaim c s).requests = s.requests := rfl
@[simp] theorem keepClaim_schedule : (keepClaim c s).schedule = s.schedule := rfl
@[simp] theorem keepClaim_agent : (keepClaim c s).agent = s.agent := rfl
@[simp] theorem keepClaim_response : (keepClaim c s).response = s.response := rfl

end

/-! `finishClaim` -/

section
variable (c : ClaimInFlight) (w : Option Nat) (s : State)

@[simp] theorem finishClaim_priority : (finishClaim c w s).priority = s.priority := rfl
@[simp] theorem finishClaim_pending : (finishClaim c w s).pending = s.pending := rfl
@[simp] theorem finishClaim_enable : (finishClaim c w s).enable = s.enable := rfl
@[simp] theorem finishClaim_threshold : (finishClaim c w s).threshold = s.threshold := rfl
@[simp] theorem finishClaim_claim : (finishClaim c w s).claim = s.claim := rfl
@[simp] theorem finishClaim_cfg : (finishClaim c w s).cfg = s.cfg := rfl
@[simp] theorem finishClaim_requests : (finishClaim c w s).requests = s.requests := rfl
@[simp] theorem finishClaim_schedule : (finishClaim c w s).schedule = s.schedule := rfl
@[simp] theorem finishClaim_agent : (finishClaim c w s).agent = s.agent := rfl

end

/-! `startTurn` -/

section
variable (t : Turn) (rest : List Turn) (s : State)

@[simp] theorem startTurn_priority : (startTurn t rest s).priority = s.priority := rfl
@[simp] theorem startTurn_pending : (startTurn t rest s).pending = s.pending := rfl
@[simp] theorem startTurn_enable : (startTurn t rest s).enable = s.enable := rfl
@[simp] theorem startTurn_threshold : (startTurn t rest s).threshold = s.threshold := rfl
@[simp] theorem startTurn_claim : (startTurn t rest s).claim = s.claim := rfl
@[simp] theorem startTurn_inflight : (startTurn t rest s).inflight = s.inflight := rfl
@[simp] theorem startTurn_cfg : (startTurn t rest s).cfg = s.cfg := rfl
@[simp] theorem startTurn_requests : (startTurn t rest s).requests = s.requests := rfl

end

/-! What the plain updates write. -/

@[simp] theorem respond_response (r : Response) (s : State) : (respond r s).response = some r := rfl
@[simp] theorem keepClaim_inflight (c : ClaimInFlight) (s : State) :
    (keepClaim c s).inflight = putClaim c s.inflight := rfl
@[simp] theorem finishClaim_inflight (c : ClaimInFlight) (w : Option Nat) (s : State) :
    (finishClaim c w s).inflight = dropClaim c.agent s.inflight := rfl
@[simp] theorem finishClaim_response (c : ClaimInFlight) (w : Option Nat) (s : State) :
    (finishClaim c w s).response = some (claimResponse c.form w) := rfl
@[simp] theorem startTurn_schedule (t : Turn) (rest : List Turn) (s : State) :
    (startTurn t rest s).schedule = rest := rfl
@[simp] theorem startTurn_agent (t : Turn) (rest : List Turn) (s : State) :
    (startTurn t rest s).agent = t.agent := rfl
@[simp] theorem startTurn_response (t : Turn) (rest : List Turn) (s : State) :
    (startTurn t rest s).response = none := rfl

/-! What the getters read. -/

theorem getPrio_congr {s t : State} (h : t.priority = s.priority) (irq : Nat) : getPrio t irq = getPrio s irq := by
  simp only [getPrio, h]

theorem getPending_congr {s t : State} (h : t.pending = s.pending) (irq : Nat) :
    getPending t irq = getPending s irq := by
  simp only [getPending, h]

theorem getPendingWord_congr {s t : State} (h : t.pending = s.pending) (w : Nat) :
    getPendingWord t w = getPendingWord s w := by
  simp only [getPendingWord, h]

theorem enableOf_congr {s t : State} (hc : t.cfg = s.cfg) (h : t.enable = s.enable) (ctx : Nat) :
    enableOf t ctx = enableOf s ctx := by
  simp only [enableOf, h, hc]

theorem getEnableBit_congr {s t : State} (hc : t.cfg = s.cfg) (h : t.enable = s.enable) (ctx irq : Nat) :
    getEnableBit t ctx irq = getEnableBit s ctx irq := by
  simp only [getEnableBit, enableOf_congr hc h]

theorem getEnableWord_congr {s t : State} (hc : t.cfg = s.cfg) (h : t.enable = s.enable) (ctx w : Nat) :
    getEnableWord t ctx w = getEnableWord s ctx w := by
  simp only [getEnableWord, enableOf_congr hc h]

theorem getThreshold_congr {s t : State} (hc : t.cfg = s.cfg) (h : t.threshold = s.threshold) (ctx : Nat) :
    getThreshold t ctx = getThreshold s ctx := by
  simp only [getThreshold, h, hc]

theorem getClaim_congr {s t : State} (hc : t.cfg = s.cfg) (h : t.claim = s.claim) (ctx : Nat) :
    getClaim t ctx = getClaim s ctx := by
  simp only [getClaim, h, hc]

end Sys2Proof.Machine
end

