-- ==== Sys2Proof/Laws/Ops.lean ====
section
/-! SUPPORT. What each accessor, the scan and the commit do, each said once. -/

namespace Sys2Proof.Machine

/-! Reading an array after writing it. -/

theorem getPrio_setPrio (s : State) (irq j : Nat) (p : Word) :
    getPrio (setPrio s irq p) j = if j = irq ∧ irq ≤ 511 then p else getPrio s j := by
  unfold setPrio
  split
  · rename_i h
    have h' : irq ≤ 511 := h
    simp only [getPrio, maxIrq] at *
    by_cases hj : j ≤ 511
    · simp only [hj, h, ↓reduceDIte, and_true, Vector.getElem_set]
      by_cases e : irq = j <;> simp [e, eq_comm]
    · have : ¬ j = irq := by omega
      simp [hj, this]
  · rename_i h
    simp only [maxIrq] at h
    simp [h]

theorem getPending_setPendingFlag (s : State) (irq j : Nat) (e : Bool) :
    getPending (setPendingFlag s irq e) j = if j = irq ∧ irq ≤ 511 then e else getPending s j := by
  unfold setPendingFlag
  split
  · rename_i h
    simp only [getPending, maxIrq] at *
    by_cases hj : j ≤ 511
    · simp [hj, h, flag_setFlag _ _ _ j (by omega)]
    · have : ¬ j = irq := by omega
      simp [hj, this]
  · rename_i h
    simp only [maxIrq] at h
    simp [h]

theorem getPending_setPendingWord (s : State) (w j : Nat) (v : Word) :
    getPending (setPendingWord s w v) j = if j / 32 = w ∧ w < 16 then v.getLsbD (j % 32) else getPending s j := by
  unfold setPendingWord
  split
  · rename_i h
    simp only [getPending, maxIrq, numWords] at *
    by_cases hj : j ≤ 511
    · simp [hj, h, flag_setFlagWord _ _ _ j (by omega)]
    · have : ¬ j / 32 = w := by omega
      simp [hj, this]
  · rename_i h
    simp only [numWords] at h
    simp [h]

theorem enableOf_setEnableOf (s : State) (ctx c : Nat) (f : IrqSet) :
    enableOf (setEnableOf s ctx f) c = if c = ctx ∧ ctx < s.cfg.numContexts then f else enableOf s c := by
  unfold setEnableOf
  split
  · rename_i h
    by_cases hc : c < s.cfg.numContexts
    · simp only [enableOf, hc, h, ↓reduceDIte, and_true, Vector.getElem_set]
      by_cases e : ctx = c <;> simp [e, eq_comm]
    · have : ¬ c = ctx := by omega
      simp [enableOf, hc, this]
  · rename_i h
    simp [h]

theorem getEnableBit_setEnableBit (s : State) (ctx irq c j : Nat) (e : Bool) :
    getEnableBit (setEnableBit s ctx irq e) c j =
      if c = ctx ∧ j = irq ∧ ctx < s.cfg.numContexts ∧ irq ≤ 511 then e else getEnableBit s c j := by
  unfold setEnableBit
  split
  · rename_i h
    simp only [getEnableBit, maxIrq] at *
    by_cases hj : j ≤ 511
    · simp only [hj, if_true, enableOf_setEnableOf, h, and_true]
      by_cases hc : c = ctx ∧ ctx < s.cfg.numContexts
      · obtain ⟨rfl, hn⟩ := hc
        simp [hn, flag_setFlag _ _ _ j (by omega)]
      · rw [if_neg hc, if_neg (by tauto)]
    · have : ¬ j = irq := by omega
      simp [hj, this]
  · rename_i h
    simp only [maxIrq] at h
    simp [h]

theorem getEnableBit_setEnableWord (s : State) (ctx w c j : Nat) (v : Word) :
    getEnableBit (setEnableWord s ctx w v) c j =
      if c = ctx ∧ j / 32 = w ∧ ctx < s.cfg.numContexts ∧ w < 16 then v.getLsbD (j % 32)
      else getEnableBit s c j := by
  unfold setEnableWord
  split
  · rename_i h
    simp only [getEnableBit, maxIrq, numWords] at *
    by_cases hj : j ≤ 511
    · simp only [hj, if_true, enableOf_setEnableOf, h, and_true]
      by_cases hc : c = ctx ∧ ctx < s.cfg.numContexts
      · obtain ⟨rfl, hn⟩ := hc
        simp [hn, flag_setFlagWord _ _ _ j (by omega)]
      · rw [if_neg hc, if_neg (by tauto)]
    · have : ¬ j / 32 = w := by omega
      simp [hj, this]
  · rename_i h
    simp only [numWords] at h
    simp [h]

theorem getThreshold_setThreshold (s : State) (ctx c : Nat) (t : Word) :
    getThreshold (setThreshold s ctx t) c = if c = ctx ∧ ctx < s.cfg.numContexts then t else getThreshold s c := by
  unfold setThreshold
  split
  · rename_i h
    by_cases hc : c < s.cfg.numContexts
    · simp only [getThreshold, hc, h, ↓reduceDIte, and_true, Vector.getElem_set]
      by_cases e : ctx = c <;> simp [e, eq_comm]
    · have : ¬ c = ctx := by omega
      simp [getThreshold, hc, this]
  · rename_i h
    simp [h]

theorem getClaim_setClaim (s : State) (ctx c : Nat) (v : Word) :
    getClaim (setClaim s ctx v) c = if c = ctx ∧ ctx < s.cfg.numContexts then v else getClaim s c := by
  unfold setClaim
  split
  · rename_i h
    by_cases hc : c < s.cfg.numContexts
    · simp only [getClaim, hc, h, ↓reduceDIte, and_true, Vector.getElem_set]
      by_cases e : ctx = c <;> simp [e, eq_comm]
    · have : ¬ c = ctx := by omega
      simp [getClaim, hc, this]
  · rename_i h
    simp [h]

/-! A context without storage. -/

theorem getEnableBit_outOfRange (s : State) (ctx irq : Nat) (h : ¬ ctx < s.cfg.numContexts) :
    getEnableBit s ctx irq = false := by
  simp [getEnableBit, enableOf, h]

theorem setClaim_outOfRange (s : State) (ctx : Nat) (v : Word) (h : ¬ ctx < s.cfg.numContexts) :
    setClaim s ctx v = s := by
  simp [setClaim, h]

/-! The scan. -/

/-- An iteration either keeps the candidate or replaces it by a source that meets all four conditions. -/
theorem scanStep_cases (s : State) (ctx : Nat) (c : Candidate) (irq : Nat) :
    scanStep s ctx c irq = c ∨
      (scanStep s ctx c irq = ⟨irq, getPrio s irq⟩ ∧ getPending s irq = true ∧ getEnableBit s ctx irq = true ∧
        getThreshold s ctx < getPrio s irq ∧ c.prio < getPrio s irq) := by
  unfold scanStep
  split
  · rename_i h
    simp only [Bool.and_eq_true, decide_eq_true_eq] at h
    exact .inr ⟨rfl, h.1.1.1, h.1.1.2, h.1.2, h.2⟩
  · exact .inl rfl

theorem scanUpTo_succ (s : State) (ctx n : Nat) :
    scanUpTo s ctx (n + 1) = scanStep s ctx (scanUpTo s ctx n) (n + 1) := rfl

/-- The candidate's irq has been scanned. -/
theorem scanUpTo_irq_le (s : State) (ctx n : Nat) : (scanUpTo s ctx n).irq ≤ n := by
  induction n with
  | zero => simp [scanUpTo]
  | succ n ih =>
    rw [scanUpTo_succ]
    rcases scanStep_cases s ctx (scanUpTo s ctx n) (n + 1) with h | ⟨h, -⟩ <;> rw [h]
    · omega

/-- The scan reads only the four fields of the sources `1 .. n`. -/
theorem scanUpTo_congr {s t : State} {ctx n : Nat} (ht : getThreshold t ctx = getThreshold s ctx)
    (h : ∀ irq, 1 ≤ irq → irq ≤ n → getPrio t irq = getPrio s irq ∧ getPending t irq = getPending s irq ∧
      getEnableBit t ctx irq = getEnableBit s ctx irq) :
    scanUpTo t ctx n = scanUpTo s ctx n := by
  induction n with
  | zero => rfl
  | succ n ih =>
    obtain ⟨h1, h2, h3⟩ := h (n + 1) (by omega) (by omega)
    rw [scanUpTo_succ, scanUpTo_succ, ih fun irq a b => h irq a (by omega)]
    simp only [scanStep, h1, h2, h3, ht]

/-! The commit. -/

/-- What an atomic claim leaves: nothing changed, or the winner's flag cleared and the cell written. -/
theorem claimAtomic_cases (s : State) (ctx : Nat) :
    (best s ctx = 0 ∧ claimAtomic s ctx = s) ∨
      (best s ctx ≠ 0 ∧ claimAtomic s ctx = commitClaim s ctx (best s ctx)) := by
  unfold claimAtomic
  by_cases h : best s ctx = 0 <;> simp [h]

theorem getPending_commitClaim (s : State) (ctx w j : Nat) :
    getPending (commitClaim s ctx w) j = if j = w ∧ w ≤ 511 then false else getPending s j := by
  rw [← getPending_setPendingFlag, commitClaim]
  exact getPending_congr (by simp) j

theorem getClaim_commitClaim (s : State) (ctx w c : Nat) :
    getClaim (commitClaim s ctx w) c =
      if c = ctx ∧ ctx < s.cfg.numContexts then BitVec.ofNat 32 w else getClaim s c := by
  rw [commitClaim, getClaim_setClaim]
  simp only [setPendingFlag_cfg]
  congr 1
  exact getClaim_congr (by simp) (by simp) c

end Sys2Proof.Machine
end

