-- ==== Sys2Proof/Laws/Claims.lean ====
section
/-! SUPPORT. The list of claims in flight and the list of requests: finding, entering and dropping an agent's claim,
the canonical order of the list, and taking an agent's next request. -/

namespace Sys2Proof.Machine

theorem findClaim_some {a : Nat} {l : List ClaimInFlight} {c : ClaimInFlight} (h : findClaim a l = some c) :
    c ∈ l ∧ c.agent = a := by
  unfold findClaim at h
  exact ⟨List.mem_of_find?_eq_some h, by simpa using List.find?_some h⟩

theorem findClaim_none {a : Nat} {l : List ClaimInFlight} : findClaim a l = none ↔ ∀ c ∈ l, c.agent ≠ a := by
  simp [findClaim]

@[simp] theorem findClaim_putClaim_same (c : ClaimInFlight) (l : List ClaimInFlight) :
    findClaim c.agent (putClaim c l) = some c := by
  induction l with
  | nil => simp [putClaim, findClaim]
  | cons d l ih =>
    unfold putClaim
    split
    · simp [findClaim]
    · split
      · simp [findClaim]
      · rename_i h
        simp only [findClaim, List.find?_cons] at *
        simp [show (d.agent == c.agent) = false by simpa using fun e => h e.symm, ih]

theorem findClaim_putClaim_other (c : ClaimInFlight) (l : List ClaimInFlight) {a : Nat} (ha : a ≠ c.agent) :
    findClaim a (putClaim c l) = findClaim a l := by
  have hc : (c.agent == a) = false := by simpa using fun e => ha e.symm
  induction l with
  | nil => simp [putClaim, findClaim, hc]
  | cons d l ih =>
    unfold putClaim
    split
    · simp [findClaim, hc]
    · split
      · rename_i h
        simp only [findClaim, List.find?_cons] at *
        rw [h] at hc
        simp only [← h] at hc ⊢
        simp [hc]
      · simp only [findClaim, List.find?_cons] at *
        rw [ih]

@[simp] theorem findClaim_dropClaim_same (a : Nat) (l : List ClaimInFlight) : findClaim a (dropClaim a l) = none := by
  simp [findClaim, dropClaim]

theorem findClaim_dropClaim_other (l : List ClaimInFlight) {a b : Nat} (h : b ≠ a) :
    findClaim b (dropClaim a l) = findClaim b l := by
  unfold findClaim dropClaim
  rw [List.find?_filter]
  congr 1
  funext c
  by_cases e : c.agent = b
  · simp [e, h]
  · simp [e]

theorem mem_putClaim {c d : ClaimInFlight} {l : List ClaimInFlight} (h : d ∈ putClaim c l) : d = c ∨ d ∈ l := by
  induction l with
  | nil => simpa [putClaim] using h
  | cons e l ih =>
    unfold putClaim at h
    split at h
    · simpa using h
    · split at h
      · rcases List.mem_cons.mp h with h | h
        · exact .inl h
        · exact .inr (List.mem_cons_of_mem _ h)
      · rcases List.mem_cons.mp h with h | h
        · exact .inr (h ▸ List.mem_cons_self)
        · exact (ih h).imp_right (List.mem_cons_of_mem _)

theorem mem_dropClaim {d : ClaimInFlight} {a : Nat} {l : List ClaimInFlight} (h : d ∈ dropClaim a l) : d ∈ l :=
  (List.mem_filter.mp h).1

/-- Entering a claim keeps the canonical order of the list. -/
theorem putClaim_sorted (c : ClaimInFlight) {l : List ClaimInFlight}
    (h : l.Pairwise (fun c d => c.agent < d.agent)) : (putClaim c l).Pairwise (fun c d => c.agent < d.agent) := by
  induction l with
  | nil => simp [putClaim]
  | cons d l ih =>
    rw [List.pairwise_cons] at h
    unfold putClaim
    split
    · rename_i hlt
      refine List.pairwise_cons.mpr ⟨fun e he => ?_, List.pairwise_cons.mpr h⟩
      rcases List.mem_cons.mp he with rfl | he
      · exact hlt
      · exact hlt.trans (h.1 e he)
    · split
      · rename_i heq
        exact List.pairwise_cons.mpr ⟨fun e he => heq ▸ h.1 e he, h.2⟩
      · refine List.pairwise_cons.mpr ⟨fun e he => ?_, ih h.2⟩
        rcases mem_putClaim he with rfl | he
        · omega
        · exact h.1 e he

/-- Dropping a claim keeps the canonical order of the list. -/
theorem dropClaim_sorted (a : Nat) {l : List ClaimInFlight} (h : l.Pairwise (fun c d => c.agent < d.agent)) :
    (dropClaim a l).Pairwise (fun c d => c.agent < d.agent) := h.filter _

/-- Entering a claim twice is entering the second. -/
theorem putClaim_putClaim {c c' : ClaimInFlight} (h : c'.agent = c.agent) (l : List ClaimInFlight) :
    putClaim c' (putClaim c l) = putClaim c' l := by
  induction l with
  | nil => simp [putClaim, h]
  | cons d l ih =>
    simp only [putClaim, h]
    split
    · simp [putClaim, h]
    · split
      · simp [putClaim, h]
      · rename_i h1 h2
        simp [putClaim, h, h1, h2, ih]

/-- Dropping a claim that was entered beside the others gives the others. -/
theorem dropClaim_putClaim (c : ClaimInFlight) {l : List ClaimInFlight} (h : findClaim c.agent l = none) :
    dropClaim c.agent (putClaim c l) = l := by
  rw [findClaim_none] at h
  induction l with
  | nil => simp [putClaim, dropClaim]
  | cons d l ih =>
    have hd : d.agent ≠ c.agent := h d (by simp)
    have hl : l.filter (fun x => x.agent != c.agent) = l := by
      rw [List.filter_eq_self]
      exact fun x hx => by simpa using h x (by simp [hx])
    have ih' := ih fun x hx => h x (by simp [hx])
    simp only [dropClaim] at ih'
    simp only [putClaim]
    split
    · simp [dropClaim, hd, hl]
    · split
      · rename_i e
        exact absurd e.symm hd
      · simp [dropClaim, hd, ih']

/-- The fresh agent has nothing in flight. -/
theorem findClaim_freshAgent (s : State) : findClaim (freshAgent s) s.inflight = none := by
  rw [findClaim_none]
  unfold freshAgent
  generalize s.inflight = l
  have key : ∀ c ∈ l, c.agent < l.foldr (fun c n => max (c.agent + 1) n) 0 := by
    induction l with
    | nil => simp
    | cons d l ih =>
      intro c hc
      rcases List.mem_cons.mp hc with rfl | hc
      · simp only [List.foldr_cons]; omega
      · have := ih c hc
        simp only [List.foldr_cons]; omega
  exact fun c hc => Nat.ne_of_lt (key c hc)

/-- Taking an agent's next request at the head of the list. -/
@[simp] theorem takeRequest_head (a : Nat) (r : Request) (l : List Issued) :
    takeRequest a (⟨a, r⟩ :: l) = some (r, l) := by
  simp [takeRequest]

/-- A request of another agent is passed over and stays. -/
theorem takeRequest_skip {a : Nat} {i : Issued} (l : List Issued) (h : i.agent ≠ a) :
    takeRequest a (i :: l) = (takeRequest a l).map fun p => (p.1, i :: p.2) := by
  rw [takeRequest, if_neg h]
  cases takeRequest a l <;> rfl

end Sys2Proof.Machine
end

