-- ==== Sys2Proof/Laws/Decode.lean ====
section
/-! SUPPORT. The fields of a selector word and of an offset, and when a selector word matches a row of the table of
30_encoding.md R61, field by field. -/

namespace Sys2Proof

/-! The fields of a word put together by the encoder. -/

/-- The bits of a selector word: the offset below, then `w4`, then `rw`. -/
theorem getLsbD_selWord (rw w4 : Bool) (off : Offset) (i : Nat) :
    (selWord rw w4 off).getLsbD i =
      if i < 22 then off.getLsbD i else if i = 22 then w4 else (decide (i = 23) && rw) := by
  simp only [selWord, BitVec.getLsbD_append, BitVec.getLsbD_ofBool]
  by_cases h : i < 22
  · have : i < 1 + 22 := by omega
    simp [h, this]
  · by_cases h2 : i = 22
    · subst h2; simp
    · by_cases h3 : i = 23
      · subst h3; simp
      · have h4 : ¬ i < 1 + 22 := by omega
        have h5 : ¬ i - (1 + 22) = 0 := by omega
        simp only [h, h2, h3, h4, h5, if_false, decide_false, Bool.false_and]

@[simp] theorem selOff_selWord (rw w4 : Bool) (off : Offset) : selOff (selWord rw w4 off) = off := by
  refine BitVec.eq_of_getLsbD_eq fun i hi => ?_
  simp [selOff, getLsbD_selWord, hi]

@[simp] theorem selW4_selWord (rw w4 : Bool) (off : Offset) : selW4 (selWord rw w4 off) = w4 := by
  simp only [selW4, getLsbD_selWord, lt_irrefl, if_false, if_true]

@[simp] theorem selIsWrite_selWord (rw w4 : Bool) (off : Offset) : selIsWrite (selWord rw w4 off) = rw := by
  rw [selIsWrite, getLsbD_selWord, if_neg (by omega), if_neg (by omega), decide_eq_true rfl, Bool.true_and]

/-- A selector word is its three fields. -/
theorem selWord_fields (sel : Selector) : selWord (selIsWrite sel) (selW4 sel) (selOff sel) = sel := by
  refine BitVec.eq_of_getLsbD_eq fun i hi => ?_
  rw [getLsbD_selWord]
  by_cases h : i < 22
  · simp only [h, if_true, selOff, BitVec.getLsbD_extractLsb', decide_true, Bool.true_and, Nat.zero_add]
  · have : i = 22 ∨ i = 23 := by omega
    rcases this with rfl | rfl
    · rfl
    · simp only [selIsWrite]; rfl

/-! The numbers of the encoder's offsets (10_state.md R19). -/

theorem append_toNat {m n : Nat} (x : BitVec m) (y : BitVec n) : (x ++ y).toNat = x.toNat * 2 ^ n + y.toNat := by
  rw [BitVec.toNat_append, ← Nat.shiftLeft_add_eq_or_of_lt y.isLt, Nat.shiftLeft_eq]

@[simp] theorem priorityOff_toNat (irq : BitVec 10) : (priorityOff irq).toNat = 4 * irq.toNat := by
  rw [priorityOff, append_toNat, append_toNat, show (0#10).toNat = 0 from rfl, show (0#2).toNat = 0 from rfl]
  omega

@[simp] theorem pendingOff_toNat (w : BitVec 10) : (pendingOff w).toNat = 0x1000 + 4 * w.toNat := by
  rw [pendingOff, append_toNat, append_toNat, show (1#10).toNat = 1 from rfl, show (0#2).toNat = 0 from rfl]
  omega

@[simp] theorem contextOff_toNat (ctx : BitVec 9) (loc : BitVec 12) :
    (contextOff ctx loc).toNat = 0x200000 + 0x1000 * ctx.toNat + loc.toNat := by
  rw [contextOff, append_toNat, append_toNat, show (1#1).toNat = 1 from rfl]
  omega

@[simp] theorem noregOff_toNat (ctx : BitVec 9) (word : BitVec 10) :
    (noregOff ctx word).toNat = 0x200000 + 0x1000 * ctx.toNat + 4 * word.toNat := by
  rw [noregOff, contextOff_toNat, append_toNat, show (0#2).toNat = 0 from rfl]
  omega

theorem enableOff_toNat (ctx : BitVec 14) (w : BitVec 5) (h : ctx.toNat < 16320) :
    (enableOff ctx w).toNat = 0x2000 + 0x80 * ctx.toNat + 4 * w.toNat := by
  rw [enableOff, append_toNat, append_toNat, append_toNat, BitVec.toNat_add, show (0#1).toNat = 0 from rfl,
    show (0#2).toNat = 0 from rfl, show (64#14).toNat = 64 from rfl]
  omega

/-- The index fields of a selector word are those of its offset (30_encoding.md R61). -/
theorem selIndex_toNat (sel : Selector) : (selIndex sel).toNat = (selOff sel).toNat / 4 % 1024 := by
  simp only [selIndex, selOff, BitVec.extractLsb'_toNat, Nat.shiftRight_eq_div_pow]
  omega

theorem selContext_toNat (sel : Selector) : (selContext sel).toNat = (selOff sel).toNat / 4096 % 512 := by
  simp only [selContext, selOff, BitVec.extractLsb'_toNat, Nat.shiftRight_eq_div_pow]
  omega

theorem selEnableWord_toNat (sel : Selector) : (selEnableWord sel).toNat = (selOff sel).toNat / 4 % 32 := by
  simp only [selEnableWord, selOff, BitVec.extractLsb'_toNat, Nat.shiftRight_eq_div_pow]
  omega

theorem selEnableContext_toNat (sel : Selector) :
    (selEnableContext sel).toNat = ((selOff sel).toNat / 128 % 16384 + 16320) % 16384 := by
  have h : (64 : BitVec 14).toNat = 64 := rfl
  simp only [selEnableContext, selOff, BitVec.toNat_sub, BitVec.extractLsb'_toNat, Nat.shiftRight_eq_div_pow, h]
  omega

/-- The number of a selector word, by its fields (30_encoding.md R51). -/
theorem selector_toNat (sel : Selector) :
    sel.toNat = (selIsWrite sel).toNat * 2 ^ 23 + (selW4 sel).toNat * 2 ^ 22 + (selOff sel).toNat := by
  have h1 : (selIsWrite sel).toNat = sel.toNat / 2 ^ 23 % 2 := by
    rw [selIsWrite, BitVec.getLsbD, Nat.toNat_testBit]
  have h2 : (selW4 sel).toNat = sel.toNat / 2 ^ 22 % 2 := by
    rw [selW4, BitVec.getLsbD, Nat.toNat_testBit]
  have h3 : (selOff sel).toNat = sel.toNat % 2 ^ 22 := by
    simp [selOff, BitVec.extractLsb'_toNat]
  have := sel.isLt
  omega

/-! When a selector word matches a row of R61, for each of the table's four masks. -/

/-- The bits `s .. s + n - 1` of a selector word. -/
def fieldMask (s n : Nat) : Selector := (BitVec.allOnes n).setWidth 24 <<< s

theorem getLsbD_fieldMask (s n i : Nat) (hi : i < 24) :
    (fieldMask s n).getLsbD i = (decide (s ≤ i) && decide (i < s + n)) := by
  simp only [fieldMask, BitVec.getLsbD_shiftLeft, BitVec.getLsbD_setWidth, BitVec.getLsbD_allOnes, hi, decide_true,
    Bool.true_and]
  by_cases h : s ≤ i
  · have h1 : i - s < 24 := by omega
    simp only [h1, h, decide_true, Bool.true_and, show (i < s) = False by simpa using h, decide_false, Bool.not_false]
    congr 1
    simp only [eq_iff_iff]; omega
  · simp [h, Nat.lt_of_not_le h]

/-- Two selector words agree on a field exactly when the field's numbers agree. -/
theorem and_fieldMask_eq_iff (sel p : Selector) (s n : Nat) :
    sel &&& fieldMask s n = p &&& fieldMask s n ↔
      sel.toNat / 2 ^ s % 2 ^ n = p.toNat / 2 ^ s % 2 ^ n := by
  rw [← Nat.shiftRight_eq_div_pow, ← Nat.shiftRight_eq_div_pow, ← BitVec.extractLsb'_toNat,
    ← BitVec.extractLsb'_toNat, ← BitVec.toNat_eq]
  constructor
  · intro h
    refine BitVec.eq_of_getLsbD_eq fun i hi => ?_
    have := congrArg (fun v => BitVec.getLsbD v (s + i)) h
    simp only [BitVec.getLsbD_and, BitVec.getLsbD_extractLsb', hi, decide_true, Bool.true_and] at this ⊢
    by_cases h24 : s + i < 24
    · simpa [getLsbD_fieldMask s n (s + i) h24, hi] using this
    · rw [BitVec.getLsbD_of_ge _ _ (by omega), BitVec.getLsbD_of_ge _ _ (by omega)]
  · intro h
    refine BitVec.eq_of_getLsbD_eq fun i hi => ?_
    rw [BitVec.getLsbD_and, BitVec.getLsbD_and, getLsbD_fieldMask s n i hi]
    by_cases hs : s ≤ i ∧ i < s + n
    · have := congrArg (fun v => BitVec.getLsbD v (i - s)) h
      have h2 : s + (i - s) = i := by omega
      have h3 : i - s < n := by omega
      have e : sel.getLsbD i = p.getLsbD i := by simpa [BitVec.getLsbD_extractLsb', h2, h3] using this
      rw [e]
    · by_cases h1 : s ≤ i
      · simp [show ¬ i < s + n by omega]
      · simp [h1]

/-- A row whose mask is one field. -/
theorem one_field_row (sel m p : Selector) (s n : Nat) (hm : m = fieldMask s n) (hp : p &&& m = p) :
    (sel &&& m = p) ↔ (sel.toNat / 2 ^ s % 2 ^ n = p.toNat / 2 ^ s % 2 ^ n) := by
  rw [← and_fieldMask_eq_iff, ← hm, hp]

/-- A row whose mask is two fields. -/
theorem two_field_row (sel m p : Selector) (s n s' n' : Nat) (hm : m = fieldMask s n ||| fieldMask s' n')
    (hp : p &&& m = p) :
    (sel &&& m = p) ↔
      (sel.toNat / 2 ^ s % 2 ^ n = p.toNat / 2 ^ s % 2 ^ n ∧
        sel.toNat / 2 ^ s' % 2 ^ n' = p.toNat / 2 ^ s' % 2 ^ n') := by
  rw [← and_fieldMask_eq_iff, ← and_fieldMask_eq_iff]
  constructor
  · intro h
    rw [← h, hm]
    refine ⟨BitVec.eq_of_getLsbD_eq fun i hi => ?_, BitVec.eq_of_getLsbD_eq fun i hi => ?_⟩ <;>
      simp only [BitVec.getLsbD_and, BitVec.getLsbD_or] <;>
      cases sel.getLsbD i <;> cases (fieldMask s n).getLsbD i <;> cases (fieldMask s' n').getLsbD i <;> rfl
  · rintro ⟨h1, h2⟩
    rw [← hp, hm]
    refine BitVec.eq_of_getLsbD_eq fun i hi => ?_
    have e1 := congrArg (fun v => BitVec.getLsbD v i) h1
    have e2 := congrArg (fun v => BitVec.getLsbD v i) h2
    simp only [BitVec.getLsbD_and, BitVec.getLsbD_or] at e1 e2 ⊢
    revert e1 e2
    cases sel.getLsbD i <;> cases p.getLsbD i <;> cases (fieldMask s n).getLsbD i <;>
      cases (fieldMask s' n').getLsbD i <;> simp

/-- Mask `0xFFF003` of the priority and pending rows. -/
theorem rowMask_FFF003 (sel p : Selector) (hp : p &&& 0xFFF003 = p) :
    sel &&& 0xFFF003 = p ↔
      (sel.toNat / 2 ^ 12 % 2 ^ 12 = p.toNat / 2 ^ 12 % 2 ^ 12 ∧
        sel.toNat / 2 ^ 0 % 2 ^ 2 = p.toNat / 2 ^ 0 % 2 ^ 2) :=
  two_field_row sel _ p 12 12 0 2 (by decide) hp

/-- Mask `0xE00FFF` of the threshold and claim rows. -/
theorem rowMask_E00FFF (sel p : Selector) (hp : p &&& 0xE00FFF = p) :
    sel &&& 0xE00FFF = p ↔
      (sel.toNat / 2 ^ 21 % 2 ^ 3 = p.toNat / 2 ^ 21 % 2 ^ 3 ∧
        sel.toNat / 2 ^ 0 % 2 ^ 12 = p.toNat / 2 ^ 0 % 2 ^ 12) :=
  two_field_row sel _ p 21 3 0 12 (by decide) hp

/-- Mask `0xE00003` of the no-register and enable rows. -/
theorem rowMask_E00003 (sel p : Selector) (hp : p &&& 0xE00003 = p) :
    sel &&& 0xE00003 = p ↔
      (sel.toNat / 2 ^ 21 % 2 ^ 3 = p.toNat / 2 ^ 21 % 2 ^ 3 ∧
        sel.toNat / 2 ^ 0 % 2 ^ 2 = p.toNat / 2 ^ 0 % 2 ^ 2) :=
  two_field_row sel _ p 21 3 0 2 (by decide) hp

/-- Mask `0x800000` of the unserviced rows. -/
theorem rowMask_800000 (sel p : Selector) (hp : p &&& 0x800000 = p) :
    sel &&& 0x800000 = p ↔ (sel.toNat / 2 ^ 23 % 2 ^ 1 = p.toNat / 2 ^ 23 % 2 ^ 1) :=
  one_field_row sel _ p 23 1 (by decide) hp

end Sys2Proof
end

