-- ==== Sys2Proof/Laws/FrontEnd.lean ====
section
/-! SUPPORT. What the address decoder and the dispatch of the MMIO front end can do, said once. -/

namespace Sys2Proof.Machine

/-- A serviced access inside the window reaches the register of its offset. -/
theorem accessedRegister_serviced (cfg : Config) {off : Nat} (h : off < 0x400000) (h4 : off % 4 = 0) :
    accessedRegister cfg (cfg.base + off) 4 = decodeOffset off := by
  simp [accessedRegister, windowOffset, serviced, h, h4]

/-- An access outside the window or not serviced reaches no register. -/
theorem accessedRegister_none (cfg : Config) {addr width : Nat}
    (h : addr < cfg.base ∨ cfg.base + 0x400000 ≤ addr ∨ width ≠ 4 ∨ (addr - cfg.base) % 4 ≠ 0) :
    accessedRegister cfg addr width = .noRegister := by
  unfold accessedRegister windowOffset
  simp only [windowLength]
  by_cases hh : cfg.base ≤ addr ∧ addr - cfg.base < 0x400000
  · rw [if_pos hh]
    have : serviced width (addr - cfg.base) = false := by
      simp only [serviced, decide_eq_false_iff_not]
      omega
    simp [this]
  · rw [if_neg hh]

/-- The two cases of an access. -/
theorem accessedRegister_cases (cfg : Config) (addr width : Nat) :
    accessedRegister cfg addr width = .noRegister ∨
      (width = 4 ∧ ∃ off, off < 0x400000 ∧ off % 4 = 0 ∧ addr = cfg.base + off ∧
        accessedRegister cfg addr width = decodeOffset off) := by
  by_cases h : addr < cfg.base ∨ cfg.base + 0x400000 ≤ addr ∨ width ≠ 4 ∨ (addr - cfg.base) % 4 ≠ 0
  · exact .inl (accessedRegister_none cfg h)
  · obtain rfl : width = 4 := by omega
    refine .inr ⟨rfl, addr - cfg.base, by omega, by omega, by omega, ?_⟩
    have := accessedRegister_serviced cfg (off := addr - cfg.base) (by omega) (by omega)
    rwa [show cfg.base + (addr - cfg.base) = addr by omega] at this

/-- From the register back to the aligned offset it was decoded from. -/
theorem decodeOffset_inv {off : Nat} (h4 : off % 4 = 0) :
    match decodeOffset off with
    | .priority irq => irq ≤ 1023 ∧ off = 4 * irq
    | .pending w => w ≤ 1023 ∧ off = 0x1000 + 4 * w
    | .enable ctx w => ctx ≤ 16319 ∧ w ≤ 31 ∧ off = 0x2000 + 0x80 * ctx + 4 * w
    | .threshold ctx => ctx ≤ 511 ∧ off = 0x200000 + 0x1000 * ctx
    | .claim ctx => ctx ≤ 511 ∧ off = 0x200004 + 0x1000 * ctx
    | .noRegister => True := by
  generalize hd : decodeOffset off = d
  unfold decodeOffset decodeContextBlock at hd
  simp only [pendingBase, enableBase, contextBase, windowLength, contextStride, enableStride] at hd
  split at hd
  · subst hd; simp only; omega
  split at hd
  · subst hd; simp only; omega
  split at hd
  · subst hd; simp only; omega
  split at hd
  · split at hd
    · subst hd; simp only; omega
    · split at hd
      · subst hd; simp only; omega
      · subst hd; trivial
  · subst hd; trivial

/-- A read answers a value and changes nothing else, or is a claim. -/
theorem readRegister_cases (reg : Register) (s : State) :
    (∃ v, readRegister reg s = answerRead v s) ∨
      ∃ ctx, reg = .claim ctx ∧ readRegister reg s = beginClaim .mmio ctx s := by
  cases reg with
  | claim ctx => exact .inr ⟨ctx, rfl, rfl⟩
  | _ => exact .inl ⟨_, rfl⟩

/-- A write writes one of the five arrays, or nothing. -/
theorem writeRegister_cases (reg : Register) (v : Word) (s : State) :
    (∃ irq, reg = .priority irq ∧ writeRegister reg v s = answerWrite (setPrio s irq v)) ∨
      (∃ w, reg = .pending w ∧ writeRegister reg v s = answerWrite (setPendingWord s w v)) ∨
      (∃ ctx w, reg = .enable ctx w ∧ writeRegister reg v s = answerWrite (setEnableWord s ctx w v)) ∨
      (∃ ctx, reg = .threshold ctx ∧ writeRegister reg v s = answerWrite (setThreshold s ctx v)) ∨
      (∃ ctx, reg = .claim ctx ∧ writeRegister reg v s = answerWrite (setClaim s ctx 0)) ∨
      (reg = .noRegister ∧ writeRegister reg v s = answerWrite s) := by
  cases reg <;> simp [writeRegister, completeClaim]

end Sys2Proof.Machine
end

