-- ==== Sys2Proof/Laws/PerInstr.lean ====
section
/-! SUPPORT. Statements about every request as syntax, one lemma for each constructor of `Instr`. -/

namespace Sys2Proof.Laws.EncodeFits

/-- The encoder's words fit the tables of 30_encoding.md R61 and R62: an MMIO read carries no argument and a write
one, and a port operation has an assigned operation code and as many arguments as its row names. -/
def Statement (i : Instr) : Prop :=
  match encode i with
  | .mmio sel args => args.length = if selIsWrite sel then 1 else 0
  | .port op args => ∃ p, portOf op = some p ∧ args.length = portArity p

/-- A read carries no argument. -/
theorem of_read (w4 : Bool) (off : Offset) :
    ([] : List Nat).length = if selIsWrite (selWord false w4 off) then 1 else 0 := by
  simp

/-- A write carries one argument. -/
theorem of_write (w4 : Bool) (off : Offset) (n : Nat) :
    [n].length = if selIsWrite (selWord true w4 off) then 1 else 0 := by
  simp

/-- Every operation code of R62 names its row. -/
theorem portOf_portCode (p : PortOp) : portOf (portCode p) = some p := by
  cases p <;> decide

theorem priorityR (irq : BitVec 10) : Statement (.priorityR irq) := of_read _ _
theorem priorityW (irq : BitVec 10) (value : Word) : Statement (.priorityW irq value) := of_write _ _ _
theorem pendingR (w : BitVec 10) : Statement (.pendingR w) := of_read _ _
theorem pendingW (w : BitVec 10) (value : Word) : Statement (.pendingW w value) := of_write _ _ _
theorem thresholdR (ctx : BitVec 9) : Statement (.thresholdR ctx) := of_read _ _
theorem thresholdW (ctx : BitVec 9) (value : Word) : Statement (.thresholdW ctx value) := of_write _ _ _
theorem claimR (ctx : BitVec 9) : Statement (.claimR ctx) := of_read _ _
theorem claimW (ctx : BitVec 9) (value : Word) : Statement (.claimW ctx value) := of_write _ _ _
theorem noregR (ctx : BitVec 9) (word : BitVec 10) : Statement (.noregR ctx word) := of_read _ _
theorem noregW (ctx : BitVec 9) (word : BitVec 10) (value : Word) : Statement (.noregW ctx word value) := of_write _ _ _
theorem enableR (ctx : BitVec 14) (w : BitVec 5) : Statement (.enableR ctx w) := of_read _ _
theorem enableW (ctx : BitVec 14) (w : BitVec 5) (value : Word) : Statement (.enableW ctx w value) := of_write _ _ _
theorem unservicedR (w4 : Bool) (off : Offset) : Statement (.unservicedR w4 off) := of_read _ _
theorem unservicedW (w4 : Bool) (off : Offset) (value : Word) : Statement (.unservicedW w4 off value) := of_write _ _ _
theorem getPrio (irq : Nat) : Statement (.getPrio irq) := ⟨_, portOf_portCode _, rfl⟩
theorem setPrio (irq : Nat) (p : Word) : Statement (.setPrio irq p) := ⟨_, portOf_portCode _, rfl⟩
theorem getPending (irq : Nat) : Statement (.getPending irq) := ⟨_, portOf_portCode _, rfl⟩
theorem setPending (irq : Nat) : Statement (.setPending irq) := ⟨_, portOf_portCode _, rfl⟩
theorem clearPending (irq : Nat) : Statement (.clearPending irq) := ⟨_, portOf_portCode _, rfl⟩
theorem getPendingWord (w : Nat) : Statement (.getPendingWord w) := ⟨_, portOf_portCode _, rfl⟩
theorem setPendingWord (w : Nat) (v : Word) : Statement (.setPendingWord w v) := ⟨_, portOf_portCode _, rfl⟩
theorem getEnableBit (ctx irq : Nat) : Statement (.getEnableBit ctx irq) := ⟨_, portOf_portCode _, rfl⟩
theorem setEnableBit (ctx irq : Nat) (e : Bool) : Statement (.setEnableBit ctx irq e) := ⟨_, portOf_portCode _, rfl⟩
theorem getEnableWord (ctx w : Nat) : Statement (.getEnableWord ctx w) := ⟨_, portOf_portCode _, rfl⟩
theorem setEnableWord (ctx w : Nat) (v : Word) : Statement (.setEnableWord ctx w v) := ⟨_, portOf_portCode _, rfl⟩
theorem getThreshold (ctx : Nat) : Statement (.getThreshold ctx) := ⟨_, portOf_portCode _, rfl⟩
theorem setThreshold (ctx : Nat) (t : Word) : Statement (.setThreshold ctx t) := ⟨_, portOf_portCode _, rfl⟩
theorem getClaim (ctx : Nat) : Statement (.getClaim ctx) := ⟨_, portOf_portCode _, rfl⟩
theorem setClaim (ctx : Nat) (v : Word) : Statement (.setClaim ctx v) := ⟨_, portOf_portCode _, rfl⟩
theorem claimIrq (ctx : Nat) : Statement (.claimIrq ctx) := ⟨_, portOf_portCode _, rfl⟩
theorem completeIrq (ctx : Nat) (irqArgument : Word) : Statement (.completeIrq ctx irqArgument) := ⟨_, portOf_portCode _, rfl⟩
theorem addressRange : Statement .addressRange := ⟨_, portOf_portCode _, rfl⟩
theorem mmioRead (addr width : Nat) : Statement (.mmioRead addr width) := ⟨_, portOf_portCode _, rfl⟩
theorem mmioWrite (addr width value : Nat) : Statement (.mmioWrite addr width value) := ⟨_, portOf_portCode _, rfl⟩

end Sys2Proof.Laws.EncodeFits
end

