-- ==== Sys2Proof/Laws/Relaxed.lean ====
section
/-! SUPPORT. What one move of a claim in flight can do, said once, and what never changes in it. -/

namespace Sys2Proof.Machine

section
variable (c : ClaimInFlight) (irq : Nat) (r : ScanReads)

/-! The end of an iteration changes at most the best candidate. -/

/-- The source replaces the best so far only if all four conditions were read and hold. -/
theorem concludeIteration_cases :
    concludeIteration c irq r = c ∨
      ∃ p t, r.priority = some p ∧ knownThreshold c r = some t ∧ r.pending = some true ∧ r.enable = some true ∧
        t < p ∧ c.bestPrio < p ∧ concludeIteration c irq r = { c with best := irq, bestPrio := p } := by
  unfold concludeIteration
  split
  · rename_i p t h1 h2 h3 h4
    split
    · rename_i h
      exact .inr ⟨p, t, h1, h2, h3, h4, h.1, h.2, rfl⟩
    · exact .inl rfl
  · exact .inl rfl

@[simp] theorem concludeIteration_agent : (concludeIteration c irq r).agent = c.agent := by
  rcases concludeIteration_cases c irq r with h | ⟨_, _, _, _, _, _, _, _, h⟩ <;> rw [h]
@[simp] theorem concludeIteration_ctx : (concludeIteration c irq r).ctx = c.ctx := by
  rcases concludeIteration_cases c irq r with h | ⟨_, _, _, _, _, _, _, _, h⟩ <;> rw [h]
@[simp] theorem concludeIteration_form : (concludeIteration c irq r).form = c.form := by
  rcases concludeIteration_cases c irq r with h | ⟨_, _, _, _, _, _, _, _, h⟩ <;> rw [h]
@[simp] theorem concludeIteration_heldThreshold : (concludeIteration c irq r).heldThreshold = c.heldThreshold := by
  rcases concludeIteration_cases c irq r with h | ⟨_, _, _, _, _, _, _, _, h⟩ <;> rw [h]

end

/-! Reading a field. -/

/-- A field is still to be read unless all are. -/
theorem unread_fieldToRead (c : ClaimInFlight) (r : ScanReads) (f : ScanField) (h : allRead c r = false) :
    unread c r (fieldToRead c r f) = true := by
  unfold fieldToRead
  split
  · assumption
  · split
    · assumption
    · split
      · assumption
      · split
        · assumption
        · simp only [allRead, unread] at *
          cases h1 : (knownThreshold c r).isSome <;> cases h2 : r.priority.isSome <;>
            cases h3 : r.pending.isSome <;> cases h4 : r.enable.isSome <;> simp_all

/-! One move. -/

/-- After an iteration: the next one, or `None` when there was no candidate, or the commit. -/
theorem afterIteration_cases (irq : Nat) (c : ClaimInFlight) (s : State) :
    (irq < 511 ∧ afterIteration irq c s = keepClaim { c with phase := .scan (irq + 1) noReads } s) ∨
      (511 ≤ irq ∧ c.best = 0 ∧ afterIteration irq c s = finishClaim c none s) ∨
      (511 ≤ irq ∧ c.best ≠ 0 ∧ afterIteration irq c s = keepClaim { c with phase := .clear } s) := by
  unfold afterIteration
  simp only [maxIrq]
  split
  · exact .inl ⟨‹_›, rfl⟩
  · split
    · exact .inr (.inl ⟨by omega, ‹_›, rfl⟩)
    · exact .inr (.inr ⟨by omega, ‹_›, rfl⟩)

/-- A read either stays in the iteration with one field more, or ends it. -/
theorem scanRead_cases (f : ScanField) (skip : Bool) (c : ClaimInFlight) (irq : Nat) (r : ScanReads) (s : State) :
    ∃ r', r' = readField s c.ctx irq r (fieldToRead c r f) ∧
      (((allRead c r' = true ∨ ruledOut c r' = true) ∧
          scanRead f skip c irq r s = afterIteration irq (concludeIteration c irq r') s) ∨
        (allRead c r' = false ∧ scanRead f skip c irq r s = keepClaim { c with phase := .scan irq r' } s)) := by
  refine ⟨_, rfl, ?_⟩
  unfold scanRead
  simp only []
  split
  · rename_i h
    refine .inl ⟨?_, rfl⟩
    rcases Bool.or_eq_true_iff.mp h with h | h
    · exact .inl h
    · exact .inr (Bool.and_eq_true_iff.mp h).2
  · rename_i h
    refine .inr ⟨?_, rfl⟩
    cases e : allRead c (readField s c.ctx irq r (fieldToRead c r f)) <;> simp_all

/-- A scanning move keeps the claim in flight with the same agent, context and form, or ends it without a winner;
no array is written. -/
theorem advanceScan_cases (choice : ClaimChoice) (c : ClaimInFlight) (irq : Nat) (r : ScanReads) (s : State) :
    ∃ c', c'.agent = c.agent ∧ c'.ctx = c.ctx ∧ c'.form = c.form ∧
      (advanceScan choice c irq r s = keepClaim c' s ∨
        (c'.best = 0 ∧ advanceScan choice c irq r s = finishClaim c' none s)) := by
  have key : ∀ f skip, ∃ c', c'.agent = c.agent ∧ c'.ctx = c.ctx ∧ c'.form = c.form ∧
      (scanRead f skip c irq r s = keepClaim c' s ∨
        (c'.best = 0 ∧ scanRead f skip c irq r s = finishClaim c' none s)) := by
    intro f skip
    obtain ⟨r', -, ⟨-, h⟩ | ⟨-, h⟩⟩ := scanRead_cases f skip c irq r s
    · rcases afterIteration_cases irq (concludeIteration c irq r') s with ⟨-, h'⟩ | ⟨-, hb, h'⟩ | ⟨-, -, h'⟩
      · exact ⟨_, by simp, by simp, by simp, .inl (h.trans h')⟩
      · exact ⟨_, by simp, by simp, by simp, .inr ⟨hb, h.trans h'⟩⟩
      · exact ⟨_, by simp, by simp, by simp, .inl (h.trans h')⟩
    · exact ⟨{ c with phase := .scan irq r' }, rfl, rfl, rfl, .inl h⟩
  cases choice with
  | thresholdOnce =>
    by_cases hb : beforeLoop c irq r = true
    · exact ⟨{ c with heldThreshold := some (getThreshold s c.ctx) }, rfl, rfl, rfl, .inl (by simp [advanceScan, hb])⟩
    · simpa [advanceScan, hb] using key .threshold false
  | read f skip => exact key f skip

theorem advanceClaim_scan {choice : ClaimChoice} {c : ClaimInFlight} {irq : Nat} {r : ScanReads} {s : State}
    (h : c.phase = .scan irq r) : advanceClaim choice c s = advanceScan choice c irq r s := by
  simp [advanceClaim, h]

theorem advanceClaim_clear {choice : ClaimChoice} {c : ClaimInFlight} {s : State} (h : c.phase = .clear) :
    advanceClaim choice c s = keepClaim { c with phase := .record } (setPendingFlag s c.best false) := by
  simp [advanceClaim, h]

theorem advanceClaim_record {choice : ClaimChoice} {c : ClaimInFlight} {s : State} (h : c.phase = .record) :
    advanceClaim choice c s = finishClaim c (some c.best) (setClaim s c.ctx (BitVec.ofNat 32 c.best)) := by
  simp [advanceClaim, h]

/-! What no move of a claim changes. -/

section
variable (choice : ClaimChoice) (c : ClaimInFlight) (s : State)

/-- A field that neither the list of claims nor the response is, is kept by a move if the commit keeps it. -/
theorem advanceClaim_keeps {α : Type} (f : State → α) (hk : ∀ c s, f (keepClaim c s) = f s)
    (hf : ∀ c w s, f (finishClaim c w s) = f s) (hp : ∀ irq e, f (setPendingFlag s irq e) = f s)
    (hc : ∀ ctx v, f (setClaim s ctx v) = f s) : f (advanceClaim choice c s) = f s := by
  cases h : c.phase with
  | scan irq r =>
    rw [advanceClaim_scan h]
    obtain ⟨c', -, -, -, h' | ⟨-, h'⟩⟩ := advanceScan_cases choice c irq r s <;> rw [h']
    · exact hk _ _
    · exact hf _ _ _
  | clear => rw [advanceClaim_clear h, hk, hp]
  | record => rw [advanceClaim_record h, hf, hc]

@[simp] theorem advanceClaim_priority : (advanceClaim choice c s).priority = s.priority :=
  advanceClaim_keeps choice c s (·.priority) (by simp) (by simp) (by simp) (by simp)
@[simp] theorem advanceClaim_enable : (advanceClaim choice c s).enable = s.enable :=
  advanceClaim_keeps choice c s (·.enable) (by simp) (by simp) (by simp) (by simp)
@[simp] theorem advanceClaim_threshold : (advanceClaim choice c s).threshold = s.threshold :=
  advanceClaim_keeps choice c s (·.threshold) (by simp) (by simp) (by simp) (by simp)
@[simp] theorem advanceClaim_cfg : (advanceClaim choice c s).cfg = s.cfg :=
  advanceClaim_keeps choice c s (·.cfg) (by simp) (by simp) (by simp) (by simp)
@[simp] theorem advanceClaim_requests : (advanceClaim choice c s).requests = s.requests :=
  advanceClaim_keeps choice c s (·.requests) (by simp) (by simp) (by simp) (by simp)
@[simp] theorem advanceClaim_schedule : (advanceClaim choice c s).schedule = s.schedule :=
  advanceClaim_keeps choice c s (·.schedule) (by simp) (by simp) (by simp) (by simp)
@[simp] theorem advanceClaim_agent : (advanceClaim choice c s).agent = s.agent :=
  advanceClaim_keeps choice c s (·.agent) (by simp) (by simp) (by simp) (by simp)

end

/-! The start of a claim. -/

theorem beginClaim_atomic {s : State} (form : ClaimForm) (ctx : Nat) (h : s.cfg.claimAtomicity = .atomic) :
    beginClaim form ctx s = respond (claimResponse form (winnerOf (best s ctx))) (claimAtomic s ctx) := by
  simp [beginClaim, h]

theorem beginClaim_relaxed {s : State} (form : ClaimForm) (ctx : Nat) (h : s.cfg.claimAtomicity = .relaxed) :
    beginClaim form ctx s = { keepClaim (freshClaim s.agent ctx form) s with response := none } := by
  simp [beginClaim, h]

end Sys2Proof.Machine
end

