-- ==== Sys2Proof/Laws/Requests.lean ====
section
/-! SUPPORT. What a request can do, said once: it answers, writes one array through one accessor, or begins a claim;
and which requests do which. -/

namespace Sys2Proof.Machine

/-- Which requests write a priority (10_state.md R11). -/
def WritesPriority (cfg : Config) (irq : Nat) (p : Word) (i : Instr) : Prop :=
  i = .setPrio irq p ∨ (∃ k : BitVec 10, i = .priorityW k p ∧ k.toNat = irq) ∨
    ∃ v, i = .mmioWrite (cfg.base + 4 * irq) 4 v ∧ p = writeValue v

/-- Which requests write a pending word (10_state.md R12, R20). -/
def WritesPendingWord (cfg : Config) (w : Nat) (v : Word) (i : Instr) : Prop :=
  i = .setPendingWord w v ∨ (∃ k : BitVec 10, i = .pendingW k v ∧ k.toNat = w) ∨
    ∃ n, i = .mmioWrite (cfg.base + (0x1000 + 4 * w)) 4 n ∧ v = writeValue n

/-- Which requests write an enable word (10_state.md R15). -/
def WritesEnableWord (cfg : Config) (ctx w : Nat) (v : Word) (i : Instr) : Prop :=
  i = .setEnableWord ctx w v ∨ (∃ k u, i = .enableW k u v ∧ k.toNat = ctx ∧ u.toNat = w) ∨
    ∃ n, i = .mmioWrite (cfg.base + (0x2000 + 0x80 * ctx + 4 * w)) 4 n ∧ v = writeValue n

/-- Which requests write a threshold (10_state.md R17). -/
def WritesThreshold (cfg : Config) (ctx : Nat) (v : Word) (i : Instr) : Prop :=
  i = .setThreshold ctx v ∨ (∃ k : BitVec 9, i = .thresholdW k v ∧ k.toNat = ctx) ∨
    ∃ n, i = .mmioWrite (cfg.base + (0x200000 + 0x1000 * ctx)) 4 n ∧ v = writeValue n

/-- Which requests complete on a context (42_claim_complete.md R119, 43_mmio_front_end.md R143). -/
def IsCompletion (cfg : Config) (ctx : Nat) (i : Instr) : Prop :=
  (∃ v, i = .completeIrq ctx v) ∨ (∃ (k : BitVec 9) (v : Word), i = .claimW k v ∧ k.toNat = ctx) ∨
    ∃ v, i = .mmioWrite (cfg.base + (0x200004 + 0x1000 * ctx)) 4 v

/-- Everything a request issued in `s` can leave as the next state. -/
inductive Effect (s : State) (i : Instr) : State → Prop where
  | answer (r : Response) : Effect s i (respond r s)
  | priority (r : Response) (irq : Nat) (p : Word) (h : WritesPriority s.cfg irq p i) :
      Effect s i (respond r (setPrio s irq p))
  | pendingFlag (r : Response) (irq : Nat) (e : Bool)
      (h : (i = .setPending irq ∧ e = true) ∨ (i = .clearPending irq ∧ e = false)) :
      Effect s i (respond r (setPendingFlag s irq e))
  | pendingWord (r : Response) (w : Nat) (v : Word) (h : WritesPendingWord s.cfg w v i) :
      Effect s i (respond r (setPendingWord s w v))
  | enableFlag (r : Response) (ctx irq : Nat) (e : Bool) (h : i = .setEnableBit ctx irq e) :
      Effect s i (respond r (setEnableBit s ctx irq e))
  | enableWord (r : Response) (ctx w : Nat) (v : Word) (h : WritesEnableWord s.cfg ctx w v i) :
      Effect s i (respond r (setEnableWord s ctx w v))
  | threshold (r : Response) (ctx : Nat) (t : Word) (h : WritesThreshold s.cfg ctx t i) :
      Effect s i (respond r (setThreshold s ctx t))
  | claimCell (r : Response) (ctx : Nat) (v : Word)
      (h : i = .setClaim ctx v ∨ (v = 0 ∧ IsCompletion s.cfg ctx i)) :
      Effect s i (respond r (setClaim s ctx v))
  | claim (ctx : Nat) (form : ClaimForm) (h : IsClaimRequest s.cfg ctx form i) :
      Effect s i (beginClaim form ctx s)

/-- A serviced MMIO read: an answer, or a claim read. -/
theorem mmioRead_effect (addr width : Nat) (s : State) :
    Effect s (.mmioRead addr width) (readRegister (accessedRegister s.cfg addr width) s) := by
  rcases readRegister_cases (accessedRegister s.cfg addr width) s with ⟨v, h⟩ | ⟨ctx, hr, h⟩ <;> rw [h]
  · exact .answer _
  · refine .claim ctx .mmio (.inr (.inr ?_))
    rcases accessedRegister_cases s.cfg addr width with h' | ⟨rfl, off, -, ho4, rfl, h'⟩
    · rw [h'] at hr; cases hr
    · have hinv := decodeOffset_inv ho4
      rw [← h', hr] at hinv
      exact ⟨hinv.1, by rw [hinv.2], rfl⟩

/-- A serviced MMIO write: the write of the register at its address. -/
theorem mmioWrite_effect (addr width value : Nat) (s : State) :
    Effect s (.mmioWrite addr width value)
      (writeRegister (accessedRegister s.cfg addr width) (writeValue value) s) := by
  rcases accessedRegister_cases s.cfg addr width with h' | ⟨rfl, off, -, ho4, rfl, h'⟩
  · rw [h']; exact .answer _
  · have hinv := decodeOffset_inv ho4
    rw [← h'] at hinv
    rcases hr : accessedRegister s.cfg (s.cfg.base + off) 4 with irq | w | ⟨ctx, w⟩ | ctx | ctx | _ <;>
      rw [hr] at hinv
    · exact .priority _ irq _ (.inr (.inr ⟨value, by rw [hinv.2], rfl⟩))
    · exact .pendingWord _ w _ (.inr (.inr ⟨value, by rw [hinv.2], rfl⟩))
    · exact .enableWord _ ctx w _ (.inr (.inr ⟨value, by rw [hinv.2.2], rfl⟩))
    · exact .threshold _ ctx _ (.inr (.inr ⟨value, by rw [hinv.2], rfl⟩))
    · exact .claimCell _ ctx 0 (.inr ⟨rfl, .inr (.inr ⟨value, by rw [hinv.2]⟩)⟩)
    · exact .answer _

/-- What a request can do: it answers a next state, and that is one of the effects. -/
theorem exec_effect (i : Instr) (s : State) : ∃ t, exec i s = .next t ∧ Effect s i t := by
  cases i with
  | priorityW k v => exact ⟨_, rfl, .priority _ _ _ (.inr (.inl ⟨k, rfl, rfl⟩))⟩
  | pendingW k v => exact ⟨_, rfl, .pendingWord _ _ _ (.inr (.inl ⟨k, rfl, rfl⟩))⟩
  | thresholdW k v => exact ⟨_, rfl, .threshold _ _ _ (.inr (.inl ⟨k, rfl, rfl⟩))⟩
  | claimR k => exact ⟨_, rfl, .claim _ _ (.inr (.inl ⟨k, rfl, rfl, rfl⟩))⟩
  | claimW k v => exact ⟨_, rfl, .claimCell _ _ 0 (.inr ⟨rfl, .inr (.inl ⟨k, v, rfl, rfl⟩)⟩)⟩
  | enableW k w v => exact ⟨_, rfl, .enableWord _ _ _ _ (.inr (.inl ⟨k, w, rfl, rfl, rfl⟩))⟩
  | setPrio irq p => exact ⟨_, rfl, .priority _ _ _ (.inl rfl)⟩
  | setPending irq => exact ⟨_, rfl, .pendingFlag _ _ _ (.inl ⟨rfl, rfl⟩)⟩
  | clearPending irq => exact ⟨_, rfl, .pendingFlag _ _ _ (.inr ⟨rfl, rfl⟩)⟩
  | setPendingWord w v => exact ⟨_, rfl, .pendingWord _ _ _ (.inl rfl)⟩
  | setEnableBit ctx irq e => exact ⟨_, rfl, .enableFlag _ _ _ _ rfl⟩
  | setEnableWord ctx w v => exact ⟨_, rfl, .enableWord _ _ _ _ (.inl rfl)⟩
  | setThreshold ctx t => exact ⟨_, rfl, .threshold _ _ _ (.inl rfl)⟩
  | setClaim ctx v => exact ⟨_, rfl, .claimCell _ _ _ (.inl rfl)⟩
  | claimIrq ctx => exact ⟨_, rfl, .claim _ _ (.inl ⟨rfl, rfl⟩)⟩
  | completeIrq ctx v => exact ⟨_, rfl, .claimCell _ _ 0 (.inr ⟨rfl, .inl ⟨v, rfl⟩⟩)⟩
  | mmioRead addr width => exact ⟨_, rfl, mmioRead_effect addr width s⟩
  | mmioWrite addr width value => exact ⟨_, rfl, mmioWrite_effect addr width value s⟩
  | _ => exact ⟨_, rfl, .answer _⟩

/-- Every form of a claim request begins the claim. -/
theorem exec_claimRequest {s : State} {ctx : Nat} {form : ClaimForm} {i : Instr}
    (h : IsClaimRequest s.cfg ctx form i) : exec i s = .next (beginClaim form ctx s) := by
  rcases h with ⟨rfl, rfl⟩ | ⟨k, rfl, rfl, rfl⟩ | ⟨hc, rfl, rfl⟩
  · rfl
  · rfl
  · have hd : decodeOffset (0x200004 + 0x1000 * ctx) = .claim ctx := by
      unfold decodeOffset decodeContextBlock
      simp only [pendingBase, enableBase, contextBase, windowLength, contextStride]
      rw [if_neg (by omega), if_neg (by omega), if_neg (by omega), if_pos (by omega), if_neg (by omega),
        if_pos (by omega)]
      congr 1
      omega
    simp only [exec, execMmioRead]
    rw [accessedRegister_serviced _ (by omega) (by omega), hd]
    rfl

/-! Requests one after another. -/

@[simp] theorem execAll_nil (s : State) : execAll [] s = .next s := rfl

theorem execAll_cons {i : Instr} {s t : State} (l : List Instr) (h : exec i s = .next t) :
    execAll (i :: l) s = execAll l t := by
  simp [execAll, h]

end Sys2Proof.Machine
end

