-- ==== Sys2Proof/Tests/Slice0.lean ====
section
/-! SUPPORT. Tests: what the checks of WellFormed refuse, words written out from 30_encoding.md and the vectors of
95_test_vectors.md (named in each comment), single operations, and for each obligation with hypotheses a witness
that meets them. -/

namespace Sys2Proof.Tests

/- The kernel checks of the tests run one after another: side by side each takes a thread of its own. -/
set_option Elab.async false

open Sys2Proof.Machine

/-! WellFormed refuses an ill-formed term of each kind. -/

theorem test_wf_enable_context_16320 : (Instr.enableR 16320 0).wf = false := by decide
theorem test_wf_enable_write_context_16383 : (Instr.enableW 16383 31 0).wf = false := by decide
theorem test_wf_noreg_threshold_word : (Instr.noregR 0 0).wf = false := by decide
theorem test_wf_noreg_claim_word : (Instr.noregW 511 1 0).wf = false := by decide
theorem test_wf_unserviced_read_serviced : (Instr.unservicedR true 0x200004).wf = false := by decide
theorem test_wf_unserviced_write_serviced : (Instr.unservicedW true 0x00001C 9).wf = false := by decide

/-! Selector words: `rw`, `w4`, `off` (30_encoding.md R51), written out in bits; 95_test_vectors.md 2.2. -/

/-- `W32 0x00001C, 9`. -/
theorem test_word_priorityW : decode (.mmio 0b110000000000000000011100 [9]) = .ok (.priorityW 7 9) := by decide
/-- `R32 0x000FFC`. -/
theorem test_word_priorityR : decode (.mmio 0b010000000000111111111100 []) = .ok (.priorityR 1023) := by decide
/-- `R32 0x001000`. -/
theorem test_word_pendingR : decode (.mmio 0b010000000001000000000000 []) = .ok (.pendingR 0) := by decide
/-- `W32 0x00103C, v`. -/
theorem test_word_pendingW : decode (.mmio 0b110000000001000000111100 [1]) = .ok (.pendingW 15 1) := by decide
/-- `W32 0x002104, v`. -/
theorem test_word_enableW : decode (.mmio 0b110000000010000100000100 [2]) = .ok (.enableW 2 1 2) := by decide
/-- `R32 0x1FFFFC`. -/
theorem test_word_enableR : decode (.mmio 0b010111111111111111111100 []) = .ok (.enableR 16319 31) := by decide
/-- `W32 0x201000, v`. -/
theorem test_word_thresholdW : decode (.mmio 0b111000000001000000000000 [8]) = .ok (.thresholdW 1 8) := by decide
/-- `R32 0x202000` (P3 line 17). -/
theorem test_word_thresholdR : decode (.mmio 0b011000000010000000000000 []) = .ok (.thresholdR 2) := by decide
/-- `R32 0x200004`. -/
theorem test_word_claimR : decode (.mmio 0b011000000000000000000100 []) = .ok (.claimR 0) := by decide
/-- `W32 0x3FF004, v`. -/
theorem test_word_claimW : decode (.mmio 0b111111111111000000000100 [7]) = .ok (.claimW 511 7) := by decide
/-- `R32 0x200008`. -/
theorem test_word_noregR : decode (.mmio 0b011000000000000000001000 []) = .ok (.noregR 0 2) := by decide
/-- `W32 0x200008, 1` (P4 line 13). -/
theorem test_word_noregW : decode (.mmio 0b111000000000000000001000 [1]) = .ok (.noregW 0 2 1) := by decide
/-- `R16 0x200004`. -/
theorem test_word_unservicedR :
    decode (.mmio 0b001000000000000000000100 []) = .ok (.unservicedR false 0x200004) := by decide
/-- `W32 0x200002, v`. -/
theorem test_word_unservicedW :
    decode (.mmio 0b111000000000000000000010 [3]) = .ok (.unservicedW true 0x200002 3) := by decide
/-- `W64 0x200000, v`. -/
theorem test_word_unservicedW_wide :
    decode (.mmio 0b101000000000000000000000 [3]) = .ok (.unservicedW false 0x200000 3) := by decide

/-! Operation codes of 30_encoding.md R62 with their arguments in its order. -/

theorem test_op_getPrio : decode (.port 0b00000 [7]) = .ok (.getPrio 7) := by decide
theorem test_op_setPrio : decode (.port 0b00001 [7, 9]) = .ok (.setPrio 7 9) := by decide
theorem test_op_getPending : decode (.port 0b00010 [7]) = .ok (.getPending 7) := by decide
theorem test_op_setPending : decode (.port 0b00011 [7]) = .ok (.setPending 7) := by decide
theorem test_op_clearPending : decode (.port 0b00100 [7]) = .ok (.clearPending 7) := by decide
theorem test_op_getPendingWord : decode (.port 0b00101 [15]) = .ok (.getPendingWord 15) := by decide
theorem test_op_setPendingWord : decode (.port 0b00110 [15, 8]) = .ok (.setPendingWord 15 8) := by decide
theorem test_op_getEnableBit : decode (.port 0b00111 [3, 40]) = .ok (.getEnableBit 3 40) := by decide
theorem test_op_setEnableBit : decode (.port 0b01000 [3, 40, 1]) = .ok (.setEnableBit 3 40 true) := by decide
theorem test_op_getEnableWord : decode (.port 0b01001 [3, 1]) = .ok (.getEnableWord 3 1) := by decide
theorem test_op_setEnableWord : decode (.port 0b01010 [3, 1, 8]) = .ok (.setEnableWord 3 1 8) := by decide
theorem test_op_getThreshold : decode (.port 0b01011 [3]) = .ok (.getThreshold 3) := by decide
theorem test_op_setThreshold : decode (.port 0b01100 [3, 9]) = .ok (.setThreshold 3 9) := by decide
theorem test_op_getClaim : decode (.port 0b01101 [3]) = .ok (.getClaim 3) := by decide
theorem test_op_setClaim : decode (.port 0b01110 [3, 9]) = .ok (.setClaim 3 9) := by decide
theorem test_op_claimIrq : decode (.port 0b01111 [3]) = .ok (.claimIrq 3) := by decide
theorem test_op_completeIrq : decode (.port 0b10000 [3, 9]) = .ok (.completeIrq 3 9) := by decide
theorem test_op_addressRange : decode (.port 0b10001 []) = .ok .addressRange := by decide
theorem test_op_mmioRead : decode (.port 0b10010 [0x0C000000, 4]) = .ok (.mmioRead 0x0C000000 4) := by decide
theorem test_op_mmioWrite : decode (.port 0b10011 [0x0C000000, 8, 9]) = .ok (.mmioWrite 0x0C000000 8 9) := by decide

/-! What the decoder rejects, by name. -/

theorem test_op_unassigned : decode (.port 0b10100 []) = .error .unassignedOp := by decide
theorem test_read_with_value : decode (.mmio 0x400000 [1]) = .error .wrongArgumentCount := by decide
theorem test_argument_33_bits : decode (.port 0b00001 [7, 2 ^ 32]) = .error .argumentNotU32 := by decide
theorem test_argument_no_bool : decode (.port 0b01000 [0, 7, 2]) = .error .argumentNotBool := by decide

/-! Table words. -/

theorem test_table_claimR : decodeTableWord 24 0x600004 = some (.claimR 0) := by decide
theorem test_table_enableW : decodeTableWord 24 0xC02104 = some (.enableW 2 1 0) := by decide
theorem test_table_setEnableBit : decodeTableWord 8 0b01000 = some (.setEnableBit 0 0 false) := by decide
theorem test_table_unassigned : decodeTableWord 8 0b11111 = none := by decide

/-! The address decoder at the edges of its regions (95_test_vectors.md 2.1). -/

theorem test_decode_priority_edges : decodeOffset 0x0007FC = .priority 511 ∧ decodeOffset 0x000FFC = .priority 1023 := by
  decide
theorem test_decode_pending_edges : decodeOffset 0x001000 = .pending 0 ∧ decodeOffset 0x001FFC = .pending 1023 := by
  decide
theorem test_decode_enable_edges :
    decodeOffset 0x002000 = .enable 0 0 ∧ decodeOffset 0x0027BC = .enable 15 15 ∧
      decodeOffset 0x1FFFFC = .enable 16319 31 := by decide
theorem test_decode_context_edges :
    decodeOffset 0x200000 = .threshold 0 ∧ decodeOffset 0x20F004 = .claim 15 ∧ decodeOffset 0x3FF004 = .claim 511 := by
  decide
theorem test_decode_no_register :
    decodeOffset 0x200008 = .noRegister ∧ decodeOffset 0x3FFFFC = .noRegister ∧ decodeOffset 0x400000 = .noRegister ∧
      decodeOffset 0x200005 = .noRegister := by decide
theorem test_decode_misaligned : decodeOffset 0x00001D = .priority 7 ∧ decodeOffset 0x002083 = .enable 1 0 := by decide

/-! Single operations. -/

/-- What a request answers. -/
def answer (i : Instr) (s : State) : Option Response :=
  match exec i s with
  | .next t => t.response
  | _ => none

/-- The state a request leaves. -/
def after (i : Instr) (s : State) : State :=
  match exec i s with
  | .next t => t
  | _ => s

/-- The setup of A2: irq 9 of priority 6, pending, enabled for context 0, whose threshold is 5. -/
def oneSource : State :=
  { State.reset with
    priority := State.reset.priority.set 9 6
    pending := 0x200
    enable := State.reset.enable.set 0 0x200
    threshold := State.reset.threshold.set 0 5 }

/-- P2 after its line 5: irqs 2 and 3 of priority 10, pending, enabled for context 0, whose threshold is 5. -/
def twoSources : State :=
  { State.reset with
    priority := (State.reset.priority.set 2 10).set 3 10
    pending := 0xC
    enable := State.reset.enable.set 0 0xC
    threshold := State.reset.threshold.set 0 5 }

/-- The same machine in the relaxed variant. -/
def relaxed (s : State) : State := { s with cfg := { s.cfg with claimAtomicity := .relaxed } }

/-- A machine with `MAX_HARTS = 1`. -/
def oneHart : State := State.initial ⟨1, 0, .atomic, usualContextMap 1⟩

/-- A machine with `MAX_HARTS = 0`. -/
def noHart : State := State.initial ⟨0, 0, .atomic, []⟩

/-- V2. -/
theorem test_setPrio_irq0 :
    answer (.getPrio 0) (after (.setPrio 0 0xFFFFFFFF) State.reset) = some (.word 0xFFFFFFFF) := by decide +kernel
/-- V3. -/
theorem test_setPrio_512_dropped :
    answer (.getPrio 512) (after (.setPrio 512 5) State.reset) = some (.word 0) ∧
      answer (.getPrio 511) (after (.setPrio 512 5) State.reset) = some (.word 0) := by decide +kernel
/-- S1. -/
theorem test_setPending_511 :
    answer (.getPending 511) (after (.setPending 511) State.reset) = some (.flag true) := by decide +kernel
/-- V7. -/
theorem test_setPending_512_dropped :
    answer (.getPending 512) (after (.setPending 512) State.reset) = some (.flag false) := by decide +kernel
/-- S1. -/
theorem test_clearPending_300 :
    answer (.getPending 300) (after (.clearPending 300) (after (.setPending 300) State.reset)) = some (.flag false) := by
  decide +kernel
/-- V5. -/
theorem test_getPendingWord_irq40 :
    answer (.getPendingWord 1) (after (.setPending 40) State.reset) = some (.word 0x100) := by decide +kernel
/-- V8: a word write replaces. -/
theorem test_setPendingWord_replaces :
    answer (.getPendingWord 0) (after (.setPendingWord 0 0x80) (after (.setPendingWord 0 0xFFFFFFFF) State.reset)) =
      some (.word 0x80) := by decide +kernel
/-- V11. -/
theorem test_setEnableWord_511 :
    answer (.getEnableBit 3 511) (after (.setEnableWord 3 15 0x80000000) State.reset) = some (.flag true) ∧
      answer (.getEnableBit 3 510) (after (.setEnableWord 3 15 0x80000000) State.reset) = some (.flag false) := by
  decide +kernel
/-- V12. -/
theorem test_setEnableBit_clears_one :
    answer (.getEnableWord 0 0) (after (.setEnableBit 0 5 false) (after (.setEnableWord 0 0 0xFFFFFFFF) State.reset)) =
      some (.word 0xFFFFFFDF) := by decide +kernel
/-- V13. -/
theorem test_setEnableBit_context16_dropped :
    answer (.getEnableBit 16 7) (after (.setEnableBit 16 7 true) State.reset) = some (.flag false) := by decide +kernel
/-- V14. -/
theorem test_setThreshold_15 :
    answer (.getThreshold 15) (after (.setThreshold 15 0xFFFFFFFF) State.reset) = some (.word 0xFFFFFFFF) ∧
      answer (.getThreshold 14) (after (.setThreshold 15 0xFFFFFFFF) State.reset) = some (.word 0) := by decide +kernel
/-- V18: with `MAX_HARTS = 1`, context 2 has no storage and context 1 has. -/
theorem test_setThreshold_one_hart :
    answer (.getThreshold 2) (after (.setThreshold 2 9) oneHart) = some (.word 0) ∧
      answer (.getThreshold 1) (after (.setThreshold 1 9) oneHart) = some (.word 9) := by decide +kernel
/-- V19: with `MAX_HARTS = 0` there is no context. -/
theorem test_no_hart :
    answer (.getThreshold 0) (after (.setThreshold 0 9) noHart) = some (.word 0) ∧
      answer (.getPrio 7) (after (.setPrio 7 9) noHart) = some (.word 9) := by decide +kernel
/-- V17. -/
theorem test_setClaim_raw :
    answer (.getClaim 0) (after (.setClaim 0 0x12345678) State.reset) = some (.word 0x12345678) := by decide +kernel

/-- BEST in A2. -/
theorem best_oneSource : best oneSource 0 = 9 := by decide +kernel
/-- BEST in P2, the lower of the two tied sources. -/
theorem best_twoSources : best twoSources 0 = 2 := by decide +kernel
/-- BEST after reset. -/
theorem best_reset : best State.reset 0 = 0 := by decide +kernel

/-- A2 and K1. -/
theorem test_claimIrq_A2 : answer (.claimIrq 0) oneSource = some (.claim (some 9)) := by decide +kernel
/-- K1. -/
theorem test_claimIrq_clears_and_records :
    getPending (after (.claimIrq 0) oneSource) 9 = false ∧ getClaim (after (.claimIrq 0) oneSource) 0 = 9 := by
  decide +kernel
/-- A1: a priority equal to the threshold is not above it. -/
theorem test_threshold_strict : best (setThreshold oneSource 0 6) 0 = 0 := by decide +kernel
/-- A3: the comparison is unsigned. -/
theorem test_priority_unsigned :
    best { State.reset with
      priority := (State.reset.priority.set 10 0x7FFFFFFF).set 20 0x80000000
      pending := 0x100400
      enable := State.reset.enable.set 0 0x100400 } 0 = 20 := by decide +kernel
/-- A7: the last irq is scanned. -/
theorem test_scan_reaches_511 :
    best { State.reset with
      priority := State.reset.priority.set 511 1
      pending := BitVec.twoPow 512 511
      enable := State.reset.enable.set 0 (BitVec.twoPow 512 511) } 0 = 511 := by decide +kernel
/-- A11: irq 0 is not. -/
theorem test_scan_skips_irq0 :
    best { State.reset with
      priority := State.reset.priority.set 0 0xFFFFFFFF
      pending := 1
      enable := State.reset.enable.set 0 1 } 0 = 0 := by decide +kernel
/-- K7 and K8: the argument is not looked at, the context is. -/
theorem test_completeIrq :
    getClaim (after (.completeIrq 0 400) (setClaim State.reset 0 9)) 0 = 0 ∧
      getClaim (after (.completeIrq 1 9) (setClaim State.reset 0 9)) 0 = 9 := by decide +kernel
/-- The observation of 60_exceptions.md R158, in A2 and after reset. -/
theorem test_eip : eip oneSource 0 = true ∧ eip State.reset 0 = false := by decide +kernel

/-- M18. -/
theorem test_addressRange : answer .addressRange State.reset = some (.range 0x0C000000 0x400000) := by decide +kernel
/-- M10. -/
theorem test_mmioRead_claims : answer (.mmioRead 0x0C200004 4) oneSource = some (.value 9 .success) := by decide +kernel
/-- M11: a 2-byte and a misaligned read perform no claim. -/
theorem test_mmioRead_unserviced :
    after (.mmioRead 0x0C200004 2) oneSource = { oneSource with response := some (.value 0 .success) } ∧
      after (.mmioRead 0x0C200006 4) oneSource = { oneSource with response := some (.value 0 .success) } := ⟨rfl, rfl⟩
/-- M17: a 33-bit value is truncated. -/
theorem test_mmioWrite_truncates :
    answer (.mmioRead 0x0C00001C 4) (after (.mmioWrite 0x0C00001C 4 0x100000009) State.reset) =
      some (.value 9 .success) := by decide +kernel
/-- M16: below the window. -/
theorem test_mmioWrite_below_base :
    after (.mmioWrite 0x0BFFFFFC 4 1) State.reset = { State.reset with response := some (.ack .success) } := rfl
/-- P4 lines 15 and 16: just above it, with no wrap. -/
theorem test_mmio_above_window :
    answer (.mmioRead 0x0C400000 4) State.reset = some (.value 0 .success) ∧
      getPrio (after (.mmioWrite 0x0C400000 4 1) State.reset) 0 = 0 := by decide +kernel
/-- M1. -/
theorem test_priority_rows :
    answer (.priorityR 7) (after (.priorityW 7 9) State.reset) = some (.value 9 .success) := by decide +kernel
/-- M2. -/
theorem test_priority_rows_512 :
    answer (.priorityR 512) (after (.priorityW 512 5) State.reset) = some (.value 0 .success) := by decide +kernel
/-- S6. -/
theorem test_pending_rows :
    answer (.pendingR 1) (after (.pendingW 1 0x12345678) State.reset) = some (.value 0x12345678 .success) := by
  decide +kernel
/-- M5. -/
theorem test_pending_rows_16 :
    answer (.pendingR 16) (after (.pendingW 16 0xFFFFFFFF) State.reset) = some (.value 0 .success) := by decide +kernel
/-- M6. -/
theorem test_enable_rows :
    answer (.enableR 1 0) (after (.enableW 1 0 0x80) State.reset) = some (.value 0x80 .success) ∧
      answer (.enableR 0 0) (after (.enableW 1 0 0x80) State.reset) = some (.value 0 .success) := by decide +kernel
/-- M7 and M8. -/
theorem test_enable_rows_out_of_range :
    answer (.enableR 0 16) (after (.enableW 0 16 0xFFFFFFFF) State.reset) = some (.value 0 .success) ∧
      answer (.enableR 16 0) (after (.enableW 16 0 0xFFFFFFFF) State.reset) = some (.value 0 .success) := by
  decide +kernel
/-- M9. -/
theorem test_threshold_rows :
    answer (.thresholdR 15) (after (.thresholdW 15 0x55) State.reset) = some (.value 0x55 .success) ∧
      answer (.thresholdR 16) (after (.thresholdW 16 7) State.reset) = some (.value 0 .success) := by decide +kernel
/-- P1 lines 8 and 9. -/
theorem test_claimR :
    answer (.claimR 0) oneSource = some (.value 9 .success) ∧ getClaim (after (.claimR 0) oneSource) 0 = 9 := by
  decide +kernel
/-- P4 line 11. -/
theorem test_claimR_context16 : answer (.claimR 16) oneSource = some (.value 0 .success) := by decide +kernel
/-- M12. -/
theorem test_claimW : getClaim (after (.claimW 0 1234) (setClaim State.reset 0 9)) 0 = 0 := by decide +kernel
/-- M14. -/
theorem test_noreg_rows :
    after (.noregW 0 2 1) oneSource = { oneSource with response := some (.ack .success) } ∧
      after (.noregR 0 1023) oneSource = { oneSource with response := some (.value 0 .success) } := ⟨rfl, rfl⟩
/-- M13. -/
theorem test_unserviced_rows :
    after (.unservicedW false 0x200004 9) oneSource = { oneSource with response := some (.ack .success) } ∧
      after (.unservicedR false 0x200004) oneSource = { oneSource with response := some (.value 0 .success) } :=
  ⟨rfl, rfl⟩

/-! The relaxed variant (42_claim_complete.md R115 to R117). -/

/-- Agent 1's claim on context 0, its scan over with winner 9. -/
def commitClaim0 : ClaimInFlight := ⟨1, 0, .port, .clear, 9, 6, none⟩

/-- Agent 2's claim on context 1, its scan over with the same winner. -/
def commitClaim1 : ClaimInFlight := ⟨2, 1, .mmio, .clear, 9, 6, none⟩

/-- Agent 1's claim in the iteration for irq 9, with three of the four fields read. -/
def scanningClaim : ClaimInFlight := ⟨1, 0, .port, .scan 9 ⟨some 5, some 6, some true, none⟩, 0, 0, none⟩

/-- A relaxed machine with `oneSource`'s registers and the given claims in flight. -/
def withClaims (l : List ClaimInFlight) : State := { relaxed oneSource with inflight := l }

/-- A turn that reads the priority. -/
def turn (agent : Nat) : Turn := ⟨agent, .read .priority false⟩

/-- The fourth read ends the iteration, and the source becomes the best so far. -/
theorem test_relaxed_iteration :
    (advanceClaim (.read .enable false) scanningClaim (withClaims [scanningClaim])).inflight =
      [⟨1, 0, .port, .scan 10 noReads, 9, 6, none⟩] := by decide +kernel
/-- The rest of an iteration may be skipped once a condition is known to be false. -/
theorem test_relaxed_skip :
    (advanceClaim (.read .priority true) (freshClaim 1 0 .port) (withClaims [freshClaim 1 0 .port])).inflight =
      [⟨1, 0, .port, .scan 2 noReads, 0, 0, none⟩] := by decide +kernel
/-- The threshold may be read once before the loop. -/
theorem test_relaxed_threshold_once :
    (advanceClaim .thresholdOnce (freshClaim 1 0 .port) (withClaims [freshClaim 1 0 .port])).inflight =
      [⟨1, 0, .port, .scan 1 noReads, 0, 0, some 5⟩] := by decide +kernel
/-- Step 6 of P5: the commit clears the pending flag and writes no claim cell yet. -/
theorem test_relaxed_commit_clears :
    getPending (advanceClaim .thresholdOnce commitClaim0 (withClaims [commitClaim0])) 9 = false ∧
      getClaim (advanceClaim .thresholdOnce commitClaim0 (withClaims [commitClaim0])) 0 = 0 := by decide +kernel
/-- Step 9 of P5: a claim made by an MMIO read answers the number. -/
theorem test_relaxed_commit_records :
    (advanceClaim .thresholdOnce { commitClaim1 with phase := .record } (withClaims [])).response =
        some (.value 9 .success) ∧
      getClaim (advanceClaim .thresholdOnce { commitClaim1 with phase := .record } (withClaims [])) 1 = 9 := by
  decide +kernel

/-! A presented table word runs next. -/

/-- What a step answers. -/
def stepAnswer (s : State) : Option Response :=
  match step s with
  | .next t => t.response
  | _ => none

theorem test_step_claimR : stepAnswer (oneSource.withFetchWord 24 0x600004) = some (.value 9 .success) := by
  decide +kernel
theorem test_step_setPending : stepAnswer (State.reset.withFetchWord 8 0b00011) = some .done := by decide +kernel
theorem test_step_refuses_unassigned :
    step (State.reset.withFetchWord 8 0b11111) = .refused (.undecodable .unassignedOp) := rfl

/-! Construction. -/

theorem test_construct_refuses :
    State.construct 9 0 .atomic [] = .refused .tooManyHarts ∧
      State.construct 0 2 .atomic [] = .refused .misalignedBase ∧
      State.construct 1 0 .atomic [] = .refused .badContextMap ∧
      State.construct 0 0 .relaxed [] = .next (State.initial ⟨0, 0, .relaxed, []⟩) := ⟨rfl, rfl, rfl, rfl⟩

/-! Witnesses: for each obligation with hypotheses, a state and operands that meet all of them, at the edges of the
ranges the clauses name. -/

theorem witness_DecodeEncodeRoundTrip :
    (Instr.enableW 16319 31 0xFFFFFFFF).wf = true ∧ (Instr.noregR 511 2).wf = true ∧
      (Instr.noregW 0 1023 0).wf = true ∧ (Instr.unservicedR false 0x200004).wf = true ∧
      (Instr.unservicedW true 0x200005 0).wf = true ∧ (Instr.setEnableBit 16 512 true).wf = true ∧
      (Instr.mmioWrite 0 3 (2 ^ 40)).wf = true := by decide

theorem witness_EverySelectorWordDecodes : selIsWrite 0x600004 = false ∧ selIsWrite 0xC0001C = true := by decide

theorem witness_SelectorRowsAgreeWithMmioAccesses :
    (selW4 0x600004 = decide (4 = 4) ∧ selIsWrite 0x600004 = false ∧ decode (.mmio 0x600004 []) = .ok (.claimR 0)) ∧
      (selW4 0xA00000 = decide (8 = 4) ∧ selIsWrite 0xA00000 = true ∧
        decode (.mmio 0xA00000 [3]) = .ok (.unservicedW false 0x200000 3)) := by decide

theorem witness_RegisterOffsetsDecodeToTheirRegister :
    decodeOffset (4 * 0) = .priority 0 ∧ decodeOffset (4 * 1023) = .priority 1023 ∧
      decodeOffset (0x1000 + 4 * 0) = .pending 0 ∧ decodeOffset (0x1000 + 4 * 1023) = .pending 1023 ∧
      decodeOffset (0x2000 + 0x80 * 0 + 4 * 31) = .enable 0 31 ∧
      decodeOffset (0x2000 + 0x80 * 16319 + 4 * 31) = .enable 16319 31 ∧
      decodeOffset (0x200000 + 0x1000 * 511) = .threshold 511 ∧
      decodeOffset (0x200000 + 0x1000 * 511 + 4) = .claim 511 := by decide

theorem witness_NoRegisterArisesInExactlyTwoWays :
    decodeOffset 0x200008 = .noRegister ∧ decodeOffset 0x3FFFFC = .noRegister ∧ decodeOffset 0x400000 = .noRegister := by
  decide

/-- A step that runs CLAIM.R of agent 3, with another agent's request before it in the list. -/
def presented : State :=
  { oneSource with
    requests := [⟨4, encode (.getPrio 9)⟩, ⟨3, encode (.claimR 0)⟩]
    schedule := [turn 3, turn 4] }

theorem witness_StepRunsTheDecodedRequest :
    presented.schedule = turn 3 :: [turn 4] ∧ findClaim 3 presented.inflight = none ∧
      takeRequest 3 presented.requests = some (encode (.claimR 0), [⟨4, encode (.getPrio 9)⟩]) ∧
      decode (encode (.claimR 0)) = .ok (.claimR 0) := by decide

theorem witness_PresentedTableWordRunsNext :
    decodeTableWord 24 0xFFFFFF = some (.unservicedW true 0x3FFFFF 0) ∧ decodeTableWord 8 0b01111 = some (.claimIrq 0) :=
  by decide

theorem witness_AgentsKeepProgramOrder :
    takeRequest 3 presented.requests = some (encode (.claimR 0), [⟨4, encode (.getPrio 9)⟩]) ∧
      takeRequest 5 presented.requests = none ∧ (∀ i ∈ presented.requests, i.agent ≠ 5) := by decide

theorem witness_BusyAgentFinishesBeforeItsNextRequest :
    { withClaims [scanningClaim] with schedule := [turn 1] }.schedule = turn 1 :: [] ∧
      findClaim 1 { withClaims [scanningClaim] with schedule := [turn 1] }.inflight = some scanningClaim := by decide

theorem witness_IdleMovesChangeNoRegister :
    oneSource.schedule = [] ∧ { presented with schedule := [turn 5] }.schedule = turn 5 :: [] ∧
      findClaim 5 { presented with schedule := [turn 5] }.inflight = none ∧
      (∀ i ∈ { presented with schedule := [turn 5] }.requests, i.agent ≠ 5) := by decide

theorem witness_EveryRequestCompletesWithoutFailure :
    step (State.reset.withFetchWord 8 0b11111) = .refused (.undecodable .unassignedOp) ∧
      (withClaims [scanningClaim]).response = none := ⟨rfl, rfl⟩

theorem witness_PriorityAccessors : ¬ (512 < 512) ∧ 511 < 512 := by decide

theorem witness_EnableFlagAccessors :
    (15 < State.reset.cfg.numContexts ∧ 511 ≤ 511) ∧ ¬ (16 < State.reset.cfg.numContexts ∧ 511 ≤ 511) ∧
      ¬ (15 < State.reset.cfg.numContexts ∧ 512 ≤ 511) := by decide

theorem witness_EnableWordAccessors :
    (15 < State.reset.cfg.numContexts ∧ 15 < 16) ∧ ¬ (15 < State.reset.cfg.numContexts ∧ 16 < 16) ∧
      ¬ (16 < State.reset.cfg.numContexts ∧ 15 < 16) := by decide

theorem witness_ThresholdAccessors :
    15 < oneSource.cfg.numContexts ∧ ¬ 16 < oneSource.cfg.numContexts ∧ 1 ≤ (getPrio oneSource 9).toNat ∧
      getPending oneSource 9 = true ∧ getEnableBit oneSource 0 9 = true := by decide +kernel

theorem witness_ClaimCellAccessors : 15 < State.reset.cfg.numContexts ∧ ¬ 16 < State.reset.cfg.numContexts := by decide

theorem witness_OutOfRangeIndexIsBenign :
    indexOutOfRange Config.default (.getPrio 512) ∧ indexOutOfRange Config.default (.setPrio 512 5) ∧
      indexOutOfRange Config.default (.getPending 512) ∧ indexOutOfRange Config.default (.setPending 512) ∧
      indexOutOfRange Config.default (.clearPending 512) ∧ indexOutOfRange Config.default (.getPendingWord 16) ∧
      indexOutOfRange Config.default (.setPendingWord 16 1) ∧ indexOutOfRange Config.default (.getEnableBit 16 0) ∧
      indexOutOfRange Config.default (.setEnableBit 0 512 true) ∧ indexOutOfRange Config.default (.getEnableWord 0 16) ∧
      indexOutOfRange Config.default (.setEnableWord 16 0 1) ∧ indexOutOfRange Config.default (.getThreshold 16) ∧
      indexOutOfRange Config.default (.setThreshold 16 1) ∧ indexOutOfRange Config.default (.getClaim 16) ∧
      indexOutOfRange Config.default (.setClaim 16 1) := by
  unfold indexOutOfRange
  decide

theorem witness_BitViewAndWordViewCohere : 511 ≤ 511 ∧ 15 < 16 ∧ 15 < State.reset.cfg.numContexts := by decide

/-- Irq 9 is eligible in A2. -/
theorem eligible_oneSource : EligibleFor oneSource 0 9 := by
  unfold EligibleFor
  decide +kernel

/-- Whatever is eligible in P2 is irq 2 or irq 3. -/
theorem eligible_twoSources {irq : Nat} (h : EligibleFor twoSources 0 irq) : irq = 2 ∨ irq = 3 := by
  have hp : getPending twoSources irq = true := h.2.2.1
  have hf : (BitVec.ofNat 512 12).getLsbD irq = true := by
    unfold getPending flag at hp
    split at hp
    · exact hp
    · cases hp
  rw [BitVec.getLsbD_ofNat, Bool.and_eq_true] at hf
  have hb : Nat.testBit 12 irq = true := hf.2
  have h4 : irq < 4 := by
    by_contra hlt
    rw [Nat.testBit_lt_two_pow (Nat.lt_of_lt_of_le (by decide : 12 < 2 ^ 4)
      (Nat.pow_le_pow_right (by decide) (Nat.le_of_not_lt hlt)))] at hb
    cases hb
  interval_cases irq
  · exact absurd hb (by decide)
  · exact absurd hb (by decide)
  · exact .inl rfl
  · exact .inr rfl

theorem witness_TiesGoToTheLowestIrqFirst :
    twoSources.cfg.claimAtomicity = .atomic ∧ 2 < 3 ∧ EligibleFor twoSources 0 2 ∧ EligibleFor twoSources 0 3 ∧
      getPrio twoSources 2 = getPrio twoSources 3 ∧
      ∀ j, EligibleFor twoSources 0 j → j = 2 ∨ j = 3 ∨ (getPrio twoSources j).toNat < (getPrio twoSources 2).toNat := by
  refine ⟨by decide, by decide, ?_, ?_, by decide +kernel, fun j hj => (eligible_twoSources hj).imp_right .inl⟩
  · unfold EligibleFor
    decide +kernel
  · unfold EligibleFor
    decide +kernel

theorem witness_PriorityZeroNeverWins :
    getPrio oneSource 511 = 0 ∧ (511 : Nat) ≠ 0 ∧ (⟨none, some 0, none, none⟩ : ScanReads).priority = some 0 ∧
      IsClaimRequest oneSource.cfg 0 .port (.claimIrq 0) ∧ IsClaimRequest oneSource.cfg 511 .mmio (.claimR 511) ∧
      IsClaimRequest oneSource.cfg 511 .mmio (.mmioRead 0x0C3FF004 4) :=
  ⟨by decide +kernel, by decide, rfl, .inl ⟨rfl, rfl⟩, .inr (.inl ⟨511, rfl, rfl, rfl⟩),
    .inr (.inr ⟨by decide, rfl, rfl⟩)⟩

theorem witness_ScanStartsAtIrqOne : best oneSource 0 ≠ 0 := by
  rw [best_oneSource]
  decide

/-- A state with other claim cells, another entry 0 and another context's registers, but the same inputs. -/
theorem witness_ArbiterReadsOnlyItsInputs :
    (∀ irq, 1 ≤ irq → irq ≤ 511 → getPrio (setClaim oneSource 0 7) irq = getPrio oneSource irq ∧
      getPending (setClaim oneSource 0 7) irq = getPending oneSource irq ∧
      getEnableBit (setClaim oneSource 0 7) 0 irq = getEnableBit oneSource 0 irq) ∧
    getThreshold (setClaim oneSource 0 7) 0 = getThreshold oneSource 0 ∧ getClaim (setClaim oneSource 0 7) 0 = 7 :=
  ⟨fun irq _ _ => ⟨getPrio_congr (by simp) irq, getPending_congr (by simp) irq,
    getEnableBit_congr (by simp) (by simp) 0 irq⟩, by decide +kernel, by decide +kernel⟩

/-- Context 16 of sixteen, and context 0 of none: both variants, each form of a claim and of a completion, and a
claim in flight there. -/
theorem witness_ContextWithoutStorageHasNoWinner :
    oneSource.cfg.numContexts ≤ 16 ∧ oneSource.cfg.claimAtomicity = .atomic ∧ noHart.cfg.numContexts ≤ 0 ∧
      (relaxed oneSource).cfg.claimAtomicity = .relaxed ∧ IsClaimRequest oneSource.cfg 16 .port (.claimIrq 16) ∧
      IsClaimRequest oneSource.cfg 16 .mmio (.claimR 16) ∧
      IsClaimRequest oneSource.cfg 16 .mmio (.mmioRead 0x0C210004 4) ∧ (511#9).toNat = 511 ∧ 511 ≤ 511 ∧
      (freshClaim 1 16 .port).ctx = 16 ∧ NoCandidate (freshClaim 1 16 .port) ∧
      NoCandidate ⟨1, 16, .mmio, .scan 511 ⟨some 0, some 9, some true, some false⟩, 0, 0, none⟩ :=
  ⟨by decide, by decide, by decide, rfl, .inl ⟨rfl, rfl⟩, .inr (.inl ⟨16, rfl, rfl, rfl⟩),
    .inr (.inr ⟨by decide, rfl, rfl⟩), by decide, by decide, rfl, ⟨rfl, fun h => nomatch h⟩, ⟨rfl, by
      show (some false : Option Bool) ≠ some true
      decide⟩⟩

/-- The last move of a claim on context 16 answers None and ends it. -/
theorem test_relaxed_no_storage :
    (advanceClaim (.read .enable false)
        ⟨1, 16, .mmio, .scan 511 ⟨some 0, some 9, some true, none⟩, 0, 0, none⟩ (withClaims [])).response =
      some (.value 0 .success) := by decide +kernel

theorem witness_AtomicClaimTakesTheWinner :
    oneSource.cfg.claimAtomicity = .atomic ∧ best oneSource 0 ≠ 0 ∧ State.reset.cfg.claimAtomicity = .atomic ∧
      best State.reset 0 = 0 :=
  ⟨by decide, witness_ScanStartsAtIrqOne, by decide, best_reset⟩

theorem witness_AtomicClaimsNeverShareAnIrq :
    oneSource.cfg.claimAtomicity = .atomic ∧ best oneSource 0 = 9 ∧ (9 : Nat) ≠ 0 ∧
      IsClaimRequest oneSource.cfg 0 .mmio (.mmioRead 0x0C200004 4) ∧
      (∀ j ∈ [Instr.completeIrq 0 9, .setPending 8, .setPendingWord 0 0xFFFFFDFF, .pendingW 1 0x200, .claimR 1],
        ¬ Signals oneSource.cfg 9 j) ∧
      IsClaimRequest oneSource.cfg 1 .mmio (.claimR 1) := by
  refine ⟨by decide, best_oneSource, by decide, .inr (.inr ⟨by decide, rfl, rfl⟩), ?_, .inr (.inl ⟨1, rfl, rfl, rfl⟩)⟩
  simp only [List.forall_mem_cons, List.not_mem_nil, false_implies, implies_true, Signals]
  decide

/-- The four requests that signal irq 9 again (60_exceptions.md R153). -/
theorem test_signals :
    Signals Config.default 9 (.setPending 9) ∧ Signals Config.default 9 (.setPendingWord 0 0x200) ∧
      Signals Config.default 9 (.pendingW 0 0x200) ∧ Signals Config.default 9 (.mmioWrite 0x0C001000 4 0x200) := by
  simp only [Signals]
  decide

theorem witness_ClaimsNeverReadAClaimCell :
    IsClaimRequest oneSource.cfg 0 .port (.claimIrq 0) ∧ IsClaimRequest oneSource.cfg 511 .mmio (.claimR 511) ∧
      IsClaimRequest oneSource.cfg 511 .mmio (.mmioRead 0x0C3FF004 4) :=
  ⟨.inl ⟨rfl, rfl⟩, .inr (.inl ⟨511, rfl, rfl, rfl⟩), .inr (.inr ⟨by decide, rfl, rfl⟩)⟩

theorem witness_UnservicedAndOutsideAccessesDoNothing :
    0x0BFFFFFC < State.reset.cfg.base ∧ State.reset.cfg.base + 0x400000 ≤ 0x0C400000 ∧ 2 ≠ 4 ∧
      (0x0C200006 - State.reset.cfg.base) % 4 ≠ 0 := by decide

theorem witness_MmioReadsReachTheirRegister :
    1023 ≤ 1023 ∧ 16319 ≤ 16319 ∧ 31 ≤ 31 ∧ 511 ≤ 511 ∧ oneSource.cfg.claimAtomicity = .atomic := by decide

/-- Two states that differ only in the response have the same claim cells and parameters. -/
theorem claim_of_sameButResponse {s t : State} (h : SameButResponse s t) : t.claim = s.claim ∧ t.cfg = s.cfg :=
  have e : { t with response := s.response } = s := h
  ⟨(rfl : t.claim = { t with response := s.response }.claim).trans (congrArg State.claim e),
    (rfl : t.cfg = { t with response := s.response }.cfg).trans (congrArg State.cfg e)⟩

theorem witness_OnlyAClaimReadHasASideEffect :
    exec (.mmioRead 0x0C200004 4) oneSource = .next (after (.mmioRead 0x0C200004 4) oneSource) ∧
      ¬ SameButResponse oneSource (after (.mmioRead 0x0C200004 4) oneSource) ∧
      oneSource.cfg.claimAtomicity = .atomic ∧ best oneSource 0 ≠ 0 := by
  refine ⟨rfl, fun h => ?_, by decide, witness_ScanStartsAtIrqOne⟩
  have h1 : getClaim (after (.mmioRead 0x0C200004 4) oneSource) 0 = 9 := by decide +kernel
  obtain ⟨h2, h3⟩ := claim_of_sameButResponse h
  rw [getClaim_congr h3 h2 0] at h1
  exact absurd h1 (by decide +kernel)

theorem witness_WritesAreIdempotent :
    isWriteRequest (.setEnableWord 0 15 8) = true ∧
      exec (.setEnableWord 0 15 8) oneSource = .next (after (.setEnableWord 0 15 8) oneSource) ∧
      isWriteRequest (.mmioWrite 0x0C200004 4 9) = true ∧
      exec (.mmioWrite 0x0C200004 4 9) oneSource = .next (after (.mmioWrite 0x0C200004 4 9) oneSource) :=
  ⟨rfl, rfl, rfl, rfl⟩

theorem witness_EnablePseudoOperationSetsOneFlag :
    15 < State.reset.cfg.numContexts ∧ 511 ≤ 511 ∧ 0 < oneHart.cfg.numContexts := by decide

theorem witness_ConstructionLeavesEverythingZero : Config.default.claimAtomicity = .atomic := rfl

theorem witness_ConstructionRefusesBadParameters :
    8 < 9 ∧ 8 < 9 ∧ 2 % 4 ≠ 0 ∧ 0x0C000000 % 4 = 0 ∧
      (⟨1, 0x0C000000, .atomic, []⟩ : Config).contextMapOk = false ∧
      (⟨8, 0x0C000000, .relaxed, usualContextMap 8⟩ : Config).contextMapOk = true := by decide

theorem witness_ResetMeetsTheInvariant :
    (⟨0, 0, .relaxed, []⟩ : Config).wf = true ∧ (⟨8, 0x0C000000, .atomic, usualContextMap 8⟩ : Config).wf = true := by
  decide

/-- The possible claims in flight of the witnesses. -/
theorem claimOk_scanningClaim : claimOk scanningClaim :=
  ⟨by decide, by decide, by
    show 1 ≤ 9 ∧ 9 ≤ 511 ∧ scanningClaim.best < 9 ∧ allRead scanningClaim ⟨some 5, some 6, some true, none⟩ = false
    decide⟩

theorem claimOk_commitClaim0 : claimOk commitClaim0 :=
  ⟨by decide, by decide, by
    show commitClaim0.best ≠ 0
    decide⟩

/-- An invariant state with a claim in flight and its move next. -/
theorem witness_StepKeepsTheInvariant :
    State.Inv { withClaims [scanningClaim] with schedule := [turn 1] } ∧
      ∃ t, step { withClaims [scanningClaim] with schedule := [turn 1] } = .next t := by
  refine ⟨⟨by decide, fun c h hn => ?_, by decide, fun c hc => ?_, fun h => ?_⟩, _, rfl⟩
  · have hn' : 16 ≤ c := hn
    omega
  · rcases List.mem_singleton.mp hc with rfl
    exact claimOk_scanningClaim
  · cases h

theorem witness_StepKeepsTheParameters : ∃ t, step presented = .next t := ⟨_, rfl⟩

theorem witness_ClaimCellsHoldIrqsUnlessWrittenRaw :
    (∀ ctx v, Instr.claimIrq 0 ≠ .setClaim ctx v) ∧ claimCellsAreIrqs oneSource ∧
      exec (.claimIrq 0) oneSource = .next (after (.claimIrq 0) oneSource) ∧ claimOk commitClaim0 :=
  ⟨fun _ _ h => (by cases h), fun c h => by
    have : oneSource.claim[c] = 0 := Vector.getElem_replicate h
    rw [this]; decide, rfl, claimOk_commitClaim0⟩

theorem witness_OnlyPriorityWritesChangeAPriority :
    getPrio (after (.setPrio 511 1) State.reset) 511 ≠ getPrio State.reset 511 ∧
      getPrio (after (.priorityW 0 1) State.reset) 0 ≠ getPrio State.reset 0 ∧
      getPrio (after (.mmioWrite 0x0C00001C 4 1) State.reset) 7 ≠ getPrio State.reset 7 := by decide +kernel

theorem witness_OnlyTheseRequestsChangeAPendingFlag :
    getPending (after (.setPending 511) State.reset) 511 ≠ getPending State.reset 511 ∧
      getPending (after (.clearPending 9) oneSource) 9 ≠ getPending oneSource 9 ∧
      getPending (after (.setPendingWord 15 0x80000000) State.reset) 511 ≠ getPending State.reset 511 ∧
      getPending (after (.pendingW 0 1) State.reset) 0 ≠ getPending State.reset 0 ∧
      getPending (after (.mmioWrite 0x0C001004 4 1) State.reset) 32 ≠ getPending State.reset 32 ∧
      getPending (after (.claimR 0) oneSource) 9 ≠ getPending oneSource 9 ∧
      getPending (advanceClaim .thresholdOnce commitClaim0 (withClaims [commitClaim0])) 9 ≠
        getPending (withClaims [commitClaim0]) 9 := by decide +kernel

theorem witness_OnlyEnableWritesChangeAnEnableFlag :
    getEnableBit (after (.setEnableBit 15 511 true) State.reset) 15 511 ≠ getEnableBit State.reset 15 511 ∧
      getEnableBit (after (.setEnableWord 0 1 1) State.reset) 0 32 ≠ getEnableBit State.reset 0 32 ∧
      getEnableBit (after (.enableW 1 0 1) State.reset) 1 0 ≠ getEnableBit State.reset 1 0 ∧
      getEnableBit (after (.mmioWrite 0x0C0027BC 4 0x80000000) State.reset) 15 511 ≠ getEnableBit State.reset 15 511 := by
  decide +kernel

theorem witness_RelaxedClaimStarts :
    (relaxed oneSource).cfg.claimAtomicity = .relaxed ∧ IsClaimRequest oneSource.cfg 16 .port (.claimIrq 16) ∧
      IsClaimRequest oneSource.cfg 511 .mmio (.claimR 511) ∧
      IsClaimRequest oneSource.cfg 511 .mmio (.mmioRead 0x0C3FF004 4) :=
  ⟨rfl, .inl ⟨rfl, rfl⟩, .inr (.inl ⟨511, rfl, rfl, rfl⟩), .inr (.inr ⟨by decide, rfl, rfl⟩)⟩

theorem witness_RelaxedScanOnlyReads :
    scanningClaim.phase = .scan 9 ⟨some 5, some 6, some true, none⟩ := rfl

/-- Both clauses: a read that leaves the iteration open, and the one that ends it. -/
theorem witness_RelaxedIterationReadsAndDecides :
    unread (freshClaim 1 0 .port) noReads .threshold = true ∧
      allRead (freshClaim 1 0 .port) (readField (withClaims []) 0 1 noReads .threshold) = false ∧
      unread scanningClaim ⟨some 5, some 6, some true, none⟩ .enable = true ∧ 9 < 511 ∧
      readField (withClaims []) 0 9 ⟨some 5, some 6, some true, none⟩ .enable =
        ⟨some 5, some 6, some true, some true⟩ := by decide +kernel

theorem witness_RelaxedCommitClearsThenRecords :
    commitClaim0.phase = .clear ∧ { commitClaim0 with phase := .record }.phase = .record ∧ 511 ≤ 511 ∧
      commitClaim0.best ≠ 0 ∧ scanningClaim.best = 0 := by decide

theorem witness_RelaxedClaimEndsWithinItsBound : claimOk scanningClaim ∧ claimOk commitClaim0 :=
  ⟨claimOk_scanningClaim, claimOk_commitClaim0⟩

/-- Agent 1 alone for 2047 turns, its next request the given claim, while agent 2 has a claim in flight. -/
def aloneWithClaim (i : Instr) : State :=
  { withClaims [commitClaim1] with
    requests := [⟨1, encode i⟩]
    schedule := List.replicate 2047 (turn 1) }

theorem aloneWithClaim_turns (i : Instr) :
    2047 ≤ (aloneWithClaim i).schedule.length ∧ ∀ t ∈ (aloneWithClaim i).schedule.take 2047, t.agent = 1 := by
  refine ⟨Nat.le_of_eq List.length_replicate.symm, fun t ht => ?_⟩
  rw [List.eq_of_mem_replicate (List.mem_of_mem_take ht)]
  rfl

theorem witness_RelaxedClaimAloneIsAtomic :
    (aloneWithClaim (.claimIrq 0)).cfg.claimAtomicity = .relaxed ∧
      findClaim 1 (aloneWithClaim (.claimIrq 0)).inflight = none ∧
      takeRequest 1 (aloneWithClaim (.claimIrq 0)).requests = some (encode (.claimIrq 0), []) ∧
      decode (encode (.claimIrq 0)) = .ok (.claimIrq 0) ∧ IsClaimRequest oneSource.cfg 0 .port (.claimIrq 0) ∧
      (2047 ≤ (aloneWithClaim (.claimIrq 0)).schedule.length ∧
        ∀ t ∈ (aloneWithClaim (.claimIrq 0)).schedule.take 2047, t.agent = 1) ∧
      decode (encode (.claimR 511)) = .ok (.claimR 511) ∧ IsClaimRequest oneSource.cfg 511 .mmio (.claimR 511) ∧
      decode (encode (.mmioRead 0x0C200004 4)) = .ok (.mmioRead 0x0C200004 4) ∧
      IsClaimRequest oneSource.cfg 0 .mmio (.mmioRead 0x0C200004 4) :=
  ⟨rfl, rfl, rfl, rfl, .inl ⟨rfl, rfl⟩, aloneWithClaim_turns _, by decide, .inr (.inl ⟨511, rfl, rfl, rfl⟩), rfl,
    .inr (.inr ⟨by decide, rfl, rfl⟩)⟩

/-- P5: two claims past their scans with the same winner, on different contexts. -/
def racing : State :=
  { withClaims [commitClaim0, commitClaim1] with schedule := [turn 1, turn 2, turn 1, turn 2] }

theorem witness_RacingRelaxedClaimsCanShareAnIrq :
    commitClaim0.agent ≠ commitClaim1.agent ∧ commitClaim0.ctx ≠ commitClaim1.ctx ∧ commitClaim0.phase = .clear ∧
      commitClaim1.phase = .clear ∧ commitClaim0.best = commitClaim1.best ∧ commitClaim0.best ≤ 511 ∧
      commitClaim0.ctx < racing.cfg.numContexts ∧ commitClaim1.ctx < racing.cfg.numContexts ∧
      findClaim commitClaim0.agent racing.inflight = some commitClaim0 ∧
      findClaim commitClaim1.agent racing.inflight = some commitClaim1 ∧
      racing.schedule = [turn 1, turn 2, turn 1, turn 2] := by decide

/-- Agent 2 signals irq 9 while agent 1's claim of it is about to commit. -/
def signalling : State :=
  { withClaims [commitClaim0] with
    requests := [⟨2, encode (.setPending 9)⟩]
    schedule := [turn 2, turn 1] }

theorem witness_SignalDuringARelaxedCommitIsLost :
    2 ≠ commitClaim0.agent ∧ commitClaim0.phase = .clear ∧ commitClaim0.best ≤ 511 ∧
      findClaim commitClaim0.agent signalling.inflight = some commitClaim0 ∧ findClaim 2 signalling.inflight = none ∧
      takeRequest 2 signalling.requests = some (encode (.setPending commitClaim0.best), []) ∧
      signalling.schedule = [turn 2, turn 1] := by decide

theorem witness_OnlyThresholdWritesChangeAThreshold :
    getThreshold (after (.setThreshold 15 1) State.reset) 15 ≠ getThreshold State.reset 15 ∧
      getThreshold (after (.thresholdW 0 1) State.reset) 0 ≠ getThreshold State.reset 0 ∧
      getThreshold (after (.mmioWrite 0x0C20F000 4 1) State.reset) 15 ≠ getThreshold State.reset 15 := by
  decide +kernel

/-- SET_CLAIM, each form of a completion, each form of a claim, and the last move of a claim in flight. -/
theorem witness_OnlyTheseRequestsChangeAClaimCell :
    getClaim (after (.setClaim 15 7) State.reset) 15 ≠ getClaim State.reset 15 ∧
      getClaim (after (.completeIrq 15 0) (setClaim State.reset 15 7)) 15 ≠ getClaim (setClaim State.reset 15 7) 15 ∧
      getClaim (after (.claimW 0 0) (setClaim State.reset 0 7)) 0 ≠ getClaim (setClaim State.reset 0 7) 0 ∧
      getClaim (after (.mmioWrite 0x0C20F004 4 0) (setClaim State.reset 15 7)) 15 ≠
        getClaim (setClaim State.reset 15 7) 15 ∧
      getClaim (after (.claimIrq 0) oneSource) 0 ≠ getClaim oneSource 0 ∧
      getClaim (after (.mmioRead 0x0C200004 4) oneSource) 0 ≠ getClaim oneSource 0 ∧
      getClaim (advanceClaim .thresholdOnce { commitClaim1 with phase := .record } (withClaims [])) 1 ≠
        getClaim (withClaims []) 1 := by decide +kernel

end Sys2Proof.Tests
end

section
/-! What one step can do, said once, and with it that the parameters of 00_scope.md R4 never change. -/

namespace Sys2Proof.Machine

variable {s t : State} {i : Instr}

/-- What an agent with no claim in flight can do in its turn: nothing, for want of a request, or run its next one. -/
theorem issueNext_cases (h : issueNext s = .next t) :
    (takeRequest s.agent s.requests = none ∧ t = s) ∨
      ∃ r rest i, takeRequest s.agent s.requests = some (r, rest) ∧ decode r = .ok i ∧
        exec i { s with requests := rest } = .next t := by
  unfold issueNext at h
  split at h
  next hnone =>
    cases h
    exact .inl ⟨hnone, rfl⟩
  next r rest hsome =>
    split at h
    next i hdecode => exact .inr ⟨r, rest, i, hsome, hdecode, h⟩
    next => cases h

/-- What the agent of the turn can do: move its claim in flight, or issue its next request. -/
theorem takeTurn_cases {choice : ClaimChoice} (h : takeTurn choice s = .next t) :
    (∃ c, findClaim s.agent s.inflight = some c ∧ t = advanceClaim choice c s) ∨
      (findClaim s.agent s.inflight = none ∧ issueNext s = .next t) := by
  unfold takeTurn at h
  split at h
  next c hc =>
    cases h
    exact .inl ⟨c, hc, rfl⟩
  next hnone => exact .inr ⟨hnone, h⟩

/-- What a step can do: nothing, for want of a turn, or the first turn of the schedule. -/
theorem step_cases (h : step s = .next t) :
    (s.schedule = [] ∧ t = s) ∨
      ∃ turn rest, s.schedule = turn :: rest ∧ takeTurn turn.choice (startTurn turn rest s) = .next t := by
  unfold step at h
  split at h
  next hnil =>
    cases h
    exact .inl ⟨hnil, rfl⟩
  next turn rest hcons => exact .inr ⟨turn, rest, hcons, h⟩

@[simp] theorem beginClaim_cfg (form : ClaimForm) (ctx : Nat) (s : State) : (beginClaim form ctx s).cfg = s.cfg := by
  cases h : s.cfg.claimAtomicity with
  | atomic => rw [beginClaim_atomic form ctx h, respond_cfg, claimAtomic_cfg]
  | relaxed => rw [beginClaim_relaxed form ctx h, keepClaim_cfg]

/-- No effect of a request is on a construction parameter. -/
theorem Effect.cfg_eq (h : Effect s i t) : t.cfg = s.cfg := by
  cases h with
  | claim ctx form => exact beginClaim_cfg form ctx s
  | _ => simp

theorem exec_cfg (h : exec i s = .next t) : t.cfg = s.cfg := by
  obtain ⟨u, hu, heffect⟩ := exec_effect i s
  cases hu.symm.trans h
  exact heffect.cfg_eq

theorem issueNext_cfg (h : issueNext s = .next t) : t.cfg = s.cfg := by
  obtain ⟨-, rfl⟩ | ⟨r, rest, i, -, -, hexec⟩ := issueNext_cases h
  · rfl
  · exact (exec_cfg hexec).trans rfl

theorem takeTurn_cfg {choice : ClaimChoice} (h : takeTurn choice s = .next t) : t.cfg = s.cfg := by
  obtain ⟨c, -, rfl⟩ | ⟨-, hissue⟩ := takeTurn_cases h
  · exact advanceClaim_cfg choice c s
  · exact issueNext_cfg hissue

theorem step_cfg (h : step s = .next t) : t.cfg = s.cfg := by
  obtain ⟨-, rfl⟩ | ⟨turn, rest, -, hturn⟩ := step_cases h
  · rfl
  · exact (takeTurn_cfg hturn).trans (startTurn_cfg turn rest s)

/-- Settles O46: whichever of its cases a step is (`step_cases`), it keeps the parameters. -/
theorem stepKeepsTheParameters : Obligations.StepKeepsTheParameters :=
  fun _ _ => step_cfg

end Sys2Proof.Machine
end

section
/-! What the invariant of 10_state.md R27 says field by field, and that every update of the state, every effect of a
request and every move of a claim in flight keeps it. -/

namespace Sys2Proof.Machine

/-! The construction parameters and the unused entries of the context arrays. -/

section
variable {s t : State}

/-- The context arrays may change as long as the unused entries stay zero. -/
theorem State.Inv.of_spare (hs : s.Inv) (hcfg : t.cfg = s.cfg) (hinflight : t.inflight = s.inflight)
    (hspare : spareContextsZero t) : t.Inv where
  cfgOk := hcfg ▸ hs.cfgOk
  spare := hspare
  sorted := hinflight ▸ hs.sorted
  claims := hinflight ▸ hs.claims
  atomic := by simpa only [hcfg, hinflight] using hs.atomic

/-- The invariant reads only the parameters, the three context arrays and the claims in flight. -/
theorem State.Inv.of_fields_eq (hs : s.Inv) (hcfg : t.cfg = s.cfg) (henable : t.enable = s.enable)
    (hthreshold : t.threshold = s.threshold) (hclaim : t.claim = s.claim) (hinflight : t.inflight = s.inflight) :
    t.Inv :=
  hs.of_spare hcfg hinflight (by simpa only [spareContextsZero, hcfg, henable, hthreshold, hclaim] using hs.spare)

theorem State.Inv.respond (hs : s.Inv) (r : Response) : (respond r s).Inv :=
  hs.of_fields_eq rfl rfl rfl rfl rfl

theorem State.Inv.setPrio (hs : s.Inv) (irq : Nat) (p : Word) : (setPrio s irq p).Inv :=
  hs.of_fields_eq (by simp) (by simp) (by simp) (by simp) (by simp)

theorem State.Inv.setPendingFlag (hs : s.Inv) (irq : Nat) (e : Bool) : (setPendingFlag s irq e).Inv :=
  hs.of_fields_eq (by simp) (by simp) (by simp) (by simp) (by simp)

theorem State.Inv.setPendingWord (hs : s.Inv) (w : Nat) (v : Word) : (setPendingWord s w v).Inv :=
  hs.of_fields_eq (by simp) (by simp) (by simp) (by simp) (by simp)

/-! A write of a context array reaches an entry with storage, or nothing. -/

theorem spareContextsZero_setEnableOf (h : spareContextsZero s) (ctx : Nat) (f : IrqSet) :
    spareContextsZero (setEnableOf s ctx f) := by
  unfold setEnableOf
  split
  next hctx =>
    intro c hc hspare
    simpa [(Nat.lt_of_lt_of_le hctx hspare).ne] using h c hc hspare
  next => exact h

theorem spareContextsZero_setThreshold (h : spareContextsZero s) (ctx : Nat) (v : Word) :
    spareContextsZero (setThreshold s ctx v) := by
  unfold setThreshold
  split
  next hctx =>
    intro c hc hspare
    simpa [(Nat.lt_of_lt_of_le hctx hspare).ne] using h c hc hspare
  next => exact h

theorem spareContextsZero_setClaim (h : spareContextsZero s) (ctx : Nat) (v : Word) :
    spareContextsZero (setClaim s ctx v) := by
  unfold setClaim
  split
  next hctx =>
    intro c hc hspare
    simpa [(Nat.lt_of_lt_of_le hctx hspare).ne] using h c hc hspare
  next => exact h

theorem State.Inv.setEnableOf (hs : s.Inv) (ctx : Nat) (f : IrqSet) : (setEnableOf s ctx f).Inv :=
  hs.of_spare (by simp) (by simp) (spareContextsZero_setEnableOf hs.spare ctx f)

theorem State.Inv.setEnableBit (hs : s.Inv) (ctx irq : Nat) (e : Bool) : (setEnableBit s ctx irq e).Inv := by
  unfold Machine.setEnableBit
  split
  · exact hs.setEnableOf ctx _
  · exact hs

theorem State.Inv.setEnableWord (hs : s.Inv) (ctx w : Nat) (v : Word) : (setEnableWord s ctx w v).Inv := by
  unfold Machine.setEnableWord
  split
  · exact hs.setEnableOf ctx _
  · exact hs

theorem State.Inv.setThreshold (hs : s.Inv) (ctx : Nat) (v : Word) : (setThreshold s ctx v).Inv :=
  hs.of_spare (by simp) (by simp) (spareContextsZero_setThreshold hs.spare ctx v)

theorem State.Inv.setClaim (hs : s.Inv) (ctx : Nat) (v : Word) : (setClaim s ctx v).Inv :=
  hs.of_spare (by simp) (by simp) (spareContextsZero_setClaim hs.spare ctx v)

theorem State.Inv.claimAtomic (hs : s.Inv) (ctx : Nat) : (claimAtomic s ctx).Inv := by
  obtain ⟨-, h⟩ | ⟨-, h⟩ := claimAtomic_cases s ctx <;> rw [h]
  · exact hs
  · exact (hs.setPendingFlag _ false).setClaim ctx _

/-! The claims in flight. -/

/-- A claim can be in flight in the relaxed variant only. -/
theorem State.Inv.relaxed_of_mem (hs : s.Inv) {c : ClaimInFlight} (hc : c ∈ s.inflight) :
    s.cfg.claimAtomicity = .relaxed := by
  cases hvariant : s.cfg.claimAtomicity with
  | relaxed => rfl
  | atomic => simp [hs.atomic hvariant] at hc

theorem State.Inv.keepClaim {c : ClaimInFlight} (hs : s.Inv) (hrelaxed : s.cfg.claimAtomicity = .relaxed)
    (hc : claimOk c) : (keepClaim c s).Inv where
  cfgOk := hs.cfgOk
  spare := hs.spare
  sorted := putClaim_sorted c hs.sorted
  claims d hd := by
    rcases mem_putClaim hd with rfl | hold
    · exact hc
    · exact hs.claims d hold
  atomic hatomic := by simp [hrelaxed] at hatomic

theorem State.Inv.finishClaim (hs : s.Inv) (c : ClaimInFlight) (w : Option Nat) : (finishClaim c w s).Inv where
  cfgOk := hs.cfgOk
  spare := hs.spare
  sorted := dropClaim_sorted c.agent hs.sorted
  claims d hd := hs.claims d (mem_dropClaim hd)
  atomic hatomic := by simp [hs.atomic hatomic, dropClaim]

end

/-! What a possible claim in flight holds, phase by phase. -/

section
variable {c : ClaimInFlight} {irq : Nat} {r : ScanReads}

/-- What `claimOk` says of a claim that is scanning. -/
theorem claimOk_iff_of_scan (hphase : c.phase = .scan irq r) :
    claimOk c ↔ (c.best = 0 ↔ c.bestPrio = 0) ∧ 1 ≤ irq ∧ irq ≤ 511 ∧ c.best < irq ∧ allRead c r = false := by
  simp only [claimOk, claimPhaseOk, hphase]
  constructor
  · rintro ⟨-, hzero, hposition⟩
    exact ⟨hzero, hposition⟩
  · rintro ⟨hzero, hposition⟩
    exact ⟨by omega, hzero, hposition⟩

/-- What `claimOk` says of a claim past its scan. -/
theorem claimOk_iff_of_commit (hphase : c.phase = .clear ∨ c.phase = .record) :
    claimOk c ↔ c.best ≤ 511 ∧ (c.best = 0 ↔ c.bestPrio = 0) ∧ c.best ≠ 0 := by
  rcases hphase with hphase | hphase <;> simp only [claimOk, claimPhaseOk, hphase]

/-- An iteration that has read nothing is not over. -/
@[simp] theorem allRead_noReads (c : ClaimInFlight) : allRead c noReads = false := by
  simp [allRead, noReads]

theorem claimOk_freshClaim (agent ctx : Nat) (form : ClaimForm) : claimOk (freshClaim agent ctx form) :=
  (claimOk_iff_of_scan rfl).mpr
    ⟨by simp [freshClaim], by simp, by simp, by simp [freshClaim], allRead_noReads _⟩

/-- After an iteration the best candidate is at most the source scanned in it. -/
theorem concludeIteration_best_le (h : c.best < irq) : (concludeIteration c irq r).best ≤ irq := by
  rcases concludeIteration_cases c irq r with h' | ⟨_, _, _, _, _, _, _, _, h'⟩ <;> rw [h']
  omega

/-- A source that replaces the best so far has a priority above it, hence not 0. -/
theorem concludeIteration_best_eq_zero_iff (hirq : 1 ≤ irq) (h : c.best = 0 ↔ c.bestPrio = 0) :
    (concludeIteration c irq r).best = 0 ↔ (concludeIteration c irq r).bestPrio = 0 := by
  rcases concludeIteration_cases c irq r with h' | ⟨p, _, _, _, _, _, _, hlt, h'⟩ <;> rw [h']
  · exact h
  · have hp : p ≠ 0 := by
      rintro rfl
      exact BitVec.not_lt_zero hlt
    simp only [hp, iff_false]
    omega

/-! One move of a claim in flight. -/

variable {s : State}

/-- After an iteration: the candidate kept so far may be the source just scanned. -/
theorem State.Inv.afterIteration (hs : s.Inv) (hrelaxed : s.cfg.claimAtomicity = .relaxed) (hirq : irq ≤ 511)
    (hzero : c.best = 0 ↔ c.bestPrio = 0) (hbest : c.best ≤ irq) : (afterIteration irq c s).Inv := by
  obtain ⟨hlast, h⟩ | ⟨-, -, h⟩ | ⟨-, hwinner, h⟩ := afterIteration_cases irq c s <;> rw [h]
  · exact hs.keepClaim hrelaxed
      ((claimOk_iff_of_scan rfl).mpr ⟨hzero, by omega, by omega, Nat.lt_succ_of_le hbest, allRead_noReads _⟩)
  · exact hs.finishClaim c none
  · exact hs.keepClaim hrelaxed ((claimOk_iff_of_commit (.inl rfl)).mpr ⟨hbest.trans hirq, hzero, hwinner⟩)

theorem State.Inv.scanRead (hs : s.Inv) (hrelaxed : s.cfg.claimAtomicity = .relaxed) (hc : claimOk c)
    (hphase : c.phase = .scan irq r) (f : ScanField) (skip : Bool) : (scanRead f skip c irq r s).Inv := by
  obtain ⟨hzero, hpos, hle, hbest, -⟩ := (claimOk_iff_of_scan hphase).mp hc
  obtain ⟨r', -, ⟨-, h⟩ | ⟨hread, h⟩⟩ := scanRead_cases f skip c irq r s <;> rw [h]
  · exact hs.afterIteration hrelaxed hle (concludeIteration_best_eq_zero_iff hpos hzero)
      (concludeIteration_best_le hbest)
  · exact hs.keepClaim hrelaxed ((claimOk_iff_of_scan rfl).mpr ⟨hzero, hpos, hle, hbest, hread⟩)

/-- The threshold is read before the loop only when nothing else has been read. -/
theorem claimOk_thresholdOnce (hc : claimOk c) (hphase : c.phase = .scan irq r)
    (hbefore : beforeLoop c irq r = true) (v : Word) : claimOk { c with heldThreshold := some v } := by
  obtain ⟨hzero, hpos, hle, hbest, -⟩ := (claimOk_iff_of_scan hphase).mp hc
  have hr : r = noReads := by
    simp only [beforeLoop, Bool.and_eq_true, beq_iff_eq] at hbefore
    exact hbefore.1.2
  exact (claimOk_iff_of_scan (c := { c with heldThreshold := some v }) hphase).mpr
    ⟨hzero, hpos, hle, hbest, hr ▸ allRead_noReads _⟩

theorem State.Inv.advanceScan (hs : s.Inv) (hrelaxed : s.cfg.claimAtomicity = .relaxed) (hc : claimOk c)
    (hphase : c.phase = .scan irq r) (choice : ClaimChoice) : (advanceScan choice c irq r s).Inv := by
  cases choice with
  | thresholdOnce =>
    simp only [Machine.advanceScan]
    split
    next hbefore => exact hs.keepClaim hrelaxed (claimOk_thresholdOnce hc hphase hbefore _)
    next => exact hs.scanRead hrelaxed hc hphase .threshold false
  | read f skip => exact hs.scanRead hrelaxed hc hphase f skip

/-- A claim in flight scans, then clears its winner's flag, then records it and ends. -/
theorem State.Inv.advanceClaim (hs : s.Inv) (hmem : c ∈ s.inflight) (choice : ClaimChoice) :
    (advanceClaim choice c s).Inv := by
  have hrelaxed := hs.relaxed_of_mem hmem
  have hc := hs.claims c hmem
  cases hphase : c.phase with
  | scan irq r =>
    rw [advanceClaim_scan hphase]
    exact hs.advanceScan hrelaxed hc hphase choice
  | clear =>
    rw [advanceClaim_clear hphase]
    have hok : claimOk { c with phase := .record } :=
      (claimOk_iff_of_commit (.inr rfl)).mpr ((claimOk_iff_of_commit (.inl hphase)).mp hc)
    exact (hs.setPendingFlag c.best false).keepClaim (by simpa using hrelaxed) hok
  | record =>
    rw [advanceClaim_record hphase]
    exact (hs.setClaim c.ctx _).finishClaim c _

end

/-! Requests and steps. -/

section
variable {s t : State} {i : Instr}

theorem State.Inv.beginClaim (hs : s.Inv) (form : ClaimForm) (ctx : Nat) : (beginClaim form ctx s).Inv := by
  cases hvariant : s.cfg.claimAtomicity with
  | atomic =>
    rw [beginClaim_atomic form ctx hvariant]
    exact (hs.claimAtomic ctx).respond _
  | relaxed =>
    rw [beginClaim_relaxed form ctx hvariant]
    exact (hs.keepClaim hvariant (claimOk_freshClaim s.agent ctx form)).of_fields_eq rfl rfl rfl rfl rfl

/-- Every effect of a request keeps the invariant. -/
theorem Effect.inv (h : Effect s i t) (hs : s.Inv) : t.Inv := by
  cases h with
  | answer r => exact hs.respond r
  | priority r irq p => exact (hs.setPrio irq p).respond r
  | pendingFlag r irq e => exact (hs.setPendingFlag irq e).respond r
  | pendingWord r w v => exact (hs.setPendingWord w v).respond r
  | enableFlag r ctx irq e => exact (hs.setEnableBit ctx irq e).respond r
  | enableWord r ctx w v => exact (hs.setEnableWord ctx w v).respond r
  | threshold r ctx v => exact (hs.setThreshold ctx v).respond r
  | claimCell r ctx v => exact (hs.setClaim ctx v).respond r
  | claim ctx form => exact hs.beginClaim form ctx

/-- The next state a request answers is one of its effects. -/
theorem Effect.of_exec (h : exec i s = .next t) : Effect s i t := by
  obtain ⟨u, hu, heffect⟩ := exec_effect i s
  cases hu.symm.trans h
  exact heffect

theorem State.Inv.issueNext (hs : s.Inv) (h : issueNext s = .next t) : t.Inv := by
  obtain ⟨-, rfl⟩ | ⟨r, rest, i, -, -, hexec⟩ := issueNext_cases h
  · exact hs
  · exact (Effect.of_exec hexec).inv (hs.of_fields_eq rfl rfl rfl rfl rfl)

theorem State.Inv.takeTurn {choice : ClaimChoice} (hs : s.Inv) (h : takeTurn choice s = .next t) : t.Inv := by
  obtain ⟨c, hfind, rfl⟩ | ⟨-, hissue⟩ := takeTurn_cases h
  · exact hs.advanceClaim (findClaim_some hfind).1 choice
  · exact hs.issueNext hissue

theorem State.Inv.step (hs : s.Inv) (h : step s = .next t) : t.Inv := by
  obtain ⟨-, rfl⟩ | ⟨turn, rest, -, hturn⟩ := step_cases h
  · exact hs
  · have hstart : (startTurn turn rest s).Inv := hs.of_fields_eq rfl rfl rfl rfl rfl
    exact hstart.takeTurn hturn

end

/-- Settles O45: a step is a request, whose effects keep the invariant (`Effect.inv`), or a move of a claim in flight,
which keeps it (`State.Inv.advanceClaim`). -/
theorem stepKeepsTheInvariant : Obligations.StepKeepsTheInvariant :=
  fun _ _ => State.Inv.step

end Sys2Proof.Machine
end

section
/-! What a request and a move of a claim in flight can write, array by array (10_state.md sections 2 and 3). -/

namespace Sys2Proof.Machine

/-! An answer, and the start of a claim, leave what the getters read. -/

section
variable (r : Response) (s : State)

@[simp] theorem getPrio_respond (irq : Nat) : getPrio (respond r s) irq = getPrio s irq := rfl
@[simp] theorem getPending_respond (irq : Nat) : getPending (respond r s) irq = getPending s irq := rfl
@[simp] theorem getEnableBit_respond (ctx irq : Nat) :
    getEnableBit (respond r s) ctx irq = getEnableBit s ctx irq := rfl
@[simp] theorem getThreshold_respond (ctx : Nat) : getThreshold (respond r s) ctx = getThreshold s ctx := rfl

end

section
variable (form : ClaimForm) (ctx : Nat) (s : State)

@[simp] theorem beginClaim_priority : (beginClaim form ctx s).priority = s.priority := by
  cases h : s.cfg.claimAtomicity <;> simp [beginClaim, h]
@[simp] theorem beginClaim_enable : (beginClaim form ctx s).enable = s.enable := by
  cases h : s.cfg.claimAtomicity <;> simp [beginClaim, h]
@[simp] theorem beginClaim_threshold : (beginClaim form ctx s).threshold = s.threshold := by
  cases h : s.cfg.claimAtomicity <;> simp [beginClaim, h]

/-- The start of a claim writes flags and cells only as the atomic commit of a winner (42_claim_complete.md R110,
R112); in the relaxed variant it writes none (R115). -/
theorem beginClaim_writes :
    ((beginClaim form ctx s).pending = s.pending ∧ (beginClaim form ctx s).claim = s.claim) ∨
      (s.cfg.claimAtomicity = .atomic ∧ best s ctx ≠ 0 ∧
        (beginClaim form ctx s).pending = (commitClaim s ctx (best s ctx)).pending ∧
        (beginClaim form ctx s).claim = (commitClaim s ctx (best s ctx)).claim) := by
  cases hvariant : s.cfg.claimAtomicity with
  | relaxed =>
    rw [beginClaim_relaxed form ctx hvariant]
    exact .inl ⟨rfl, rfl⟩
  | atomic =>
    rw [beginClaim_atomic form ctx hvariant]
    obtain ⟨-, h⟩ | ⟨hbest, h⟩ := claimAtomic_cases s ctx <;> rw [h]
    · exact .inl ⟨rfl, rfl⟩
    · exact .inr ⟨rfl, hbest, rfl, rfl⟩

end

/-- The commit writes the winner to its cell; clearing the winner's flag is no write of a cell. -/
theorem commitClaim_claim (s : State) (ctx w : Nat) :
    (commitClaim s ctx w).claim = (setClaim s ctx (BitVec.ofNat 32 w)).claim := by
  unfold commitClaim setClaim
  simp only [setPendingFlag_cfg]
  split <;> simp

/-- The winner of the scan is an irq id (41_arbitration.md R106). -/
theorem best_le (s : State) (ctx : Nat) : best s ctx ≤ 511 := scanUpTo_irq_le s ctx 511

/-! What a move of a claim in flight writes: nothing in the scan, the winner's flag, then the cell of its context
(42_claim_complete.md R116). -/

section
variable (choice : ClaimChoice) (c : ClaimInFlight) (s : State)

theorem advanceScan_pending_claim (irq : Nat) (r : ScanReads) :
    (advanceScan choice c irq r s).pending = s.pending ∧ (advanceScan choice c irq r s).claim = s.claim := by
  obtain ⟨c', -, -, -, h | ⟨-, h⟩⟩ := advanceScan_cases choice c irq r s <;> rw [h] <;> exact ⟨rfl, rfl⟩

theorem advanceClaim_pending_cases :
    (advanceClaim choice c s).pending = s.pending ∨
      (c.phase = .clear ∧ (advanceClaim choice c s).pending = (setPendingFlag s c.best false).pending) := by
  cases hphase : c.phase with
  | scan irq r =>
    rw [advanceClaim_scan hphase]
    exact .inl (advanceScan_pending_claim choice c s irq r).1
  | clear =>
    rw [advanceClaim_clear hphase]
    exact .inr ⟨rfl, rfl⟩
  | record =>
    rw [advanceClaim_record hphase]
    exact .inl (by simp)

theorem advanceClaim_claim_cases :
    (advanceClaim choice c s).claim = s.claim ∨
      (c.phase = .record ∧
        (advanceClaim choice c s).claim = (setClaim s c.ctx (BitVec.ofNat 32 c.best)).claim) := by
  cases hphase : c.phase with
  | scan irq r =>
    rw [advanceClaim_scan hphase]
    exact .inl (advanceScan_pending_claim choice c s irq r).2
  | clear =>
    rw [advanceClaim_clear hphase]
    exact .inl (by simp)
  | record =>
    rw [advanceClaim_record hphase]
    exact .inr ⟨rfl, rfl⟩

end

/-! The writers of each array. -/

section
variable {s t : State} {i : Instr}

/-- A priority changes only where a request writes it (R11). -/
theorem Effect.writesPriority (h : Effect s i t) {irq : Nat} (hchange : getPrio t irq ≠ getPrio s irq) :
    ∃ p, WritesPriority s.cfg irq p i := by
  cases h with
  | priority r irq' p hwrites =>
    rw [getPrio_respond, getPrio_setPrio] at hchange
    obtain ⟨⟨rfl, -⟩, -⟩ := ite_ne_right_iff.mp hchange
    exact ⟨p, hwrites⟩
  | _ => exact absurd (getPrio_congr (by simp) irq) hchange

/-- Which requests change a pending flag, and to what (R12). -/
inductive ChangesPending (s : State) (irq : Nat) : Instr → Bool → Prop where
  | set : ChangesPending s irq (.setPending irq) true
  | clear : ChangesPending s irq (.clearPending irq) false
  | word {i : Instr} {v : Word} (h : WritesPendingWord s.cfg (irq / 32) v i) :
      ChangesPending s irq i (v.getLsbD (irq % 32))
  | claim {i : Instr} {ctx : Nat} {form : ClaimForm} (hatomic : s.cfg.claimAtomicity = .atomic)
      (hbest : best s ctx = irq) (h : IsClaimRequest s.cfg ctx form i) : ChangesPending s irq i false

theorem Effect.changesPending (h : Effect s i t) {irq : Nat} (hchange : getPending t irq ≠ getPending s irq) :
    ChangesPending s irq i (getPending t irq) := by
  cases h with
  | pendingFlag r irq' e hwrites =>
    rw [getPending_respond, getPending_setPendingFlag] at hchange ⊢
    obtain ⟨hirq, -⟩ := ite_ne_right_iff.mp hchange
    rw [if_pos hirq]
    obtain ⟨rfl, -⟩ := hirq
    obtain ⟨rfl, rfl⟩ | ⟨rfl, rfl⟩ := hwrites
    · exact .set
    · exact .clear
  | pendingWord r w v hwrites =>
    rw [getPending_respond, getPending_setPendingWord] at hchange ⊢
    obtain ⟨hw, -⟩ := ite_ne_right_iff.mp hchange
    rw [if_pos hw]
    obtain ⟨rfl, -⟩ := hw
    exact .word hwrites
  | claim ctx form hclaim =>
    obtain ⟨hsame, -⟩ | ⟨hatomic, -, hcommit, -⟩ := beginClaim_writes form ctx s
    · exact absurd (getPending_congr hsame irq) hchange
    · rw [getPending_congr hcommit, getPending_commitClaim] at hchange ⊢
      obtain ⟨hirq, -⟩ := ite_ne_right_iff.mp hchange
      rw [if_pos hirq]
      exact .claim hatomic hirq.1.symm hclaim
  | _ => exact absurd (getPending_congr (by simp) irq) hchange

/-- An enable flag changes only where a request writes the flag or its word (R15). -/
theorem Effect.writesEnable (h : Effect s i t) {ctx irq : Nat}
    (hchange : getEnableBit t ctx irq ≠ getEnableBit s ctx irq) :
    (∃ e, i = .setEnableBit ctx irq e) ∨ ∃ v, WritesEnableWord s.cfg ctx (irq / 32) v i := by
  cases h with
  | enableFlag r ctx' irq' e hwrites =>
    rw [getEnableBit_respond, getEnableBit_setEnableBit] at hchange
    obtain ⟨⟨rfl, rfl, -⟩, -⟩ := ite_ne_right_iff.mp hchange
    exact .inl ⟨e, hwrites⟩
  | enableWord r ctx' w v hwrites =>
    rw [getEnableBit_respond, getEnableBit_setEnableWord] at hchange
    obtain ⟨⟨rfl, rfl, -⟩, -⟩ := ite_ne_right_iff.mp hchange
    exact .inr ⟨v, hwrites⟩
  | _ => exact absurd (getEnableBit_congr (by simp) (by simp) ctx irq) hchange

/-- A threshold changes only where a request writes it, and holds what is written (R17). -/
theorem Effect.writesThreshold (h : Effect s i t) {ctx : Nat} (hchange : getThreshold t ctx ≠ getThreshold s ctx) :
    WritesThreshold s.cfg ctx (getThreshold t ctx) i := by
  cases h with
  | threshold r ctx' v hwrites =>
    rw [getThreshold_respond, getThreshold_setThreshold] at hchange ⊢
    obtain ⟨hctx, -⟩ := ite_ne_right_iff.mp hchange
    rw [if_pos hctx]
    obtain ⟨rfl, -⟩ := hctx
    exact hwrites
  | _ => exact absurd (getThreshold_congr (by simp) (by simp) ctx) hchange

/-- Which requests write a claim cell, and what (R18). -/
inductive WritesClaimCell (s : State) (ctx : Nat) : Instr → Word → Prop where
  | set (v : Word) : WritesClaimCell s ctx (.setClaim ctx v) v
  | complete {i : Instr} (h : IsCompletion s.cfg ctx i) : WritesClaimCell s ctx i 0
  | claim {i : Instr} {form : ClaimForm} (hatomic : s.cfg.claimAtomicity = .atomic) (hbest : best s ctx ≠ 0)
      (h : IsClaimRequest s.cfg ctx form i) : WritesClaimCell s ctx i (BitVec.ofNat 32 (best s ctx))

/-- A request leaves the claim cells, or writes one of them. -/
theorem Effect.claim_cases (h : Effect s i t) :
    t.claim = s.claim ∨ ∃ ctx v, WritesClaimCell s ctx i v ∧ t.claim = (setClaim s ctx v).claim := by
  cases h with
  | claimCell r ctx v hwrites =>
    obtain rfl | ⟨rfl, hcompletion⟩ := hwrites
    · exact .inr ⟨ctx, v, .set v, rfl⟩
    · exact .inr ⟨ctx, 0, .complete hcompletion, rfl⟩
  | claim ctx form hclaim =>
    obtain ⟨-, hsame⟩ | ⟨hatomic, hbest, -, hcommit⟩ := beginClaim_writes form ctx s
    · exact .inl hsame
    · exact .inr ⟨ctx, _, .claim hatomic hbest hclaim, hcommit.trans (commitClaim_claim s ctx _)⟩
  | _ => exact .inl (by simp)

/-- A cell that a write of one cell has changed is that cell and holds the value written. -/
theorem getClaim_of_claim_eq_setClaim {ctx c : Nat} {v : Word} (hcfg : t.cfg = s.cfg)
    (h : t.claim = (setClaim s ctx v).claim) (hchange : getClaim t c ≠ getClaim s c) :
    ctx = c ∧ getClaim t c = v := by
  rw [getClaim_congr (by simpa using hcfg) h, getClaim_setClaim] at hchange ⊢
  obtain ⟨hctx, -⟩ := ite_ne_right_iff.mp hchange
  rw [if_pos hctx]
  exact ⟨hctx.1.symm, rfl⟩

/-- A claim cell changes only where a request writes it, and holds what is written (R18). -/
theorem Effect.writesClaimCell (h : Effect s i t) {ctx : Nat} (hchange : getClaim t ctx ≠ getClaim s ctx) :
    WritesClaimCell s ctx i (getClaim t ctx) := by
  obtain hsame | ⟨ctx', v, hwrites, hset⟩ := h.claim_cases
  · exact absurd (getClaim_congr h.cfg_eq hsame ctx) hchange
  · obtain ⟨rfl, hv⟩ := getClaim_of_claim_eq_setClaim h.cfg_eq hset hchange
    exact hv ▸ hwrites

end

/-! Claim cells that hold irq ids (10_state.md R29). -/

section
variable {s t : State}

/-- An irq id is the number of its word. -/
theorem toNat_irq_le {n : Nat} (h : n ≤ 511) : (BitVec.ofNat 32 n).toNat ≤ 511 := by
  simp only [BitVec.toNat_ofNat]
  omega

theorem claimCellsAreIrqs_of_claim_eq (h : claimCellsAreIrqs s) (hclaim : t.claim = s.claim) :
    claimCellsAreIrqs t := by
  simpa only [claimCellsAreIrqs, hclaim] using h

theorem claimCellsAreIrqs_setClaim (h : claimCellsAreIrqs s) (ctx : Nat) {v : Word} (hv : v.toNat ≤ 511) :
    claimCellsAreIrqs (setClaim s ctx v) := by
  unfold setClaim
  split
  · intro c hc
    rw [Vector.getElem_set]
    split
    · exact hv
    · exact h c hc
  · exact h

/-- Every write of a claim cell but a raw SET_CLAIM is of 0 or of a winner. -/
theorem WritesClaimCell.toNat_le {ctx : Nat} {i : Instr} {v : Word} (h : WritesClaimCell s ctx i v)
    (hraw : ∀ ctx v, i ≠ .setClaim ctx v) : v.toNat ≤ 511 := by
  cases h with
  | set => exact absurd rfl (hraw ctx v)
  | complete => simp
  | claim => exact toNat_irq_le (best_le s ctx)

theorem exec_claimCellsAreIrqs {i : Instr} (hraw : ∀ ctx v, i ≠ .setClaim ctx v) (hs : claimCellsAreIrqs s)
    (h : exec i s = .next t) : claimCellsAreIrqs t := by
  obtain hsame | ⟨ctx, v, hwrites, hset⟩ := (Effect.of_exec h).claim_cases
  · exact claimCellsAreIrqs_of_claim_eq hs hsame
  · exact claimCellsAreIrqs_of_claim_eq (claimCellsAreIrqs_setClaim hs ctx (hwrites.toNat_le hraw)) hset

theorem advanceClaim_claimCellsAreIrqs (choice : ClaimChoice) {c : ClaimInFlight} (hc : claimOk c)
    (hs : claimCellsAreIrqs s) : claimCellsAreIrqs (advanceClaim choice c s) := by
  obtain hsame | ⟨-, hset⟩ := advanceClaim_claim_cases choice c s
  · exact claimCellsAreIrqs_of_claim_eq hs hsame
  · obtain ⟨hbest, -⟩ := hc
    exact claimCellsAreIrqs_of_claim_eq (claimCellsAreIrqs_setClaim hs c.ctx (toNat_irq_le hbest)) hset

end

/-- Settles O47: but for SET_CLAIM a claim cell is written with 0 or a winner
(`WritesClaimCell.toNat_le`). -/
theorem claimCellsHoldIrqsUnlessWrittenRaw : Obligations.ClaimCellsHoldIrqsUnlessWrittenRaw :=
  ⟨fun _ _ _ => exec_claimCellsAreIrqs, fun choice _ _ => advanceClaim_claimCellsAreIrqs choice⟩

/-- Settles O48, by `Effect.writesPriority`. -/
theorem onlyPriorityWritesChangeAPriority : Obligations.OnlyPriorityWritesChangeAPriority := by
  refine ⟨fun i s t irq hexec hchange => ?_, fun choice c s irq => getPrio_congr (by simp) irq⟩
  obtain ⟨p, hport | ⟨k, hrow, hk⟩ | ⟨v, hmmio, -⟩⟩ := (Effect.of_exec hexec).writesPriority hchange
  · exact .inl ⟨p, hport⟩
  · exact .inr (.inl ⟨k, p, hrow, hk⟩)
  · exact .inr (.inr ⟨v, hmmio⟩)

/-- The low 32 bits of a written number are its bits (43_mmio_front_end.md R149). -/
theorem getLsbD_writeValue (n b : Nat) (hb : b < 32) : (writeValue n).getLsbD b = n.testBit b := by
  rw [writeValue, BitVec.getLsbD_ofNat, decide_eq_true hb, Bool.true_and]

/-- The low 32 bits of a written number are its residue (R149). -/
theorem writeValue_eq_mod (n : Nat) : writeValue n = BitVec.ofNat 32 (n % 2 ^ 32) :=
  BitVec.eq_of_toNat_eq (by simp [writeValue])

/-- Settles O49: the requests by `Effect.changesPending`, the moves by `advanceClaim_pending_cases`. -/
theorem onlyTheseRequestsChangeAPendingFlag : Obligations.OnlyTheseRequestsChangeAPendingFlag := by
  refine ⟨fun i s t irq hexec hchange => ?_, fun choice c s irq hchange => ?_⟩
  · generalize hvalue : getPending t irq = value
    have hcause := hvalue ▸ (Effect.of_exec hexec).changesPending hchange
    cases hcause with
    | set => exact .inl ⟨rfl, rfl⟩
    | clear => exact .inr (.inl ⟨rfl, rfl⟩)
    | word hwrites =>
      obtain rfl | ⟨k, rfl, hk⟩ | ⟨n, rfl, rfl⟩ := hwrites
      · exact .inr (.inr (.inl ⟨_, rfl, rfl⟩))
      · exact .inr (.inr (.inr (.inl ⟨k, _, rfl, hk, rfl⟩)))
      · exact .inr (.inr (.inr (.inr (.inl ⟨n, rfl, getLsbD_writeValue n _ (Nat.mod_lt _ (by decide))⟩))))
    | claim hatomic hbest hclaim => exact .inr (.inr (.inr (.inr (.inr ⟨hatomic, rfl, _, _, hbest, hclaim⟩))))
  · obtain hsame | ⟨hphase, hclear⟩ := advanceClaim_pending_cases choice c s
    · exact absurd (getPending_congr hsame irq) hchange
    · rw [getPending_congr hclear, getPending_setPendingFlag] at hchange ⊢
      obtain ⟨hirq, -⟩ := ite_ne_right_iff.mp hchange
      exact ⟨hphase, hirq.1, if_pos hirq⟩

/-- Settles O50, by `Effect.writesEnable`. -/
theorem onlyEnableWritesChangeAnEnableFlag : Obligations.OnlyEnableWritesChangeAnEnableFlag := by
  refine ⟨fun i s t ctx irq hexec hchange => ?_,
    fun choice c s ctx irq => getEnableBit_congr (by simp) (by simp) ctx irq⟩
  obtain hflag | ⟨v, hport | ⟨k, w, hrow, hk, hw⟩ | ⟨n, hmmio, -⟩⟩ := (Effect.of_exec hexec).writesEnable hchange
  · exact .inl hflag
  · exact .inr (.inl ⟨v, hport⟩)
  · exact .inr (.inr (.inl ⟨k, w, v, hrow, hk, hw⟩))
  · exact .inr (.inr (.inr ⟨n, hmmio⟩))

/-- Settles O59, by `Effect.writesThreshold`. -/
theorem onlyThresholdWritesChangeAThreshold : Obligations.OnlyThresholdWritesChangeAThreshold := by
  refine ⟨fun i s t ctx hexec hchange => ?_, fun choice c s ctx => getThreshold_congr (by simp) (by simp) ctx⟩
  obtain hport | hrow | ⟨n, hmmio, hvalue⟩ := (Effect.of_exec hexec).writesThreshold hchange
  · exact .inl hport
  · exact .inr (.inl hrow)
  · exact .inr (.inr ⟨n, hmmio, hvalue.trans (writeValue_eq_mod n)⟩)

/-- Settles O60: the requests by `Effect.writesClaimCell`, the moves by `advanceClaim_claim_cases`. -/
theorem onlyTheseRequestsChangeAClaimCell : Obligations.OnlyTheseRequestsChangeAClaimCell := by
  refine ⟨fun i s t ctx hexec hchange => ?_, fun choice c s ctx hchange => ?_⟩
  · generalize hvalue : getClaim t ctx = value
    have hcause := hvalue ▸ (Effect.of_exec hexec).writesClaimCell hchange
    cases hcause with
    | set => exact .inl rfl
    | complete hcompletion => exact .inr (.inl ⟨rfl, hcompletion⟩)
    | claim hatomic hbest hclaim => exact .inr (.inr ⟨hatomic, hbest, rfl, _, hclaim⟩)
  · obtain hsame | ⟨hphase, hset⟩ := advanceClaim_claim_cases choice c s
    · exact absurd (getClaim_congr (by simp) hsame ctx) hchange
    · exact ⟨hphase, getClaim_of_claim_eq_setClaim (by simp) hset hchange⟩

end Sys2Proof.Machine
end

section
/-! The offsets of 10_state.md R19, the forms of a step of R24, and the state right after construction (R30). -/

namespace Sys2Proof.Machine

/-! The offset of each register decodes to it, over the whole decoded index range (30_encoding.md R54 to R57). -/

theorem decodeOffset_priorityOffset {irq : Nat} (h : irq ≤ 1023) :
    decodeOffset (priorityOffset irq) = .priority irq := by
  have hregion : 4 * irq < 0x1000 := by omega
  have hirq : 4 * irq / 4 = irq := by omega
  simp only [decodeOffset, priorityOffset, pendingBase, hregion, if_true, hirq]

theorem decodeOffset_pendingOffset {w : Nat} (h : w ≤ 1023) : decodeOffset (pendingOffset w) = .pending w := by
  have hbelow : ¬ 0x1000 + 4 * w < 0x1000 := by omega
  have hregion : 0x1000 + 4 * w < 0x2000 := by omega
  have hw : (0x1000 + 4 * w - 0x1000) / 4 = w := by omega
  simp only [decodeOffset, pendingOffset, pendingBase, enableBase, hbelow, hregion, if_true, if_false, hw]

theorem decodeOffset_enableOffset {ctx w : Nat} (hctx : ctx ≤ 16319) (hw : w ≤ 31) :
    decodeOffset (enableOffset ctx w) = .enable ctx w := by
  have hpriority : ¬ 0x2000 + 0x80 * ctx + 4 * w < 0x1000 := by omega
  have hpending : ¬ 0x2000 + 0x80 * ctx + 4 * w < 0x2000 := by omega
  have hregion : 0x2000 + 0x80 * ctx + 4 * w < 0x200000 := by omega
  have hblock : (0x2000 + 0x80 * ctx + 4 * w - 0x2000) / 0x80 = ctx := by omega
  have hword : (0x2000 + 0x80 * ctx + 4 * w - 0x2000) % 0x80 / 4 = w := by omega
  simp only [decodeOffset, enableOffset, pendingBase, enableBase, contextBase, enableStride, hpriority, hpending,
    hregion, if_true, if_false, hblock, hword]

/-- An offset in the threshold/claim region is decoded by its block and its local offset (R57). -/
theorem decodeOffset_contextBlock {ctx loc : Nat} (hctx : ctx ≤ 511) (hloc : loc < 0x1000) :
    decodeOffset (contextBase + contextStride * ctx + loc) =
      if loc = 0 then .threshold ctx else if loc = 4 then .claim ctx else .noRegister := by
  have hrel : 0x200000 + 0x1000 * ctx + loc - 0x200000 = 0x1000 * ctx + loc := by omega
  have hlocal : (0x1000 * ctx + loc) % 0x1000 = loc := by omega
  have hblock : (0x1000 * ctx + loc) / 0x1000 = ctx := by omega
  simp only [decodeOffset, pendingBase, enableBase, contextBase, windowLength, contextStride]
  rw [if_neg (by omega), if_neg (by omega), if_neg (by omega), if_pos (by omega)]
  simp only [decodeContextBlock, contextStride, hrel, hlocal, hblock]

theorem decodeOffset_thresholdOffset {ctx : Nat} (h : ctx ≤ 511) :
    decodeOffset (thresholdOffset ctx) = .threshold ctx :=
  decodeOffset_contextBlock h (loc := 0) (by omega)

theorem decodeOffset_claimOffset {ctx : Nat} (h : ctx ≤ 511) : decodeOffset (claimOffset ctx) = .claim ctx :=
  decodeOffset_contextBlock h (loc := 4) (by omega)

/-- Settles O5, register kind by register kind. -/
theorem registerOffsetsDecodeToTheirRegister : Obligations.RegisterOffsetsDecodeToTheirRegister :=
  ⟨fun _ => decodeOffset_priorityOffset, fun _ => decodeOffset_pendingOffset, fun _ _ => decodeOffset_enableOffset,
    fun _ => decodeOffset_thresholdOffset, fun _ => decodeOffset_claimOffset⟩

/-! The forms of a step. -/

section
variable {s : State}

theorem step_of_schedule_nil (h : s.schedule = []) : step s = .next s := by
  simp only [step, h]

theorem step_of_schedule_cons {turn : Turn} {rest : List Turn} (h : s.schedule = turn :: rest) :
    step s = takeTurn turn.choice (startTurn turn rest s) := by
  simp only [step, h]

theorem takeTurn_of_findClaim_none {choice : ClaimChoice} (h : findClaim s.agent s.inflight = none) :
    takeTurn choice s = issueNext s := by
  simp only [takeTurn, h]

theorem issueNext_of_no_request (h : takeRequest s.agent s.requests = none) : issueNext s = .next s := by
  simp only [issueNext, h]

theorem issueNext_of_request {r : Request} {requests : List Issued} {i : Instr}
    (hrequest : takeRequest s.agent s.requests = some (r, requests)) (hdecode : decode r = .ok i) :
    issueNext s = exec i { s with requests := requests } := by
  simp only [issueNext, hrequest, hdecode]

/-- The turn of an agent with nothing in flight issues its next request. -/
theorem step_of_idle_agent {turn : Turn} {rest : List Turn} (hschedule : s.schedule = turn :: rest)
    (hidle : findClaim turn.agent s.inflight = none) : step s = issueNext (startTurn turn rest s) := by
  rw [step_of_schedule_cons hschedule, takeTurn_of_findClaim_none (by simpa using hidle)]

end

/-- An agent has no next request exactly when none in the list is its own. -/
theorem takeRequest_eq_none_iff {a : Nat} {l : List Issued} : takeRequest a l = none ↔ ∀ i ∈ l, i.agent ≠ a := by
  induction l with
  | nil => simp [takeRequest]
  | cons i l ih =>
    by_cases h : i.agent = a
    · simp [takeRequest, h]
    · simp [takeRequest_skip l h, ih, h]

/-- Settles O7: the turn is taken (`step_of_idle_agent`) and the request issued (`issueNext_of_request`). -/
theorem stepRunsTheDecodedRequest : Obligations.StepRunsTheDecodedRequest := by
  intro s turn rest r requests i hschedule hidle hrequest hdecode
  rw [step_of_idle_agent hschedule hidle, issueNext_of_request (by simpa using hrequest) hdecode]
  rfl

/-- Settles O11: there is no turn, or no request to issue in it (`issueNext_of_no_request`). -/
theorem idleMovesChangeNoRegister : Obligations.IdleMovesChangeNoRegister := by
  refine fun s => ⟨step_of_schedule_nil, fun turn rest hschedule hidle hnone => ?_⟩
  have hrequest : takeRequest turn.agent s.requests = none := takeRequest_eq_none_iff.mpr hnone
  rw [step_of_idle_agent hschedule hidle, issueNext_of_no_request (by simpa using hrequest)]
  rfl

/-! The state right after construction. -/

/-- With no source pending the scan finds no candidate. -/
theorem scanUpTo_of_nothing_pending {s : State} (h : ∀ irq, getPending s irq = false) (ctx n : Nat) :
    scanUpTo s ctx n = ⟨0, 0⟩ := by
  induction n with
  | zero => rfl
  | succ n ih =>
    rw [scanUpTo_succ, ih]
    obtain hkept | ⟨-, hpending, -⟩ := scanStep_cases s ctx ⟨0, 0⟩ (n + 1)
    · exact hkept
    · simp [h] at hpending

theorem best_of_nothing_pending {s : State} (h : ∀ irq, getPending s irq = false) (ctx : Nat) : best s ctx = 0 :=
  congrArg Candidate.irq (scanUpTo_of_nothing_pending h ctx maxIrq)

/-- An atomic claim on a context with no winner answers `None` and changes nothing (42_claim_complete.md R112). -/
theorem beginClaim_of_no_winner {s : State} {ctx : Nat} (form : ClaimForm)
    (hatomic : s.cfg.claimAtomicity = .atomic) (h : best s ctx = 0) :
    beginClaim form ctx s = respond (claimResponse form none) s := by
  simp [beginClaim_atomic form ctx hatomic, claimAtomic, winnerOf, h]

section
variable (cfg : Config) (ctx irq : Nat)

@[simp] theorem getPrio_initial : getPrio (State.initial cfg) irq = 0 := by
  simp [getPrio, State.initial]

@[simp] theorem getPending_initial : getPending (State.initial cfg) irq = false := by
  simp [getPending, State.initial]

@[simp] theorem enableOf_initial : enableOf (State.initial cfg) ctx = 0 := by
  simp [enableOf, State.initial]

@[simp] theorem getEnableBit_initial : getEnableBit (State.initial cfg) ctx irq = false := by
  simp [getEnableBit]

@[simp] theorem getThreshold_initial : getThreshold (State.initial cfg) ctx = 0 := by
  simp [getThreshold, State.initial]

@[simp] theorem getClaim_initial : getClaim (State.initial cfg) ctx = 0 := by
  simp [getClaim, State.initial]

end

/-- Settles O42: every getter reads zero, and with nothing pending a claim has no winner. -/
theorem constructionLeavesEverythingZero : Obligations.ConstructionLeavesEverythingZero := by
  refine fun cfg => ⟨fun irq => ⟨getPrio_initial cfg irq, getPending_initial cfg irq⟩, getEnableBit_initial cfg,
    fun ctx => ⟨getThreshold_initial cfg ctx, getClaim_initial cfg ctx⟩, rfl, fun ctx hatomic => ?_⟩
  have hbest : best (State.initial cfg) ctx = 0 := best_of_nothing_pending (getPending_initial cfg) ctx
  rw [exec_claimRequest (.inl ⟨rfl, rfl⟩), beginClaim_of_no_winner .port hatomic hbest]
  rfl

end Sys2Proof.Machine
end

section
/-! Program order (20_memory.md section 6), and what a read and a repeated write change (section 3). -/

namespace Sys2Proof.Machine

/-! Taking the next request of an agent (R44). -/

/-- The request taken is the agent's first: those before it are all of other agents. -/
theorem takeRequest_eq_some {a : Nat} {l rest : List Issued} {r : Request} (h : takeRequest a l = some (r, rest)) :
    ∃ before after, l = before ++ ⟨a, r⟩ :: after ∧ rest = before ++ after ∧ ∀ i ∈ before, i.agent ≠ a := by
  induction l generalizing rest with
  | nil => cases h
  | cons i l ih =>
    by_cases hi : i.agent = a
    · obtain ⟨agent, request⟩ := i
      obtain rfl : agent = a := hi
      rw [takeRequest_head] at h
      cases h
      exact ⟨[], l, rfl, rfl, by simp⟩
    · rw [takeRequest_skip l hi] at h
      obtain ⟨⟨r', rest'⟩, htake, heq⟩ := Option.map_eq_some_iff.mp h
      cases heq
      obtain ⟨before, after, rfl, rfl, hbefore⟩ := ih htake
      exact ⟨i :: before, after, rfl, rfl, List.forall_mem_cons.mpr ⟨hi, hbefore⟩⟩

/-- Settles O9: `takeRequest_eq_some` says where the request taken stood, `takeRequest_eq_none_iff` when there is
none. -/
theorem agentsKeepProgramOrder : Obligations.AgentsKeepProgramOrder := by
  refine fun a l => ⟨fun r rest htake => ?_, takeRequest_eq_none_iff⟩
  obtain ⟨before, after, rfl, rfl, hbefore⟩ := takeRequest_eq_some htake
  have hnone : before.filter (fun i => i.agent == a) = [] := List.filter_eq_nil_iff.mpr (by simpa using hbefore)
  refine ⟨by simp [hnone], fun b hb => ?_⟩
  simp [hb.symm]

/-- The turn of an agent with a claim in flight is one move of that claim. -/
theorem step_of_busy_agent {s : State} {turn : Turn} {rest : List Turn} {c : ClaimInFlight}
    (hschedule : s.schedule = turn :: rest) (hbusy : findClaim turn.agent s.inflight = some c) :
    step s = .next (advanceClaim turn.choice c (startTurn turn rest s)) := by
  simp only [step_of_schedule_cons hschedule, takeTurn, startTurn_agent, startTurn_inflight, hbusy]

/-- Settles O10: the step is the claim's move (`step_of_busy_agent`), and no such move takes a request. -/
theorem busyAgentFinishesBeforeItsNextRequest : Obligations.BusyAgentFinishesBeforeItsNextRequest :=
  fun _ turn _ c hschedule hbusy =>
    ⟨step_of_busy_agent hschedule hbusy, advanceClaim_requests turn.choice c _⟩

/-! Reads (R38). -/

/-- Only a serviced access at the offset of a claim register reaches one. -/
theorem eq_claimOffset_of_accessedRegister {cfg : Config} {addr width ctx : Nat}
    (h : accessedRegister cfg addr width = .claim ctx) :
    width = 4 ∧ ctx ≤ 511 ∧ addr = cfg.base + (0x200004 + 0x1000 * ctx) := by
  obtain hnone | ⟨rfl, off, -, haligned, rfl, hoff⟩ := accessedRegister_cases cfg addr width
  · cases hnone.symm.trans h
  · have hinv := decodeOffset_inv haligned
    rw [← hoff, h] at hinv
    obtain ⟨hctx, rfl⟩ := hinv
    exact ⟨rfl, hctx, rfl⟩

/-- A candidate that the scan has found is eligible (41_arbitration.md R100, R101). -/
theorem eligibleFor_scanUpTo (s : State) (ctx : Nat) {n : Nat} (hn : n ≤ 511) (hfound : (scanUpTo s ctx n).irq ≠ 0) :
    EligibleFor s ctx (scanUpTo s ctx n).irq := by
  induction n with
  | zero => exact absurd rfl hfound
  | succ n ih =>
    rw [scanUpTo_succ] at hfound ⊢
    obtain hkept | ⟨htaken, hpending, henable, hthreshold, -⟩ :=
      scanStep_cases s ctx (scanUpTo s ctx n) (n + 1)
    · rw [hkept] at hfound ⊢
      exact ih (by omega) hfound
    · rw [htaken]
      exact ⟨Nat.succ_pos n, hn, hpending, henable, hthreshold⟩

/-- The winner is eligible (R106). -/
theorem eligibleFor_best {s : State} {ctx : Nat} (h : best s ctx ≠ 0) : EligibleFor s ctx (best s ctx) :=
  eligibleFor_scanUpTo s ctx (Nat.le_refl 511) h

/-- A context with an eligible source has storage (40_store_ops.md R71). -/
theorem EligibleFor.ctx_lt {s : State} {ctx irq : Nat} (h : EligibleFor s ctx irq) : ctx < s.cfg.numContexts := by
  obtain ⟨-, -, -, henable, -⟩ := h
  by_contra hctx
  rw [getEnableBit_outOfRange s ctx irq hctx] at henable
  cases henable

/-- The commit of a winner takes a flag that was set. -/
theorem commitClaim_best_pending_ne {s : State} {ctx : Nat} (h : best s ctx ≠ 0) :
    (commitClaim s ctx (best s ctx)).pending ≠ s.pending := by
  intro hsame
  obtain ⟨-, hle, hset, -⟩ := eligibleFor_best h
  have hclear : getPending (commitClaim s ctx (best s ctx)) (best s ctx) = false := by
    rw [getPending_commitClaim, if_pos ⟨rfl, hle⟩]
  rw [getPending_congr hsame, hset] at hclear
  cases hclear

/-- The commit of a winner records it. -/
theorem getClaim_commitClaim_best {s : State} {ctx : Nat} (h : best s ctx ≠ 0) :
    getClaim (commitClaim s ctx (best s ctx)) ctx = BitVec.ofNat 32 (best s ctx) := by
  rw [getClaim_commitClaim, if_pos ⟨rfl, (eligibleFor_best h).ctx_lt⟩]

/-- An atomic claim on a context with a winner commits it and answers it. -/
theorem beginClaim_of_winner {s : State} {ctx : Nat} (form : ClaimForm) (hatomic : s.cfg.claimAtomicity = .atomic)
    (h : best s ctx ≠ 0) :
    beginClaim form ctx s =
      respond (claimResponse form (some (best s ctx))) (commitClaim s ctx (best s ctx)) := by
  simp [beginClaim_atomic form ctx hatomic, claimAtomic, winnerOf, h]

/-- Settles O39: a read that is no claim only answers (`readRegister_cases`), and the claim read of a context with a
winner commits it (`beginClaim_of_winner`). -/
theorem onlyAClaimReadHasASideEffect : Obligations.OnlyAClaimReadHasASideEffect := by
  refine fun s => ⟨fun addr width t hexec hchange => ?_, fun ctx hctx hatomic hbest => ?_⟩
  · obtain rfl := Host.Outcome.next.inj hexec
    obtain ⟨v, hanswer⟩ | ⟨ctx, hclaim, -⟩ := readRegister_cases (accessedRegister s.cfg addr width) s
    · rw [hanswer] at hchange
      exact absurd rfl hchange
    · obtain ⟨hwidth, hctx, haddr⟩ := eq_claimOffset_of_accessedRegister hclaim
      exact ⟨hwidth, ctx, hctx, haddr⟩
  · refine ⟨_, exec_claimRequest (.inr (.inr ⟨hctx, rfl, rfl⟩)), ?_⟩
    rw [beginClaim_of_winner .mmio hatomic hbest]
    exact ⟨commitClaim_best_pending_ne hbest, getClaim_commitClaim_best hbest⟩

/-! Writes (R39). -/

/-- A write that a second one with the same operands leaves as it is, whatever has been answered in between. -/
structure RepeatableWrite (f : State → State) : Prop where
  afterAnswer : ∀ r s, f (respond r s) = respond r (f s)
  again : ∀ s, f (f s) = f s

/-- A request that is a repeatable write with a fixed answer, at the parameters of its state, can be performed
again. -/
theorem RepeatableWrite.exec_again {f : State → State} (hf : RepeatableWrite f) {i : Instr} {r : Response}
    {s t : State} (hwrite : ∀ u, u.cfg = s.cfg → exec i u = .next (respond r (f u))) (h : exec i s = .next t) :
    exec i t = .next t := by
  have ht : respond r (f s) = t := Host.Outcome.next.inj ((hwrite s rfl).symm.trans h)
  calc
    exec i t = .next (respond r (f t)) := hwrite t (exec_cfg h)
    _ = .next (respond r (respond r (f s))) := by rw [← ht, hf.afterAnswer, hf.again]
    _ = .next t := congrArg _ ht

@[simp] theorem setFlag_setFlag (f : IrqSet) (irq : Nat) (e : Bool) :
    setFlag (setFlag f irq e) irq e = setFlag f irq e := by
  refine irqSet_ext fun j hj => ?_
  simp only [flag_setFlag _ _ _ _ hj]
  split <;> rfl

@[simp] theorem setFlagWord_setFlagWord (f : IrqSet) (w : Nat) (v : Word) :
    setFlagWord (setFlagWord f w v) w v = setFlagWord f w v := by
  refine irqSet_ext fun j hj => ?_
  simp only [flag_setFlagWord _ _ _ _ hj]
  split <;> rfl

/-! Each setter, whether its index is in range or the write is dropped (40_store_ops.md R71). -/

theorem repeatableWrite_id : RepeatableWrite fun s => s := ⟨fun _ _ => rfl, fun _ => rfl⟩

theorem repeatableWrite_setPrio (irq : Nat) (p : Word) : RepeatableWrite (setPrio · irq p) where
  afterAnswer r s := by by_cases h : irq ≤ 511 <;> simp [setPrio, respond, h]
  again s := by by_cases h : irq ≤ 511 <;> simp [setPrio, h]

theorem repeatableWrite_setPendingFlag (irq : Nat) (e : Bool) : RepeatableWrite (setPendingFlag · irq e) where
  afterAnswer r s := by by_cases h : irq ≤ 511 <;> simp [setPendingFlag, respond, h]
  again s := by by_cases h : irq ≤ 511 <;> simp [setPendingFlag, h]

theorem repeatableWrite_setPendingWord (w : Nat) (v : Word) : RepeatableWrite (setPendingWord · w v) where
  afterAnswer r s := by by_cases h : w < 16 <;> simp [setPendingWord, respond, h]
  again s := by by_cases h : w < 16 <;> simp [setPendingWord, h]

/-- An update of a context's enable bitmap can be repeated if it can as an update of a bitmap. -/
theorem repeatableWrite_setEnableOf (ctx : Nat) (g : IrqSet → IrqSet) (hg : ∀ f, g (g f) = g f) :
    RepeatableWrite fun s => setEnableOf s ctx (g (enableOf s ctx)) where
  afterAnswer r s := by by_cases h : ctx < s.cfg.numContexts <;> simp [setEnableOf, enableOf, respond, h]
  again s := by by_cases h : ctx < s.cfg.numContexts <;> simp [setEnableOf, enableOf, h, hg]

theorem repeatableWrite_setEnableBit (ctx irq : Nat) (e : Bool) : RepeatableWrite (setEnableBit · ctx irq e) := by
  unfold setEnableBit
  split
  · exact repeatableWrite_setEnableOf ctx (setFlag · irq e) fun f => setFlag_setFlag f irq e
  · exact repeatableWrite_id

theorem repeatableWrite_setEnableWord (ctx w : Nat) (v : Word) : RepeatableWrite (setEnableWord · ctx w v) := by
  unfold setEnableWord
  split
  · exact repeatableWrite_setEnableOf ctx (setFlagWord · w v) fun f => setFlagWord_setFlagWord f w v
  · exact repeatableWrite_id

theorem repeatableWrite_setThreshold (ctx : Nat) (v : Word) : RepeatableWrite (setThreshold · ctx v) where
  afterAnswer r s := by by_cases h : ctx < s.cfg.numContexts <;> simp [setThreshold, respond, h]
  again s := by by_cases h : ctx < s.cfg.numContexts <;> simp [setThreshold, h]

theorem repeatableWrite_setClaim (ctx : Nat) (v : Word) : RepeatableWrite (setClaim · ctx v) where
  afterAnswer r s := by by_cases h : ctx < s.cfg.numContexts <;> simp [setClaim, respond, h]
  again s := by by_cases h : ctx < s.cfg.numContexts <;> simp [setClaim, h]

/-- Every register is written by a repeatable write (43_mmio_front_end.md R133). -/
theorem writeRegister_eq_repeatableWrite (reg : Register) (v : Word) :
    ∃ f, RepeatableWrite f ∧ ∀ s, writeRegister reg v s = answerWrite (f s) := by
  cases reg with
  | priority irq => exact ⟨_, repeatableWrite_setPrio irq v, fun _ => rfl⟩
  | pending w => exact ⟨_, repeatableWrite_setPendingWord w v, fun _ => rfl⟩
  | enable ctx w => exact ⟨_, repeatableWrite_setEnableWord ctx w v, fun _ => rfl⟩
  | threshold ctx => exact ⟨_, repeatableWrite_setThreshold ctx v, fun _ => rfl⟩
  | claim ctx => exact ⟨_, repeatableWrite_setClaim ctx 0, fun _ => rfl⟩
  | noRegister => exact ⟨_, repeatableWrite_id, fun _ => rfl⟩

/-- Every write request is a repeatable write with a fixed answer; which register an MMIO write reaches depends on
the parameters. -/
theorem exec_eq_repeatableWrite {i : Instr} (h : isWriteRequest i = true) (cfg : Config) :
    ∃ f r, RepeatableWrite f ∧ ∀ s, s.cfg = cfg → exec i s = .next (respond r (f s)) := by
  cases i with
  | priorityW irq v => exact ⟨_, _, repeatableWrite_setPrio irq.toNat v, fun _ _ => rfl⟩
  | pendingW w v => exact ⟨_, _, repeatableWrite_setPendingWord w.toNat v, fun _ _ => rfl⟩
  | enableW ctx w v => exact ⟨_, _, repeatableWrite_setEnableWord ctx.toNat w.toNat v, fun _ _ => rfl⟩
  | thresholdW ctx v => exact ⟨_, _, repeatableWrite_setThreshold ctx.toNat v, fun _ _ => rfl⟩
  | claimW ctx v => exact ⟨_, _, repeatableWrite_setClaim ctx.toNat 0, fun _ _ => rfl⟩
  | noregW ctx word v => exact ⟨_, _, repeatableWrite_id, fun _ _ => rfl⟩
  | unservicedW w4 off v => exact ⟨_, _, repeatableWrite_id, fun _ _ => rfl⟩
  | setPrio irq p => exact ⟨_, _, repeatableWrite_setPrio irq p, fun _ _ => rfl⟩
  | setPending irq => exact ⟨_, _, repeatableWrite_setPendingFlag irq true, fun _ _ => rfl⟩
  | clearPending irq => exact ⟨_, _, repeatableWrite_setPendingFlag irq false, fun _ _ => rfl⟩
  | setPendingWord w v => exact ⟨_, _, repeatableWrite_setPendingWord w v, fun _ _ => rfl⟩
  | setEnableBit ctx irq e => exact ⟨_, _, repeatableWrite_setEnableBit ctx irq e, fun _ _ => rfl⟩
  | setEnableWord ctx w v => exact ⟨_, _, repeatableWrite_setEnableWord ctx w v, fun _ _ => rfl⟩
  | setThreshold ctx v => exact ⟨_, _, repeatableWrite_setThreshold ctx v, fun _ _ => rfl⟩
  | setClaim ctx v => exact ⟨_, _, repeatableWrite_setClaim ctx v, fun _ _ => rfl⟩
  | completeIrq ctx v => exact ⟨_, _, repeatableWrite_setClaim ctx 0, fun _ _ => rfl⟩
  | mmioWrite addr width v =>
    obtain ⟨f, hf, hreg⟩ := writeRegister_eq_repeatableWrite (accessedRegister cfg addr width) (writeValue v)
    refine ⟨f, .ack .success, hf, fun s hcfg => ?_⟩
    rw [exec, execMmioWrite, hcfg, hreg, answerWrite]
  | _ => exact absurd h Bool.false_ne_true

/-- Settles O40: every write request is a repeatable write (`exec_eq_repeatableWrite`). -/
theorem writesAreIdempotent : Obligations.WritesAreIdempotent := by
  intro i s t hrequest h
  obtain ⟨f, r, hf, hwrite⟩ := exec_eq_repeatableWrite hrequest s.cfg
  exact hf.exec_again hwrite h

end Sys2Proof.Machine
end

section
/-! The table of 30_encoding.md R61 as what a transaction selects (its register or none, with the index fields), read
or write apart: the row pairs of the table, the fields of the selector word, and the port operations of R62. -/

namespace Sys2Proof

/-- What an MMIO transaction selects: the pair of rows of R61 with its index fields. -/
inductive Selection where
  | priority (irq : BitVec 10)
  | pending (w : BitVec 10)
  | threshold (ctx : BitVec 9)
  | claim (ctx : BitVec 9)
  | noreg (ctx : BitVec 9) (word : BitVec 10)
  | enable (ctx : BitVec 14) (w : BitVec 5)
  | unserviced (w4 : Bool) (off : Offset)

namespace Selection

/-- The request that reads what is selected. -/
def read : Selection → Instr
  | .priority irq => .priorityR irq
  | .pending w => .pendingR w
  | .threshold ctx => .thresholdR ctx
  | .claim ctx => .claimR ctx
  | .noreg ctx word => .noregR ctx word
  | .enable ctx w => .enableR ctx w
  | .unserviced w4 off => .unservicedR w4 off

/-- The request that writes what is selected. -/
def write (value : Word) : Selection → Instr
  | .priority irq => .priorityW irq value
  | .pending w => .pendingW w value
  | .threshold ctx => .thresholdW ctx value
  | .claim ctx => .claimW ctx value
  | .noreg ctx word => .noregW ctx word value
  | .enable ctx w => .enableW ctx w value
  | .unserviced w4 off => .unservicedW w4 off value

/-- The row of R61, for a read and for a write. -/
def row (isWrite : Bool) : Selection → SelRow
  | .priority _ => bif isWrite then .priorityW else .priorityR
  | .pending _ => bif isWrite then .pendingW else .pendingR
  | .threshold _ => bif isWrite then .thresholdW else .thresholdR
  | .claim _ => bif isWrite then .claimW else .claimR
  | .noreg _ _ => bif isWrite then .noregW else .noregR
  | .enable _ _ => bif isWrite then .enableW else .enableR
  | .unserviced _ _ => bif isWrite then .unservicedW else .unservicedR

/-- The width bit of the selector words that select it (R51). -/
def w4 : Selection → Bool
  | .unserviced w4 _ => w4
  | _ => true

/-- The offset of the selector words that select it (R53 to R58). -/
def off : Selection → Offset
  | .priority irq => priorityOff irq
  | .pending w => pendingOff w
  | .threshold ctx => contextOff ctx 0
  | .claim ctx => contextOff ctx 4
  | .noreg ctx word => noregOff ctx word
  | .enable ctx w => enableOff ctx w
  | .unserviced _ off => off

/-- The number of the offset (10_state.md R19). -/
def offset : Selection → Nat
  | .priority irq => 4 * irq.toNat
  | .pending w => 0x1000 + 4 * w.toNat
  | .threshold ctx => 0x200000 + 0x1000 * ctx.toNat
  | .claim ctx => 0x200000 + 0x1000 * ctx.toNat + 4
  | .noreg ctx word => 0x200000 + 0x1000 * ctx.toNat + 4 * word.toNat
  | .enable ctx w => 0x2000 + 0x80 * ctx.toNat + 4 * w.toNat
  | .unserviced _ off => off.toNat

/-- The index ranges of R56, R57 and R131. -/
def wf (x : Selection) : Bool := x.read.wf

theorem wf_write (x : Selection) (v : Word) : (x.write v).wf = x.wf := by cases x <;> rfl

theorem encode_read (x : Selection) : encode x.read = .mmio (selWord false x.w4 x.off) [] := by cases x <;> rfl

theorem encode_write (x : Selection) (v : Word) :
    encode (x.write v) = .mmio (selWord true x.w4 x.off) [v.toNat] := by
  cases x <;> rfl

/-- A transaction that is not serviced is narrow or misaligned (R131). -/
theorem wf_unserviced_iff {w4 : Bool} {off : Offset} :
    (Selection.unserviced w4 off).wf = true ↔ (w4 = true → off.toNat % 4 ≠ 0) := by
  cases w4 <;> simp [wf, read, Instr.wf, unservicedOk]

theorem wf_noreg_iff {ctx : BitVec 9} {word : BitVec 10} :
    (Selection.noreg ctx word).wf = true ↔ 2 ≤ word.toNat := decide_eq_true_iff

theorem wf_enable_iff {ctx : BitVec 14} {w : BitVec 5} :
    (Selection.enable ctx w).wf = true ↔ ctx.toNat < 16320 := decide_eq_true_iff

theorem off_toNat {x : Selection} (h : x.wf = true) : x.off.toNat = x.offset := by
  cases x with
  | priority irq => exact priorityOff_toNat irq
  | pending w => exact pendingOff_toNat w
  | threshold ctx => exact contextOff_toNat ctx 0
  | claim ctx => exact contextOff_toNat ctx 4
  | noreg ctx word => exact noregOff_toNat ctx word
  | enable ctx w => exact enableOff_toNat ctx w (wf_enable_iff.mp h)
  | unserviced => rfl

end Selection

/-- The condition that a pair of rows tests beside the direction: 4 bytes wide, in the `n`-th block of `size` bytes of
the window, `m` above a multiple of `align`. -/
abbrev RowTest (sel : Selector) (size n align m : Nat) : Prop :=
  selW4 sel = true ∧ (selOff sel).toNat / size = n ∧ (selOff sel).toNat % align = m

/-- What a selector word selects: the row pairs of R61 in the order of the table. -/
def selection (sel : Selector) : Selection :=
  if RowTest sel 0x1000 0 4 0 then .priority (selIndex sel)
  else if RowTest sel 0x1000 1 4 0 then .pending (selIndex sel)
  else if RowTest sel 0x200000 1 0x1000 0 then .threshold (selContext sel)
  else if RowTest sel 0x200000 1 0x1000 4 then .claim (selContext sel)
  else if RowTest sel 0x200000 1 4 0 then .noreg (selContext sel) (selIndex sel)
  else if RowTest sel 0x200000 0 4 0 then .enable (selEnableContext sel) (selEnableWord sel)
  else .unserviced (selW4 sel) (selOff sel)

theorem bool_toNat_inj {a b : Bool} : a.toNat = b.toNat ↔ a = b := by cases a <;> cases b <;> decide

/-- A bit above a number below `k` can be read back. -/
theorem bit_above_inj {a b : Bool} {k m n : Nat} (hm : m < k) (hn : n < k) :
    a.toNat * k + m = b.toNat * k + n ↔ a = b ∧ m = n := by
  cases a <;> cases b <;> simp <;> omega

section
variable (sel p : Selector)

/-! The fields that the masks test, by the fields of R51. -/

theorem selector_fields_lt :
    (selIsWrite sel).toNat < 2 ∧ (selW4 sel).toNat < 2 ∧ (selOff sel).toNat < 2 ^ 22 :=
  ⟨Bool.toNat_lt _, Bool.toNat_lt _, (selOff sel).isLt⟩

theorem selector_bits_12_to_23 :
    sel.toNat / 2 ^ 12 % 2 ^ 12 =
      (selIsWrite sel).toNat * 2 ^ 11 + ((selW4 sel).toNat * 2 ^ 10 + (selOff sel).toNat / 0x1000) := by
  have hlt := selector_fields_lt sel
  rw [selector_toNat]
  omega

theorem selector_bits_21_to_23 :
    sel.toNat / 2 ^ 21 % 2 ^ 3 =
      (selIsWrite sel).toNat * 2 ^ 2 + ((selW4 sel).toNat * 2 ^ 1 + (selOff sel).toNat / 0x200000) := by
  have hlt := selector_fields_lt sel
  rw [selector_toNat]
  omega

theorem selector_bit_23 : sel.toNat / 2 ^ 23 % 2 ^ 1 = (selIsWrite sel).toNat := by
  have hlt := selector_fields_lt sel
  rw [selector_toNat]
  omega

theorem selector_bits_0_to_1 : sel.toNat / 2 ^ 0 % 2 ^ 2 = (selOff sel).toNat % 4 := by
  rw [selector_toNat]
  omega

theorem selector_bits_0_to_11 : sel.toNat / 2 ^ 0 % 2 ^ 12 = (selOff sel).toNat % 0x1000 := by
  rw [selector_toNat]
  omega

/-! Each mask, with a pattern of a serviced row. -/

variable {p}

theorem and_FFF003_eq_iff (hp : p &&& 0xFFF003 = p) (hw4 : selW4 p = true) :
    sel &&& 0xFFF003 = p ↔ selIsWrite sel = selIsWrite p ∧
      RowTest sel 0x1000 ((selOff p).toNat / 0x1000) 4 ((selOff p).toNat % 4) := by
  have hsel := selector_fields_lt sel
  have hpattern := selector_fields_lt p
  rw [rowMask_FFF003 sel p hp, RowTest, ← hw4, selector_bits_12_to_23, selector_bits_12_to_23, selector_bits_0_to_1,
    selector_bits_0_to_1, bit_above_inj (by omega) (by omega), bit_above_inj (by omega) (by omega), and_assoc, and_assoc]

theorem and_E00FFF_eq_iff (hp : p &&& 0xE00FFF = p) (hw4 : selW4 p = true) :
    sel &&& 0xE00FFF = p ↔ selIsWrite sel = selIsWrite p ∧
      RowTest sel 0x200000 ((selOff p).toNat / 0x200000) 0x1000 ((selOff p).toNat % 0x1000) := by
  have hsel := selector_fields_lt sel
  have hpattern := selector_fields_lt p
  rw [rowMask_E00FFF sel p hp, RowTest, ← hw4, selector_bits_21_to_23, selector_bits_21_to_23, selector_bits_0_to_11,
    selector_bits_0_to_11, bit_above_inj (by omega) (by omega), bit_above_inj (by omega) (by omega), and_assoc, and_assoc]

theorem and_E00003_eq_iff (hp : p &&& 0xE00003 = p) (hw4 : selW4 p = true) :
    sel &&& 0xE00003 = p ↔ selIsWrite sel = selIsWrite p ∧
      RowTest sel 0x200000 ((selOff p).toNat / 0x200000) 4 ((selOff p).toNat % 4) := by
  have hsel := selector_fields_lt sel
  have hpattern := selector_fields_lt p
  rw [rowMask_E00003 sel p hp, RowTest, ← hw4, selector_bits_21_to_23, selector_bits_21_to_23, selector_bits_0_to_1,
    selector_bits_0_to_1, bit_above_inj (by omega) (by omega), bit_above_inj (by omega) (by omega), and_assoc, and_assoc]

theorem and_800000_eq_iff (hp : p &&& 0x800000 = p) : sel &&& 0x800000 = p ↔ selIsWrite sel = selIsWrite p := by
  rw [rowMask_800000 sel p hp, selector_bit_23, selector_bit_23, bool_toNat_inj]

end

/-- A read row and its write row, whose tests differ in the direction alone, stand for one condition on the other
fields. -/
theorem firstRow_pair {sel mask patternR patternW : Selector} {rowR rowW : SelRow} {rest : List SelPattern} {P : Prop}
    [Decidable P] (hR : sel &&& mask = patternR ↔ selIsWrite sel = false ∧ P)
    (hW : sel &&& mask = patternW ↔ selIsWrite sel = true ∧ P) :
    firstRow sel (⟨mask, patternR, rowR⟩ :: ⟨mask, patternW, rowW⟩ :: rest) =
      if P then bif selIsWrite sel then rowW else rowR else firstRow sel rest := by
  simp only [firstRow, hR, hW]
  by_cases hP : P <;> cases selIsWrite sel <;> simp [hP]

/-- The first row that matches is the row of the selection. -/
theorem classify_eq_row (sel : Selector) : classify sel = (selection sel).row (selIsWrite sel) := by
  rw [classify, selTable,
    firstRow_pair (P := RowTest sel 0x1000 0 4 0) (and_FFF003_eq_iff sel (by decide) rfl)
      (and_FFF003_eq_iff sel (by decide) rfl),
    firstRow_pair (P := RowTest sel 0x1000 1 4 0) (and_FFF003_eq_iff sel (by decide) rfl)
      (and_FFF003_eq_iff sel (by decide) rfl),
    firstRow_pair (P := RowTest sel 0x200000 1 0x1000 0) (and_E00FFF_eq_iff sel (by decide) rfl)
      (and_E00FFF_eq_iff sel (by decide) rfl),
    firstRow_pair (P := RowTest sel 0x200000 1 0x1000 4) (and_E00FFF_eq_iff sel (by decide) rfl)
      (and_E00FFF_eq_iff sel (by decide) rfl),
    firstRow_pair (P := RowTest sel 0x200000 1 4 0) (and_E00003_eq_iff sel (by decide) rfl)
      (and_E00003_eq_iff sel (by decide) rfl),
    firstRow_pair (P := RowTest sel 0x200000 0 4 0) (and_E00003_eq_iff sel (by decide) rfl)
      (and_E00003_eq_iff sel (by decide) rfl),
    firstRow_pair (P := True) ((and_800000_eq_iff sel (by decide)).trans (and_true _).symm.to_iff)
      ((and_800000_eq_iff sel (by decide)).trans (and_true _).symm.to_iff)]
  unfold selection
  split_ifs <;> rfl

/-! The decoder on the two directions of an MMIO transaction. -/

theorem decodeMmio_read {sel : Selector} (h : selIsWrite sel = false) :
    decodeMmio sel [] = .ok (selection sel).read := by
  rw [decodeMmio, classify_eq_row, h]
  unfold selection
  split_ifs <;> rfl

theorem decodeMmio_write {sel : Selector} (h : selIsWrite sel = true) (v : Nat) :
    decodeMmio sel [v] = .ok ((selection sel).write (writeValue v)) := by
  rw [decodeMmio, classify_eq_row, h]
  unfold selection
  split_ifs <;> rfl

/-- A `u32` is its own low 32 bits. -/
@[simp] theorem writeValue_toNat (v : Word) : writeValue v.toNat = v := BitVec.eq_of_toNat_eq (by simp [writeValue])

/-! A selector word and its selection determine each other. -/

theorem selection_of_narrow {sel : Selector} (h : selW4 sel = false) :
    selection sel = .unserviced false (selOff sel) := by
  simp [selection, RowTest, h]

/-- The selection of a word is one that R56, R57 and R131 admit, with the word's width bit and offset. -/
theorem selection_fields (sel : Selector) :
    (selection sel).wf = true ∧ (selection sel).w4 = selW4 sel ∧ (selection sel).offset = (selOff sel).toNat := by
  have hlt := (selOff sel).isLt
  cases hw4 : selW4 sel with
  | false =>
    rw [selection_of_narrow hw4, Selection.wf_unserviced_iff]
    exact ⟨nofun, rfl, rfl⟩
  | true =>
    simp only [selection, RowTest, hw4, true_and]
    split_ifs with hpriority hpending hthreshold hclaim hnoreg henable
    · refine ⟨rfl, rfl, ?_⟩
      rw [Selection.offset, selIndex_toNat]
      omega
    · refine ⟨rfl, rfl, ?_⟩
      rw [Selection.offset, selIndex_toNat]
      omega
    · refine ⟨rfl, rfl, ?_⟩
      rw [Selection.offset, selContext_toNat]
      omega
    · refine ⟨rfl, rfl, ?_⟩
      rw [Selection.offset, selContext_toNat]
      omega
    · rw [Selection.wf_noreg_iff, Selection.offset, selContext_toNat, selIndex_toNat]
      exact ⟨by omega, rfl, by omega⟩
    · rw [Selection.wf_enable_iff, Selection.offset, selEnableContext_toNat, selEnableWord_toNat]
      exact ⟨by omega, rfl, by omega⟩
    · rw [Selection.wf_unserviced_iff]
      exact ⟨fun _ => by omega, rfl, rfl⟩

/-- The word put together for a selection selects it. -/
theorem selection_selWord (rw : Bool) {x : Selection} (h : x.wf = true) : selection (selWord rw x.w4 x.off) = x := by
  have hoff : (selOff (selWord rw x.w4 x.off)).toNat = x.offset := by rw [selOff_selWord, Selection.off_toNat h]
  simp only [selection, RowTest, hoff, selW4_selWord]
  cases x with
  | priority irq =>
    have hirq := irq.isLt
    simp only [Selection.w4, Selection.offset, true_and] at hoff ⊢
    rw [if_pos (by omega), Selection.priority.injEq]
    exact BitVec.eq_of_toNat_eq (by rw [selIndex_toNat, hoff]; omega)
  | pending w =>
    have hw := w.isLt
    simp only [Selection.w4, Selection.offset, true_and] at hoff ⊢
    rw [if_neg (by omega), if_pos (by omega), Selection.pending.injEq]
    exact BitVec.eq_of_toNat_eq (by rw [selIndex_toNat, hoff]; omega)
  | threshold ctx =>
    have hctx := ctx.isLt
    simp only [Selection.w4, Selection.offset, true_and] at hoff ⊢
    rw [if_neg (by omega), if_neg (by omega), if_pos (by omega), Selection.threshold.injEq]
    exact BitVec.eq_of_toNat_eq (by rw [selContext_toNat, hoff]; omega)
  | claim ctx =>
    have hctx := ctx.isLt
    simp only [Selection.w4, Selection.offset, true_and] at hoff ⊢
    rw [if_neg (by omega), if_neg (by omega), if_neg (by omega), if_pos (by omega), Selection.claim.injEq]
    exact BitVec.eq_of_toNat_eq (by rw [selContext_toNat, hoff]; omega)
  | noreg ctx word =>
    have hctx := ctx.isLt
    have hword := word.isLt
    have hregister := Selection.wf_noreg_iff.mp h
    simp only [Selection.w4, Selection.offset, true_and] at hoff ⊢
    rw [if_neg (by omega), if_neg (by omega), if_neg (by omega), if_neg (by omega), if_pos (by omega),
      Selection.noreg.injEq]
    exact ⟨BitVec.eq_of_toNat_eq (by rw [selContext_toNat, hoff]; omega),
      BitVec.eq_of_toNat_eq (by rw [selIndex_toNat, hoff]; omega)⟩
  | enable ctx w =>
    have hctx := Selection.wf_enable_iff.mp h
    have hw := w.isLt
    simp only [Selection.w4, Selection.offset, true_and] at hoff ⊢
    rw [if_neg (by omega), if_neg (by omega), if_neg (by omega), if_neg (by omega), if_neg (by omega),
      if_pos (by omega), Selection.enable.injEq]
    exact ⟨BitVec.eq_of_toNat_eq (by rw [selEnableContext_toNat, hoff]; omega),
      BitVec.eq_of_toNat_eq (by rw [selEnableWord_toNat, hoff]; omega)⟩
  | unserviced w4 off =>
    have hunserviced := Selection.wf_unserviced_iff.mp h
    cases w4 with
    | false => simp only [Selection.w4, Selection.off, Bool.false_eq_true, false_and, if_false, selOff_selWord]
    | true =>
      have hmisaligned := hunserviced rfl
      simp only [Selection.w4, Selection.offset, true_and]
      rw [if_neg (by omega), if_neg (by omega), if_neg (by omega), if_neg (by omega), if_neg (by omega),
        if_neg (by omega), Selection.off, selOff_selWord]

/-- Read back from the other side: a word is put together from its direction and its selection. -/
theorem selWord_selection (sel : Selector) :
    selWord (selIsWrite sel) (selection sel).w4 (selection sel).off = sel := by
  obtain ⟨hwf, hw4, hoffset⟩ := selection_fields sel
  have hoff : (selection sel).off = selOff sel := BitVec.eq_of_toNat_eq ((Selection.off_toNat hwf).trans hoffset)
  rw [hw4, hoff, selWord_fields]

theorem decode_encode_read {x : Selection} (h : x.wf = true) : decode (encode x.read) = .ok x.read := by
  rw [Selection.encode_read, decode, decodeMmio_read (selIsWrite_selWord _ _ _), selection_selWord false h]

theorem decode_encode_write {x : Selection} (h : x.wf = true) (v : Word) :
    decode (encode (x.write v)) = .ok (x.write v) := by
  rw [Selection.encode_write, decode, decodeMmio_write (selIsWrite_selWord _ _ _), selection_selWord true h,
    writeValue_toNat]

/-! The port operations of R62. -/

theorem decode_portRequest (p : PortOp) (args : List Nat) : decode (portRequest p args) = decodePort p args := by
  simp only [decode, portRequest, Laws.EncodeFits.portOf_portCode]

@[simp] theorem u32Arg_toNat (v : Word) (f : Word → Instr) : u32Arg v.toNat f = .ok (f v) := by
  rw [u32Arg, if_pos v.isLt, BitVec.ofNat_toNat, BitVec.setWidth_eq]

@[simp] theorem boolArg_toNat (e : Bool) (f : Bool → Instr) : boolArg e.toNat f = .ok (f e) := by
  cases e <;> rfl

/-- A port operation whose arguments its row of R62 reads back. -/
theorem decode_encode_port {i : Instr} {p : PortOp} {args : List Nat} (hencode : encode i = portRequest p args)
    (hdecode : decodePort p args = .ok i) : decode (encode i) = .ok i := by
  rw [hencode, decode_portRequest, hdecode]

/-- Settles O1: an MMIO row is read back from its selection (`decode_encode_read`, `decode_encode_write`), a port
operation from its code and its arguments (`decode_encode_port`). -/
theorem decodeEncodeRoundTrip : Obligations.DecodeEncodeRoundTrip := by
  intro i h
  cases i with
  | priorityR irq => exact decode_encode_read (x := .priority irq) h
  | priorityW irq v => exact decode_encode_write (x := .priority irq) h v
  | pendingR w => exact decode_encode_read (x := .pending w) h
  | pendingW w v => exact decode_encode_write (x := .pending w) h v
  | thresholdR ctx => exact decode_encode_read (x := .threshold ctx) h
  | thresholdW ctx v => exact decode_encode_write (x := .threshold ctx) h v
  | claimR ctx => exact decode_encode_read (x := .claim ctx) h
  | claimW ctx v => exact decode_encode_write (x := .claim ctx) h v
  | noregR ctx word => exact decode_encode_read (x := .noreg ctx word) h
  | noregW ctx word v => exact decode_encode_write (x := .noreg ctx word) h v
  | enableR ctx w => exact decode_encode_read (x := .enable ctx w) h
  | enableW ctx w v => exact decode_encode_write (x := .enable ctx w) h v
  | unservicedR w4 off => exact decode_encode_read (x := .unserviced w4 off) h
  | unservicedW w4 off v => exact decode_encode_write (x := .unserviced w4 off) h v
  | setPrio irq p => exact decode_encode_port rfl (u32Arg_toNat p _)
  | setPendingWord w v => exact decode_encode_port rfl (u32Arg_toNat v _)
  | setEnableBit ctx irq e => exact decode_encode_port rfl (boolArg_toNat e _)
  | setEnableWord ctx w v => exact decode_encode_port rfl (u32Arg_toNat v _)
  | setThreshold ctx t => exact decode_encode_port rfl (u32Arg_toNat t _)
  | setClaim ctx v => exact decode_encode_port rfl (u32Arg_toNat v _)
  | completeIrq ctx v => exact decode_encode_port rfl (u32Arg_toNat v _)
  | _ => exact decode_encode_port rfl rfl

/-- Settles O2: the word decodes to the request on its selection, which is well formed and encodes back
(`selWord_selection`). -/
theorem everySelectorWordDecodes : Obligations.EverySelectorWordDecodes := by
  intro sel v
  obtain ⟨hwf, -, -⟩ := selection_fields sel
  have hword := selWord_selection sel
  cases hwrite : selIsWrite sel with
  | false =>
    rw [hwrite] at hword
    exact ⟨(selection sel).read, decodeMmio_read hwrite, hwf, by rw [Selection.encode_read, hword]; rfl⟩
  | true =>
    rw [hwrite] at hword
    have hdecode := decodeMmio_write hwrite v.toNat
    rw [writeValue_toNat] at hdecode
    exact ⟨(selection sel).write v, hdecode, (Selection.wf_write _ v).trans hwf,
      by rw [Selection.encode_write, hword]; rfl⟩

/-- Settles O4, word by word. -/
theorem writtenSelectorWordsDecode : Obligations.WrittenSelectorWordsDecode :=
  ⟨by decide, by decide, by decide, by decide, by decide, by decide, by decide, by decide, by decide, by decide⟩

end Sys2Proof
end

section
/-! What a selection of the table of 30_encoding.md R61 means: the register that its requests read and write, which is
the one at its offset. -/

namespace Sys2Proof.Selection
open Machine

/-- The register of 43_mmio_front_end.md R132 and R133 that a selection reaches. -/
def register : Selection → Register
  | .priority irq => .priority irq.toNat
  | .pending w => .pending w.toNat
  | .threshold ctx => .threshold ctx.toNat
  | .claim ctx => .claim ctx.toNat
  | .noreg _ _ => .noRegister
  | .enable ctx w => .enable ctx.toNat w.toNat
  | .unserviced _ _ => .noRegister

theorem exec_read (x : Selection) (s : State) : exec x.read s = .next (readRegister x.register s) := by
  cases x <;> rfl

theorem exec_write (x : Selection) (v : Word) (s : State) :
    exec (x.write v) s = .next (writeRegister x.register v s) := by
  cases x <;> rfl

/-- A serviced selection decodes to its register (30_encoding.md R54 to R58). -/
theorem decodeOffset_offset {x : Selection} (h : x.wf = true) (hserviced : ∀ w4 off, x ≠ .unserviced w4 off) :
    decodeOffset x.offset = x.register := by
  cases x with
  | priority irq => exact decodeOffset_priorityOffset (Nat.le_of_lt_succ irq.isLt)
  | pending w => exact decodeOffset_pendingOffset (Nat.le_of_lt_succ w.isLt)
  | threshold ctx => exact decodeOffset_thresholdOffset (Nat.le_of_lt_succ ctx.isLt)
  | claim ctx => exact decodeOffset_claimOffset (Nat.le_of_lt_succ ctx.isLt)
  | noreg ctx word =>
    have hword := word.isLt
    have hregister := wf_noreg_iff.mp h
    have hblock := decodeOffset_contextBlock (ctx := ctx.toNat) (loc := 4 * word.toNat)
      (Nat.le_of_lt_succ ctx.isLt) (by omega)
    rw [if_neg (by omega), if_neg (by omega)] at hblock
    exact hblock
  | enable ctx w =>
    exact decodeOffset_enableOffset (Nat.le_of_lt_succ (wf_enable_iff.mp h)) (Nat.le_of_lt_succ w.isLt)
  | unserviced w4 off => exact absurd rfl (hserviced w4 off)

/-- What a transaction needs to be serviced (R131). -/
theorem w4_and_offset_of_serviced {x : Selection} (hserviced : ∀ w4 off, x ≠ .unserviced w4 off) :
    x.w4 = true ∧ x.offset % 4 = 0 := by
  cases x with
  | unserviced w4 off => exact absurd rfl (hserviced w4 off)
  | _ => exact ⟨rfl, by simp only [offset]; omega⟩

/-- An access at the offset of a selection, of a width that fits it, reaches its register. -/
theorem accessedRegister_offset {x : Selection} (h : x.wf = true) (cfg : Config) {width : Nat}
    (hwidth : x.w4 = decide (width = 4)) : accessedRegister cfg (cfg.base + x.offset) width = x.register := by
  by_cases hserviced : ∀ w4 off, x ≠ .unserviced w4 off
  · obtain ⟨hw4, haligned⟩ := w4_and_offset_of_serviced hserviced
    obtain rfl : width = 4 := by simpa [hw4] using hwidth
    have hlt : x.offset < 2 ^ 22 := off_toNat h ▸ x.off.isLt
    rw [accessedRegister_serviced cfg hlt haligned, decodeOffset_offset h hserviced]
  · push Not at hserviced
    obtain ⟨w4, off, rfl⟩ := hserviced
    have hmisaligned := wf_unserviced_iff.mp h
    have hnarrow : width ≠ 4 ∨ off.toNat % 4 ≠ 0 := by
      by_cases hfour : width = 4
      · exact .inr (hmisaligned (hwidth.trans (decide_eq_true hfour)))
      · exact .inl hfour
    exact accessedRegister_none cfg (by simp only [offset]; omega)

end Sys2Proof.Selection
end

section
/-! The two decoders of an MMIO access as one (30_encoding.md R61, 43_mmio_front_end.md R131 to R133), the outcome
NoRegister (R58), a table word presented to the block (R50), and the pair of transactions of ENABLE (R66). -/

namespace Sys2Proof.Machine

/-- Settles O3: on both sides the request reads or writes the register of the word's selection. -/
theorem selectorRowsAgreeWithMmioAccesses : Obligations.SelectorRowsAgreeWithMmioAccesses := by
  intro s sel width hwidth
  obtain ⟨hwf, hw4, hoffset⟩ := selection_fields sel
  have hregister := Selection.accessedRegister_offset hwf s.cfg (hw4.trans hwidth)
  rw [hoffset] at hregister
  refine ⟨fun hread i hdecode => ?_, fun hwrite v i hdecode => ?_⟩
  · obtain rfl := Except.ok.inj ((decodeMmio_read hread).symm.trans hdecode)
    rw [Selection.exec_read, exec, execMmioRead, hregister]
  · obtain rfl := Except.ok.inj ((decodeMmio_write hwrite v).symm.trans hdecode)
    rw [Selection.exec_write, exec, execMmioWrite, hregister]

/-! NoRegister. -/

theorem decodeContextBlock_eq_noRegister_iff (rel : Nat) :
    decodeContextBlock rel = .noRegister ↔ rel % 0x1000 ≠ 0 ∧ rel % 0x1000 ≠ 4 := by
  unfold decodeContextBlock
  split_ifs <;> simp_all

/-- R58. -/
theorem decodeOffset_eq_noRegister_iff (off : Nat) :
    decodeOffset off = .noRegister ↔
      0x400000 ≤ off ∨
        (0x200000 ≤ off ∧ off < 0x400000 ∧ (off - 0x200000) % 0x1000 ≠ 0 ∧ (off - 0x200000) % 0x1000 ≠ 4) := by
  unfold decodeOffset
  simp only [pendingBase, enableBase, contextBase, windowLength]
  split_ifs with hpriority hpending henable hcontext
  · simp only [false_iff]; omega
  · simp only [false_iff]; omega
  · simp only [false_iff]; omega
  · rw [decodeContextBlock_eq_noRegister_iff]; omega
  · simp only [true_iff]; omega

/-- An access at an offset that decodes to no register reaches none, whether it is serviced or not. -/
theorem accessedRegister_of_noRegister (cfg : Config) {off : Nat} (h : decodeOffset off = .noRegister) (width : Nat) :
    accessedRegister cfg (cfg.base + off) width = .noRegister := by
  obtain hnone | ⟨-, off', -, -, hsame, hdecode⟩ := accessedRegister_cases cfg (cfg.base + off) width
  · exact hnone
  · rw [hdecode, ← Nat.add_left_cancel hsame, h]

/-- Settles O6, by `decodeOffset_eq_noRegister_iff` and `accessedRegister_of_noRegister`. -/
theorem noRegisterArisesInExactlyTwoWays : Obligations.NoRegisterArisesInExactlyTwoWays := by
  refine ⟨decodeOffset_eq_noRegister_iff, fun s off v h => ?_⟩
  have hnone := accessedRegister_of_noRegister s.cfg h 4
  rw [exec, execMmioRead, exec, execMmioWrite, hnone]
  exact ⟨rfl, rfl⟩

/-! A presented table word. -/

theorem decodeTableWord_eq_some_iff {nbits w : Nat} {i : Instr} :
    decodeTableWord nbits w = some i ↔ decode (tableRequest nbits w) = .ok i := by
  unfold decodeTableWord
  cases decode (tableRequest nbits w) <;> simp

/-- Settles O8: the presenting agent has nothing in flight (`findClaim_freshAgent`), the first turn, and the first
request of its own. -/
theorem presentedTableWordRunsNext : Obligations.PresentedTableWordRunsNext := by
  intro s nbits w i hdecode
  have hidle : findClaim (freshAgent s) (s.withFetchWord nbits w).inflight = none := findClaim_freshAgent s
  rw [step_of_idle_agent rfl hidle,
    issueNext_of_request (takeRequest_head _ _ _) (decodeTableWord_eq_some_iff.mp hdecode)]
  rfl

/-! The two transactions of ENABLE. -/

/-- What a word read of the enable flags shows (10_state.md R16). -/
theorem getLsbD_getEnableWord (s : State) (ctx : Nat) {w b : Nat} (hw : w < 16) (hb : b < 32) :
    (getEnableWord s ctx w).getLsbD b = getEnableBit s ctx (32 * w + b) := by
  have hirq : 32 * w + b ≤ 511 := by omega
  simp only [getEnableWord, getEnableBit, numWords, maxIrq, hw, hirq, if_true, getLsbD_flagWord _ _ _ hb]

theorem getEnableWord_setEnableWord_same (s : State) {ctx w : Nat} (hctx : ctx < s.cfg.numContexts) (hw : w < 16)
    (v : Word) : getEnableWord (setEnableWord s ctx w v) ctx w = v := by
  simp only [getEnableWord, setEnableWord, numWords, hw, if_true, enableOf_setEnableOf, hctx, and_self,
    flagWord_setFlagWord_same _ _ _ hw]

theorem sameButEnable_setEnableWord (s : State) (ctx w : Nat) (v : Word) :
    SameButEnable s (setEnableWord s ctx w v) := by
  unfold setEnableWord setEnableOf
  split_ifs <;> rfl

theorem SameButEnable.respond {s t : State} (h : SameButEnable s t) (r : Response) : SameButEnable s (respond r t) := h

@[simp] theorem getEnableWord_respond (r : Response) (s : State) (ctx w : Nat) :
    getEnableWord (respond r s) ctx w = getEnableWord s ctx w := rfl

/-- The offset of an enable word with storage reaches it. -/
theorem accessedRegister_enableOffset (cfg : Config) {ctx w : Nat} (hctx : ctx < cfg.numContexts) (hw : w < 16) :
    accessedRegister cfg (cfg.base + enableOffset ctx w) 4 = .enable ctx w := by
  have hctx16 := cfg.context_lt hctx
  rw [accessedRegister_serviced cfg, decodeOffset_enableOffset (by omega) (by omega)] <;>
    simp only [enableOffset, enableBase, enableStride] <;> omega

theorem exec_pseudoEnableRead {s : State} {ctx irq : Nat} (hctx : ctx < s.cfg.numContexts) (hirq : irq ≤ 511) :
    exec (pseudoEnableRead s.cfg ctx irq) s = .next (answerRead (getEnableWord s ctx (irq / 32)) s) := by
  rw [pseudoEnableRead, r32, exec, execMmioRead, accessedRegister_enableOffset s.cfg hctx (by omega)]
  rfl

theorem exec_pseudoEnableWrite {s : State} {cfg : Config} (hcfg : s.cfg = cfg) {ctx irq : Nat}
    (hctx : ctx < cfg.numContexts) (hirq : irq ≤ 511) (v : Word) :
    exec (pseudoEnableWrite cfg ctx irq v) s =
      .next (answerWrite (setEnableWord s ctx (irq / 32) (v ||| BitVec.twoPow 32 (irq % 32)))) := by
  rw [pseudoEnableWrite, w32, exec, execMmioWrite, hcfg, accessedRegister_enableOffset cfg hctx (by omega),
    writeValue_toNat]
  rfl

/-- A word written back with the bit of an irq set sets the flag of that irq and leaves every other. -/
theorem getEnableBit_setEnableWord_or_twoPow {s : State} {ctx irq : Nat} (hctx : ctx < s.cfg.numContexts)
    (hirq : irq ≤ 511) (c j : Nat) :
    getEnableBit (setEnableWord s ctx (irq / 32)
        (getEnableWord s ctx (irq / 32) ||| BitVec.twoPow 32 (irq % 32))) c j =
      if c = ctx ∧ j = irq then true else getEnableBit s c j := by
  have hw : irq / 32 < 16 := by omega
  have hb : j % 32 < 32 := Nat.mod_lt j (by decide)
  rw [getEnableBit_setEnableWord]
  by_cases hword : c = ctx ∧ j / 32 = irq / 32
  · obtain ⟨rfl, hblock⟩ := hword
    have hj' : 32 * (irq / 32) + j % 32 = j := by omega
    have hsame : irq % 32 = j % 32 ↔ j = irq := by omega
    rw [if_pos ⟨rfl, hblock, hctx, hw⟩, BitVec.getLsbD_or, getLsbD_getEnableWord s c hw hb, hj',
      BitVec.getLsbD_twoPow]
    by_cases h : j = irq
    · simp [h, Nat.mod_lt]
    · simp [hsame, h]
  · rw [if_neg (by tauto), if_neg]
    rintro ⟨rfl, rfl⟩
    exact hword ⟨rfl, rfl⟩

/-- Settles O41: both transactions reach the enable word of the irq, and the second writes the value read with the bit
set, over whatever the word holds by then. -/
theorem enablePseudoOperationSetsOneFlag : Obligations.EnablePseudoOperationSetsOneFlag := by
  intro s ctx irq hctx hirq
  refine ⟨_, _, exec_pseudoEnableRead hctx hirq, rfl,
    ⟨_, exec_pseudoEnableWrite (by rfl) hctx hirq _, ?_, fun c j _ => ?_⟩,
    fun other => ⟨_, exec_pseudoEnableWrite (by simp [answerRead]) hctx hirq _, ?_⟩⟩
  · rw [answerRead, answerWrite, (repeatableWrite_setEnableWord ctx (irq / 32) _).afterAnswer]
    exact ((sameButEnable_setEnableWord s ctx (irq / 32) _).respond _).respond _
  · rw [answerRead, answerWrite, (repeatableWrite_setEnableWord ctx (irq / 32) _).afterAnswer, getEnableBit_respond,
      getEnableBit_respond]
    exact getEnableBit_setEnableWord_or_twoPow hctx hirq c j
  · rw [answerWrite, getEnableWord_respond]
    exact getEnableWord_setEnableWord_same _ (by simpa [answerRead] using hctx) (by omega) _

end Sys2Proof.Machine
end

section
/-! The store's accessors (40_store_ops.md): what each request runs, a call with an index out of range (R71), the
frames and the raw arrays after a write, and a single-flag write seen through the word view (R85). -/

namespace Sys2Proof.Machine

/-! The meaning of each accessor request, through the accessor and the answer. -/

section
variable (s : State) (ctx irq w : Nat) (e : Bool) (v : Word)

theorem exec_getPrio : exec (.getPrio irq) s = .next (respond (.word (getPrio s irq)) s) := rfl
theorem exec_setPrio : exec (.setPrio irq v) s = .next (respond .done (setPrio s irq v)) := rfl
theorem exec_getPending : exec (.getPending irq) s = .next (respond (.flag (getPending s irq)) s) := rfl
theorem exec_setPending : exec (.setPending irq) s = .next (respond .done (setPendingFlag s irq true)) := rfl
theorem exec_clearPending : exec (.clearPending irq) s = .next (respond .done (setPendingFlag s irq false)) := rfl
theorem exec_getPendingWord : exec (.getPendingWord w) s = .next (respond (.word (getPendingWord s w)) s) := rfl
theorem exec_setPendingWord : exec (.setPendingWord w v) s = .next (respond .done (setPendingWord s w v)) := rfl
theorem exec_getEnableBit :
    exec (.getEnableBit ctx irq) s = .next (respond (.flag (getEnableBit s ctx irq)) s) := rfl
theorem exec_setEnableBit :
    exec (.setEnableBit ctx irq e) s = .next (respond .done (setEnableBit s ctx irq e)) := rfl
theorem exec_getEnableWord :
    exec (.getEnableWord ctx w) s = .next (respond (.word (getEnableWord s ctx w)) s) := rfl
theorem exec_setEnableWord :
    exec (.setEnableWord ctx w v) s = .next (respond .done (setEnableWord s ctx w v)) := rfl
theorem exec_getThreshold : exec (.getThreshold ctx) s = .next (respond (.word (getThreshold s ctx)) s) := rfl
theorem exec_setThreshold : exec (.setThreshold ctx v) s = .next (respond .done (setThreshold s ctx v)) := rfl
theorem exec_getClaim : exec (.getClaim ctx) s = .next (respond (.word (getClaim s ctx)) s) := rfl
theorem exec_setClaim : exec (.setClaim ctx v) s = .next (respond .done (setClaim s ctx v)) := rfl

end

/-! An index out of range: reads return 0 or false, writes are dropped (R71). -/

section
variable {s : State} {ctx irq w : Nat}

theorem getPrio_outOfRange (h : ¬ irq ≤ 511) : getPrio s irq = 0 := dif_neg h
theorem setPrio_outOfRange (h : ¬ irq ≤ 511) (p : Word) : setPrio s irq p = s := dif_neg h
theorem getPending_outOfRange (h : ¬ irq ≤ 511) : getPending s irq = false := if_neg h
theorem setPendingFlag_outOfRange (h : ¬ irq ≤ 511) (e : Bool) : setPendingFlag s irq e = s := if_neg h
theorem getPendingWord_outOfRange (h : ¬ w < 16) : getPendingWord s w = 0 := if_neg h
theorem setPendingWord_outOfRange (h : ¬ w < 16) (v : Word) : setPendingWord s w v = s := if_neg h
theorem enableOf_outOfRange (h : ¬ ctx < s.cfg.numContexts) : enableOf s ctx = 0 := dif_neg h
theorem setEnableOf_outOfRange (h : ¬ ctx < s.cfg.numContexts) (f : IrqSet) : setEnableOf s ctx f = s := dif_neg h
theorem getThreshold_outOfRange (h : ¬ ctx < s.cfg.numContexts) : getThreshold s ctx = 0 := dif_neg h
theorem setThreshold_outOfRange (h : ¬ ctx < s.cfg.numContexts) (t : Word) : setThreshold s ctx t = s := dif_neg h
theorem getClaim_outOfRange (h : ¬ ctx < s.cfg.numContexts) : getClaim s ctx = 0 := dif_neg h

theorem getEnableBit_eq_false (h : ¬ (ctx < s.cfg.numContexts ∧ irq ≤ 511)) : getEnableBit s ctx irq = false := by
  by_cases hctx : ctx < s.cfg.numContexts
  · exact if_neg fun hirq => h ⟨hctx, hirq⟩
  · exact getEnableBit_outOfRange s ctx irq hctx

theorem setEnableBit_eq_self (h : ¬ (ctx < s.cfg.numContexts ∧ irq ≤ 511)) (e : Bool) :
    setEnableBit s ctx irq e = s := by
  unfold setEnableBit
  split
  next hirq => exact setEnableOf_outOfRange (fun hctx => h ⟨hctx, hirq⟩) _
  next => rfl

theorem getEnableWord_eq_zero (h : ¬ (ctx < s.cfg.numContexts ∧ w < 16)) : getEnableWord s ctx w = 0 := by
  unfold getEnableWord
  split
  next hw =>
    rw [enableOf_outOfRange fun hctx => h ⟨hctx, hw⟩]
    simp [flagWord]
  next => rfl

theorem setEnableWord_eq_self (h : ¬ (ctx < s.cfg.numContexts ∧ w < 16)) (v : Word) :
    setEnableWord s ctx w v = s := by
  unfold setEnableWord
  split
  next hw => exact setEnableOf_outOfRange (fun hctx => h ⟨hctx, hw⟩) _
  next => rfl

end

/-- Settles O20: each accessor answers its benign value or drops its write, and then only the response changes. -/
theorem outOfRangeIndexIsBenign : Obligations.OutOfRangeIndexIsBenign := by
  intro i s h
  cases i with
  | getPrio irq => rw [exec_getPrio, getPrio_outOfRange (Nat.not_le.mpr h)]; rfl
  | setPrio irq p => rw [exec_setPrio, setPrio_outOfRange (Nat.not_le.mpr h)]; rfl
  | getPending irq => rw [exec_getPending, getPending_outOfRange (Nat.not_le.mpr h)]; rfl
  | setPending irq => rw [exec_setPending, setPendingFlag_outOfRange (Nat.not_le.mpr h)]; rfl
  | clearPending irq => rw [exec_clearPending, setPendingFlag_outOfRange (Nat.not_le.mpr h)]; rfl
  | getPendingWord w => rw [exec_getPendingWord, getPendingWord_outOfRange (Nat.not_lt.mpr h)]; rfl
  | setPendingWord w v => rw [exec_setPendingWord, setPendingWord_outOfRange (Nat.not_lt.mpr h)]; rfl
  | getEnableBit ctx irq =>
    rw [exec_getEnableBit, getEnableBit_eq_false (not_and_or.mpr (Or.imp Nat.not_lt.mpr Nat.not_le.mpr h))]; rfl
  | setEnableBit ctx irq e =>
    rw [exec_setEnableBit, setEnableBit_eq_self (not_and_or.mpr (Or.imp Nat.not_lt.mpr Nat.not_le.mpr h))]; rfl
  | getEnableWord ctx w =>
    rw [exec_getEnableWord, getEnableWord_eq_zero (not_and_or.mpr (Or.imp Nat.not_lt.mpr Nat.not_lt.mpr h))]; rfl
  | setEnableWord ctx w v =>
    rw [exec_setEnableWord, setEnableWord_eq_self (not_and_or.mpr (Or.imp Nat.not_lt.mpr Nat.not_lt.mpr h))]; rfl
  | getThreshold ctx => rw [exec_getThreshold, getThreshold_outOfRange (Nat.not_lt.mpr h)]; rfl
  | setThreshold ctx t => rw [exec_setThreshold, setThreshold_outOfRange (Nat.not_lt.mpr h)]; rfl
  | getClaim ctx => rw [exec_getClaim, getClaim_outOfRange (Nat.not_lt.mpr h)]; rfl
  | setClaim ctx v => rw [exec_setClaim, setClaim_outOfRange _ _ _ (Nat.not_lt.mpr h)]; rfl
  | _ => exact h.elim

/-! The pending flags. -/

section
variable (s : State)

theorem getPending_eq (irq : Nat) : getPending s irq = (decide (irq ≤ 511) && s.pending.getLsbD irq) := by
  by_cases h : irq ≤ 511 <;> simp [getPending, flag, h]

/-- What a word read of the pending flags shows (10_state.md R14). -/
theorem getLsbD_getPendingWord (w : Nat) {b : Nat} (hb : b < 32) :
    (getPendingWord s w).getLsbD b = (decide (w < 16) && s.pending.getLsbD (32 * w + b)) := by
  by_cases h : w < 16
  · simp only [getPendingWord, numWords, h, if_true, getLsbD_flagWord _ _ _ hb, decide_true, Bool.true_and, flag]
  · simp [getPendingWord_outOfRange h, h]

theorem getLsbD_pending_setPendingFlag (irq : Nat) (e : Bool) {j : Nat} (hj : j ≤ 511) :
    (setPendingFlag s irq e).pending.getLsbD j = if j = irq then e else s.pending.getLsbD j := by
  have hread := getPending_setPendingFlag s irq j e
  have hirq : j = irq ∧ irq ≤ 511 ↔ j = irq := by omega
  simpa only [getPending_eq, hj, decide_true, Bool.true_and, hirq] using hread

theorem getLsbD_pending_setPendingWord (w : Nat) (v : Word) {j : Nat} (hj : j ≤ 511) :
    (setPendingWord s w v).pending.getLsbD j = if j / 32 = w then v.getLsbD (j % 32) else s.pending.getLsbD j := by
  have hread := getPending_setPendingWord s w j v
  have hword : j / 32 = w ∧ w < 16 ↔ j / 32 = w := by omega
  simpa only [getPending_eq, hj, decide_true, Bool.true_and, hword] using hread

theorem sameButPending_setPendingFlag (irq : Nat) (e : Bool) : SameButPending s (setPendingFlag s irq e) := by
  unfold setPendingFlag
  split <;> rfl

theorem sameButPending_setPendingWord (w : Nat) (v : Word) : SameButPending s (setPendingWord s w v) := by
  unfold setPendingWord
  split <;> rfl

end

theorem SameButPending.respond {s t : State} (h : SameButPending s t) (r : Response) :
    SameButPending s (respond r t) := h

/-- Settles O14: the read by `getPending_eq`, both writes by `getLsbD_pending_setPendingFlag`. -/
theorem pendingFlagAccessors : Obligations.PendingFlagAccessors := by
  intro s irq
  refine ⟨?_, ⟨_, exec_setPending s irq, rfl, ?_, ?_⟩, ⟨_, exec_clearPending s irq, rfl, ?_, ?_⟩, rfl, rfl, rfl⟩
  · rw [exec_getPending, getPending_eq]
    rfl
  · exact (sameButPending_setPendingFlag s irq true).respond _
  · exact fun j => getLsbD_pending_setPendingFlag s irq true
  · exact (sameButPending_setPendingFlag s irq false).respond _
  · exact fun j => getLsbD_pending_setPendingFlag s irq false

/-- Settles O15: the read by `getLsbD_getPendingWord`, the write by `getLsbD_pending_setPendingWord`. -/
theorem pendingWordAccessors : Obligations.PendingWordAccessors := fun s w v =>
  ⟨⟨_, _, exec_getPendingWord s w, rfl, rfl, fun _ => getLsbD_getPendingWord s w⟩,
    ⟨_, exec_setPendingWord s w v, rfl, (sameButPending_setPendingWord s w v).respond _,
      fun _ => getLsbD_pending_setPendingWord s w v⟩⟩

/-! The enable flags. The array has entries without storage, which no getter reads and no write reaches (log 7). -/

theorem enableOf_eq {s : State} {ctx : Nat} (h : ctx < s.cfg.numContexts) :
    enableOf s ctx = s.enable[ctx]'(s.cfg.context_lt h) := dif_pos h

/-- A flag read of a context with storage, in the array. -/
theorem getEnableBit_eq_getLsbD {s : State} {ctx irq : Nat} (hctx : ctx < s.cfg.numContexts) (hirq : irq ≤ 511) :
    getEnableBit s ctx irq = (s.enable[ctx]'(s.cfg.context_lt hctx)).getLsbD irq := by
  simp only [getEnableBit, maxIrq, hirq, if_true, flag, enableOf_eq hctx]

section
variable (s : State) (ctx : Nat)

theorem enable_setEnableOf (f : IrqSet) {c : Nat} (hc : c < 16) :
    (setEnableOf s ctx f).enable[c] = if c = ctx ∧ ctx < s.cfg.numContexts then f else s.enable[c] := by
  by_cases hctx : ctx < s.cfg.numContexts
  · simp [setEnableOf, hctx, Vector.getElem_set, eq_comm]
  · simp [setEnableOf_outOfRange hctx, hctx]

/-- A write of a context's bitmap, flag by flag and context by context. -/
theorem getLsbD_enable_setEnableOf (f : IrqSet) {c : Nat} (hc : c < 16) (j : Nat) :
    ((setEnableOf s ctx f).enable[c]).getLsbD j =
      if c = ctx ∧ ctx < s.cfg.numContexts then f.getLsbD j else (s.enable[c]).getLsbD j := by
  rw [enable_setEnableOf s ctx f hc]
  split <;> rfl

theorem getLsbD_enable_setEnableBit (irq : Nat) (e : Bool) {c : Nat} (hc : c < 16) {j : Nat} (hj : j ≤ 511) :
    ((setEnableBit s ctx irq e).enable[c]).getLsbD j =
      if c = ctx ∧ ctx < s.cfg.numContexts ∧ j = irq then e else (s.enable[c]).getLsbD j := by
  unfold setEnableBit
  split
  next hirq =>
    rw [getLsbD_enable_setEnableOf s ctx _ hc]
    by_cases hwrite : c = ctx ∧ ctx < s.cfg.numContexts
    · obtain ⟨rfl, hctx⟩ := hwrite
      have hflag := flag_setFlag (enableOf s c) irq e j (Nat.lt_succ_of_le hj)
      simpa [flag, enableOf_eq hctx, hctx] using hflag
    · rw [if_neg hwrite, if_neg (by tauto)]
  next hirq => exact (if_neg fun ⟨_, _, hsame⟩ => hirq (hsame ▸ hj)).symm

theorem getLsbD_enable_setEnableWord (w : Nat) (v : Word) {c : Nat} (hc : c < 16) {j : Nat} (hj : j ≤ 511) :
    ((setEnableWord s ctx w v).enable[c]).getLsbD j =
      if c = ctx ∧ ctx < s.cfg.numContexts ∧ j / 32 = w then v.getLsbD (j % 32) else (s.enable[c]).getLsbD j := by
  unfold setEnableWord
  split
  next hw =>
    rw [getLsbD_enable_setEnableOf s ctx _ hc]
    by_cases hwrite : c = ctx ∧ ctx < s.cfg.numContexts
    · obtain ⟨rfl, hctx⟩ := hwrite
      have hflag := flag_setFlagWord (enableOf s c) w v j (Nat.lt_succ_of_le hj)
      simpa [flag, enableOf_eq hctx, hctx] using hflag
    · rw [if_neg hwrite, if_neg (by tauto)]
  next hw => exact (if_neg fun ⟨_, _, hword⟩ => hw (by simp only [numWords]; omega)).symm

theorem sameButEnable_setEnableBit (irq : Nat) (e : Bool) : SameButEnable s (setEnableBit s ctx irq e) := by
  unfold setEnableBit setEnableOf
  split_ifs <;> rfl

end

/-- Settles O16: the read by `getEnableBit_eq_getLsbD`, the write by `getLsbD_enable_setEnableBit`. -/
theorem enableFlagAccessors : Obligations.EnableFlagAccessors := by
  intro s ctx irq e
  refine ⟨fun hctx hirq => ?_, fun h => ?_, ⟨_, exec_setEnableBit s ctx irq e, rfl, ?_, ?_⟩, rfl, ?_⟩
  · rw [exec_getEnableBit, getEnableBit_eq_getLsbD hctx hirq]
    rfl
  · rw [exec_getEnableBit, getEnableBit_eq_false h]
    rfl
  · exact (sameButEnable_setEnableBit s ctx irq e).respond _
  · exact fun c hc j => getLsbD_enable_setEnableBit s ctx irq e hc
  · cases e <;> rfl

/-- Settles O17: the read by `getLsbD_getEnableWord`, the write by `getLsbD_enable_setEnableWord`. -/
theorem enableWordAccessors : Obligations.EnableWordAccessors := by
  intro s ctx w v
  refine ⟨⟨_, _, exec_getEnableWord s ctx w, rfl, rfl, fun hctx hw b hb => ?_, getEnableWord_eq_zero⟩,
    ⟨_, exec_setEnableWord s ctx w v, rfl, ?_, ?_⟩⟩
  · rw [getLsbD_getEnableWord s ctx hw hb, getEnableBit_eq_getLsbD hctx (by omega)]
  · exact (sameButEnable_setEnableWord s ctx w v).respond _
  · exact fun c hc j => getLsbD_enable_setEnableWord s ctx w v hc

/-! A single-flag write seen through the word view (R85, 30_encoding.md R60). -/

/-- A word with one bit set to `e`, in the spelling of R85: or with the bit, or and with its complement. -/
def setWordBit (x : Word) (b : Nat) (e : Bool) : Word :=
  if e then x ||| BitVec.twoPow 32 b else x &&& ~~~(BitVec.twoPow 32 b)

theorem getLsbD_setWordBit (x : Word) (b : Nat) (e : Bool) {k : Nat} (hk : k < 32) :
    (setWordBit x b e).getLsbD k = if k = b then e else x.getLsbD k := by
  by_cases h : k = b
  · subst h; cases e <;> simp [setWordBit, hk]
  · cases e <;> simp [setWordBit, hk, h]

/-- The one bit of the one word that shows flag `irq`. -/
theorem flagWord_setFlag (f : IrqSet) (irq : Nat) (e : Bool) {w : Nat} (hw : w < 16) :
    flagWord (setFlag f irq e) w =
      if w = irq / 32 then setWordBit (flagWord f w) (irq % 32) e else flagWord f w := by
  refine BitVec.eq_of_getLsbD_eq fun b hb => ?_
  rw [getLsbD_flagWord _ _ _ hb, flag_setFlag _ _ _ _ (by omega)]
  by_cases hword : w = irq / 32
  · have hbit : 32 * w + b = irq ↔ b = irq % 32 := by omega
    rw [if_pos hword, getLsbD_setWordBit _ _ _ hb, getLsbD_flagWord _ _ _ hb, if_congr hbit rfl rfl]
  · rw [if_neg hword, getLsbD_flagWord _ _ _ hb, if_neg (by omega)]

theorem getPendingWord_setPendingFlag (s : State) {irq w : Nat} (hirq : irq ≤ 511) (hw : w < 16) (e : Bool) :
    getPendingWord (setPendingFlag s irq e) w =
      if w = irq / 32 then setWordBit (getPendingWord s w) (irq % 32) e else getPendingWord s w := by
  simp only [getPendingWord, setPendingFlag, maxIrq, numWords, hirq, hw, if_true, flagWord_setFlag _ _ _ hw]

theorem getEnableWord_setEnableBit (s : State) {ctx irq w : Nat} (hctx : ctx < s.cfg.numContexts) (hirq : irq ≤ 511)
    (hw : w < 16) (e : Bool) (c : Nat) :
    getEnableWord (setEnableBit s ctx irq e) c w =
      if c = ctx ∧ w = irq / 32 then setWordBit (getEnableWord s c w) (irq % 32) e else getEnableWord s c w := by
  simp only [getEnableWord, setEnableBit, maxIrq, numWords, hirq, hw, if_true, enableOf_setEnableOf, hctx, and_true]
  by_cases hc : c = ctx
  · subst hc
    simp only [true_and, if_true, flagWord_setFlag _ _ _ hw]
  · simp only [hc, false_and, if_false]

/-- Settles O21, by `getPendingWord_setPendingFlag` and `getEnableWord_setEnableBit` at each value of the flag. -/
theorem bitViewAndWordViewCohere : Obligations.BitViewAndWordViewCohere := fun s _ _ hirq hw =>
  ⟨getPendingWord_setPendingFlag s hirq hw true, getPendingWord_setPendingFlag s hirq hw false, fun _ c hctx =>
    ⟨getEnableWord_setEnableBit s hctx hirq hw true c, getEnableWord_setEnableBit s hctx hirq hw false c⟩⟩

/-! Priorities, thresholds and claim cells. -/

/-- Settles O13: an irq up to 511 is an index of the priority array, and above it nothing is written. -/
theorem priorityAccessors : Obligations.PriorityAccessors := by
  intro s irq p
  by_cases h : irq < 512
  · have hirq : irq ≤ 511 := Nat.le_of_lt_succ h
    simp only [exec_getPrio, exec_setPrio, getPrio, setPrio, maxIrq, h, hirq, dif_pos]
    exact ⟨rfl, rfl, rfl, rfl⟩
  · have hirq : ¬ irq ≤ 511 := fun hle => h (Nat.lt_succ_of_le hle)
    rw [exec_getPrio, exec_setPrio, getPrio_outOfRange hirq, setPrio_outOfRange hirq, dif_neg h, dif_neg h]
    exact ⟨rfl, rfl, rfl, rfl⟩

/-- With a new threshold the other three conditions of 41_arbitration.md R100 are as before. -/
theorem eligibleFor_setThreshold_iff {s : State} {ctx : Nat} (hctx : ctx < s.cfg.numContexts) (t : Word) (irq : Nat) :
    EligibleFor (setThreshold s ctx t) ctx irq ↔
      1 ≤ irq ∧ irq ≤ 511 ∧ getPending s irq = true ∧ getEnableBit s ctx irq = true ∧
        t.toNat < (getPrio s irq).toNat := by
  rw [EligibleFor, getThreshold_setThreshold, if_pos ⟨rfl, hctx⟩, getPending_congr (setThreshold_pending s ctx t),
    getEnableBit_congr (setThreshold_cfg s ctx t) (setThreshold_enable s ctx t),
    getPrio_congr (setThreshold_priority s ctx t)]

/-- Settles O18: the write is of the entry or of nothing, and what a threshold accepts is
`eligibleFor_setThreshold_iff`. -/
theorem thresholdAccessors : Obligations.ThresholdAccessors := by
  refine fun s ctx t => ⟨rfl, ?_, rfl, rfl, ?_, ?_⟩
  · rw [exec_setThreshold, setThreshold]
    split <;> rfl
  · rintro rfl irq hctx heligible
    obtain ⟨-, -, -, -, habove⟩ := (eligibleFor_setThreshold_iff hctx _ irq).mp heligible
    have hmax : (0xFFFFFFFF : Word).toNat = 0xFFFFFFFF := rfl
    have hprio := (getPrio s irq).isLt
    omega
  · rintro rfl irq hctx hone hle hprio hpending henable
    exact (eligibleFor_setThreshold_iff hctx _ irq).mpr ⟨hone, hle, hpending, henable, hprio⟩

/-- Settles O19: the read changes nothing, the write is of the cell or of nothing. -/
theorem claimCellAccessors : Obligations.ClaimCellAccessors := by
  refine fun s ctx v => ⟨rfl, ?_⟩
  rw [exec_setClaim, setClaim]
  split <;> rfl

end Sys2Proof.Machine
end

section
/-! The arbiter (41_arbitration.md): the winner of the scan in closed form (R102), what it depends on (R106, R109),
and the sources and contexts that never have one (R104, R107). -/

namespace Sys2Proof.Machine

/-! The closed form (R102). -/

section
variable {s : State} {ctx : Nat}

/-- R102's order: `w` is eligible, and every eligible source has a lower priority, or the same priority and no lower
id. -/
def IsWinner (s : State) (ctx w : Nat) : Prop :=
  EligibleFor s ctx w ∧
    ∀ j, EligibleFor s ctx j →
      (getPrio s j).toNat ≤ (getPrio s w).toNat ∧ ((getPrio s j).toNat = (getPrio s w).toNat → w ≤ j)

theorem IsWinner.unique {v w : Nat} (hv : IsWinner s ctx v) (hw : IsWinner s ctx w) : v = w := by
  obtain ⟨hle, hlow⟩ := hv.2 w hw.1
  obtain ⟨hle', hlow'⟩ := hw.2 v hv.1
  have hsame : (getPrio s w).toNat = (getPrio s v).toNat := Nat.le_antisymm hle hle'
  exact Nat.le_antisymm (hlow hsame) (hlow' hsame.symm)

/-- An eligible source has a priority above a threshold, hence not 0 (R104). -/
theorem EligibleFor.prio_pos {irq : Nat} (h : EligibleFor s ctx irq) : 0 < (getPrio s irq).toNat := by
  obtain ⟨-, -, -, -, hprio⟩ := h
  exact Nat.zero_lt_of_lt hprio

/-- An iteration takes its source, and that is above the candidate, or it keeps the candidate, and then no eligible
source was above it (R101). -/
theorem scanStep_eligible_cases (s : State) (ctx : Nat) (c : Candidate) (irq : Nat) :
    (scanStep s ctx c irq = ⟨irq, getPrio s irq⟩ ∧ c.prio.toNat < (getPrio s irq).toNat) ∨
      (scanStep s ctx c irq = c ∧ (EligibleFor s ctx irq → (getPrio s irq).toNat ≤ c.prio.toNat)) := by
  unfold scanStep
  split
  next htaken =>
    simp only [Bool.and_eq_true, decide_eq_true_eq] at htaken
    exact .inl ⟨rfl, htaken.2⟩
  next hkept =>
    refine .inr ⟨rfl, fun ⟨_, _, hpending, henable, hprio⟩ => Nat.le_of_not_lt fun habove => hkept ?_⟩
    simp only [hpending, henable, BitVec.lt_def, hprio, habove, decide_true, Bool.and_self]

/-- The candidate's priority is the one its source has; with no candidate it is 0. -/
theorem scanUpTo_prio (s : State) (ctx n : Nat) :
    (scanUpTo s ctx n).prio = if (scanUpTo s ctx n).irq = 0 then 0 else getPrio s (scanUpTo s ctx n).irq := by
  induction n with
  | zero => rfl
  | succ n ih =>
    rw [scanUpTo_succ]
    obtain hkept | ⟨htaken, -⟩ := scanStep_cases s ctx (scanUpTo s ctx n) (n + 1)
    · rw [hkept]
      exact ih
    · rw [htaken]
      rfl

/-- No eligible source scanned so far comes before the candidate in R102's order. -/
theorem scanUpTo_first {n j : Nat} (hj : EligibleFor s ctx j) (hjn : j ≤ n) :
    (getPrio s j).toNat ≤ (scanUpTo s ctx n).prio.toNat ∧
      ((getPrio s j).toNat = (scanUpTo s ctx n).prio.toNat → (scanUpTo s ctx n).irq ≤ j) := by
  induction n with
  | zero => exact absurd hj.1 (by omega)
  | succ n ih =>
    rw [scanUpTo_succ]
    obtain ⟨htaken, habove⟩ | ⟨hkept, hbelow⟩ := scanStep_eligible_cases s ctx (scanUpTo s ctx n) (n + 1)
    · rw [htaken]
      obtain rfl | hlt := Nat.eq_or_lt_of_le hjn
      · exact ⟨Nat.le_refl _, fun _ => Nat.le_refl _⟩
      · obtain ⟨hle, -⟩ := ih (Nat.le_of_lt_succ hlt)
        have hlower := Nat.lt_of_le_of_lt hle habove
        exact ⟨Nat.le_of_lt hlower, fun hsame => absurd hsame (Nat.ne_of_lt hlower)⟩
    · rw [hkept]
      obtain rfl | hlt := Nat.eq_or_lt_of_le hjn
      · exact ⟨hbelow hj, fun _ => Nat.le_succ_of_le (scanUpTo_irq_le s ctx n)⟩
      · exact ih (Nat.le_of_lt_succ hlt)

/-- With no winner nothing is eligible: an eligible source has a priority above 0, the candidate's (R106). -/
theorem not_eligibleFor_of_best_eq_zero (h : best s ctx = 0) (irq : Nat) : ¬ EligibleFor s ctx irq := by
  intro heligible
  have hprio : (scanUpTo s ctx 511).prio = 0 := (scanUpTo_prio s ctx 511).trans (if_pos h)
  obtain ⟨hle, -⟩ := scanUpTo_first heligible heligible.2.1
  rw [hprio] at hle
  exact absurd heligible.prio_pos (Nat.not_lt.mpr hle)

theorem isWinner_best (h : best s ctx ≠ 0) : IsWinner s ctx (best s ctx) := by
  refine ⟨eligibleFor_best h, fun j hj => ?_⟩
  have hprio : (scanUpTo s ctx 511).prio = getPrio s (best s ctx) := (scanUpTo_prio s ctx 511).trans (if_neg h)
  rw [← hprio]
  exact scanUpTo_first hj hj.2.1

/-- The winner is the one source that R102's order puts first. -/
theorem IsWinner.best_eq {w : Nat} (h : IsWinner s ctx w) : best s ctx = w :=
  (isWinner_best fun hzero => not_eligibleFor_of_best_eq_zero hzero w h.1).unique h

end

/-- Settles O22: BEST is 0 with nothing eligible (`not_eligibleFor_of_best_eq_zero`), or first in R102's order
(`isWinner_best`). -/
theorem arbiterClosedForm : Obligations.ArbiterClosedForm := by
  intro s ctx
  by_cases h : best s ctx = 0
  · exact .inl ⟨h, not_eligibleFor_of_best_eq_zero h⟩
  · exact .inr (isWinner_best h)

/-! Two claims in a row (R103). -/

section
variable {s : State} {ctx : Nat}

/-- A source that precedes or outranks every other eligible source is the winner. -/
theorem best_eq_of_first {w : Nat} (hw : EligibleFor s ctx w)
    (hfirst : ∀ j, EligibleFor s ctx j →
      (w ≤ j ∧ getPrio s j = getPrio s w) ∨ (getPrio s j).toNat < (getPrio s w).toNat) :
    best s ctx = w := by
  refine IsWinner.best_eq ⟨hw, fun j hj => ?_⟩
  obtain ⟨hle, hsame⟩ | hlower := hfirst j hj
  · exact ⟨Nat.le_of_eq (congrArg BitVec.toNat hsame), fun _ => hle⟩
  · exact ⟨Nat.le_of_lt hlower, fun hsame => absurd hsame (Nat.ne_of_lt hlower)⟩

/-- After the commit of a winner the other sources are eligible as before. -/
theorem eligibleFor_commitClaim_iff (w j : Nat) :
    EligibleFor (commitClaim s ctx w) ctx j ↔ EligibleFor s ctx j ∧ j ≠ w := by
  simp only [EligibleFor, getPrio_congr (commitClaim_priority s ctx w), getPending_commitClaim,
    getEnableBit_congr (commitClaim_cfg s ctx w) (commitClaim_enable s ctx w),
    getThreshold_congr (commitClaim_cfg s ctx w) (commitClaim_threshold s ctx w)]
  by_cases hj : j = w
  · subst hj
    simp only [true_and, ne_eq, not_true_eq_false, and_false, iff_false]
    rintro ⟨-, hle, hpending, -⟩
    simp [hle] at hpending
  · simp [hj]

/-- An atomic CLAIM_IRQ on a context with a winner answers it and commits it (42_claim_complete.md R110). -/
theorem exec_claimIrq_of_winner {w : Nat} (hatomic : s.cfg.claimAtomicity = .atomic) (hbest : best s ctx = w)
    (hw : w ≠ 0) : exec (.claimIrq ctx) s = .next (respond (.claim (some w)) (commitClaim s ctx w)) := by
  subst hbest
  rw [exec_claimRequest (.inl ⟨rfl, rfl⟩), beginClaim_of_winner .port hatomic hw]
  rfl

end

/-- Settles O23: `a` comes first (`best_eq_of_first`), and without it (`eligibleFor_commitClaim_iff`) `b` does. -/
theorem tiesGoToTheLowestIrqFirst : Obligations.TiesGoToTheLowestIrqFirst := by
  intro s ctx a b hatomic hab ha hb htie hothers
  have hfirst : best s ctx = a := best_eq_of_first ha fun j hj => by
    obtain rfl | rfl | hlower := hothers j hj
    · exact .inl ⟨Nat.le_refl _, rfl⟩
    · exact .inl ⟨Nat.le_of_lt hab, htie.symm⟩
    · exact .inr hlower
  have hprio := getPrio_congr (commitClaim_priority s ctx a)
  have hsecond : best (respond (.claim (some a)) (commitClaim s ctx a)) ctx = b := by
    refine best_eq_of_first ((eligibleFor_commitClaim_iff a b).mpr ⟨hb, Nat.ne_of_gt hab⟩) fun j hj => ?_
    obtain ⟨hj, hja⟩ := (eligibleFor_commitClaim_iff a j).mp hj
    rw [getPrio_respond, getPrio_respond, hprio, hprio]
    obtain rfl | rfl | hlower := hothers j hj
    · exact absurd rfl hja
    · exact .inl ⟨Nat.le_refl _, rfl⟩
    · exact .inr (htie ▸ hlower)
  exact ⟨_, _, exec_claimIrq_of_winner hatomic hfirst (Nat.ne_of_gt ha.1), rfl,
    exec_claimIrq_of_winner (by simpa using hatomic) hsecond (Nat.ne_of_gt hb.1), rfl⟩

/-! Priority 0 (R104). -/

section
variable {s : State} {ctx : Nat}

theorem not_eligibleFor_of_prio_zero {irq : Nat} (h : getPrio s irq = 0) : ¬ EligibleFor s ctx irq := by
  intro heligible
  have hpos := heligible.prio_pos
  rw [h] at hpos
  exact absurd hpos (Nat.lt_irrefl 0)

theorem best_ne_of_prio_zero {irq : Nat} (h : getPrio s irq = 0) (hirq : irq ≠ 0) : best s ctx ≠ irq := by
  rintro rfl
  exact not_eligibleFor_of_prio_zero h (eligibleFor_best hirq)

/-- An iteration that read priority 0 keeps its candidate: nothing is below 0. -/
theorem concludeIteration_of_prio_zero {c : ClaimInFlight} {r : ScanReads} (irq : Nat) (h : r.priority = some 0) :
    concludeIteration c irq r = c := by
  obtain hkept | ⟨p, _, hp, -, -, -, hlt, -⟩ := concludeIteration_cases c irq r
  · exact hkept
  · obtain rfl : (0 : Word) = p := Option.some.inj (h.symm.trans hp)
    exact absurd hlt BitVec.not_lt_zero

/-- The start of a claim clears no flag but its winner's, which is eligible (42_claim_complete.md R110). -/
theorem getPending_beginClaim_of_not_eligibleFor {irq : Nat} (h : ¬ EligibleFor s ctx irq) (form : ClaimForm) :
    getPending (beginClaim form ctx s) irq = getPending s irq := by
  obtain ⟨hsame, -⟩ | ⟨-, hbest, hcommit, -⟩ := beginClaim_writes form ctx s
  · exact getPending_congr hsame irq
  · rw [getPending_congr hcommit, getPending_commitClaim, if_neg]
    rintro ⟨rfl, -⟩
    exact h (eligibleFor_best hbest)

end

/-- Settles O24: no source of priority 0 is eligible, so no scan has it for its winner and no claim takes its flag. -/
theorem priorityZeroNeverWins : Obligations.PriorityZeroNeverWins := fun _ _ irq h =>
  ⟨not_eligibleFor_of_prio_zero h, best_ne_of_prio_zero h, fun _ _ => concludeIteration_of_prio_zero irq,
    fun _ form _ hclaim => ⟨_, exec_claimRequest hclaim,
      getPending_beginClaim_of_not_eligibleFor (not_eligibleFor_of_prio_zero h) form⟩⟩

/-! What the winner depends on (R106, R109). -/

theorem best_congr {s t : State} {ctx : Nat} (hthreshold : getThreshold t ctx = getThreshold s ctx)
    (h : ∀ irq, 1 ≤ irq → irq ≤ 511 → getPrio t irq = getPrio s irq ∧ getPending t irq = getPending s irq ∧
      getEnableBit t ctx irq = getEnableBit s ctx irq) : best t ctx = best s ctx :=
  congrArg Candidate.irq (scanUpTo_congr hthreshold h)

/-- Settles O26, by `best_congr`. -/
theorem arbiterReadsOnlyItsInputs : Obligations.ArbiterReadsOnlyItsInputs :=
  fun _ _ _ h hthreshold => best_congr hthreshold h

/-- Settles O25: the winner is an eligible irq id, and each write of entry 0 leaves the entries that the scan reads. -/
theorem scanStartsAtIrqOne : Obligations.ScanStartsAtIrqOne := by
  refine ⟨fun s ctx => ⟨best_le s ctx, eligibleFor_best⟩, fun s ctx p b e => ?_⟩
  refine best_congr ?_ fun irq hone _ => ⟨?_, ?_, ?_⟩
  · exact getThreshold_congr (by simp) (by simp) ctx
  · rw [getPrio_congr (s := setPrio s 0 p) (by simp), getPrio_setPrio, if_neg (by omega)]
  · rw [getPending_congr (setEnableBit_pending _ ctx 0 e), getPending_setPendingFlag, if_neg (by omega)]
    exact getPending_congr (by simp) irq
  · rw [getEnableBit_setEnableBit, if_neg (by omega)]
    exact getEnableBit_congr (by simp) (by simp) ctx irq

/-! A context without storage (R107). -/

section
variable {s : State} {ctx : Nat}

theorem best_outOfRange (h : ¬ ctx < s.cfg.numContexts) : best s ctx = 0 :=
  by_contra fun hbest => h (eligibleFor_best hbest).ctx_lt

theorem completeClaim_outOfRange (h : ¬ ctx < s.cfg.numContexts) (v : Word) : completeClaim s ctx v = s :=
  setClaim_outOfRange s ctx 0 h

/-- A serviced access at the offset of a claim register reaches it. -/
theorem accessedRegister_claim (cfg : Config) (h : ctx ≤ 511) :
    accessedRegister cfg (cfg.base + (0x200004 + 0x1000 * ctx)) 4 = .claim ctx := by
  have hoffset : 0x200004 + 0x1000 * ctx = claimOffset ctx := by
    simp only [claimOffset, contextBase, contextStride]
    omega
  rw [accessedRegister_serviced cfg (by omega) (by omega), hoffset, decodeOffset_claimOffset h]

/-- What `NoCandidate` says of a claim that is scanning. -/
theorem noCandidate_iff_of_scan {c : ClaimInFlight} {irq : Nat} {r : ScanReads} (h : c.phase = .scan irq r) :
    NoCandidate c ↔ c.best = 0 ∧ r.enable ≠ some true := by
  simp only [NoCandidate, h]

theorem noReads_enable_ne : noReads.enable ≠ some true := by simp [noReads]

theorem noCandidate_freshClaim (agent ctx : Nat) (form : ClaimForm) : NoCandidate (freshClaim agent ctx form) :=
  (noCandidate_iff_of_scan rfl).mpr ⟨rfl, noReads_enable_ne⟩

/-- A claim without a candidate is still scanning. -/
theorem NoCandidate.phase_eq_scan {c : ClaimInFlight} (h : NoCandidate c) : ∃ irq r, c.phase = .scan irq r := by
  obtain ⟨-, hphase⟩ := h
  cases hc : c.phase with
  | scan irq r => exact ⟨irq, r, rfl⟩
  | clear => simp [hc] at hphase
  | record => simp [hc] at hphase

/-- On a context without storage no read sets the enable flag of the iteration. -/
theorem readField_enable_ne (h : ¬ ctx < s.cfg.numContexts) {r : ScanReads} (hr : r.enable ≠ some true) (irq : Nat)
    (f : ScanField) : (readField s ctx irq r f).enable ≠ some true := by
  cases f with
  | enable => simp [readField, getEnableBit_outOfRange s ctx irq h]
  | _ => exact hr

theorem concludeIteration_of_enable_ne {c : ClaimInFlight} {r : ScanReads} (irq : Nat) (h : r.enable ≠ some true) :
    concludeIteration c irq r = c := by
  obtain hkept | ⟨_, _, -, -, -, henable, -⟩ := concludeIteration_cases c irq r
  · exact hkept
  · exact absurd henable h

/-- A move from `s` to `t` ends the claim `c` with `None`, or leaves it in flight without a candidate. -/
def StaysWithoutCandidate (c : ClaimInFlight) (s t : State) : Prop :=
  t = finishClaim c none s ∨
    ∃ c', c'.agent = c.agent ∧ c'.ctx = c.ctx ∧ c'.form = c.form ∧ NoCandidate c' ∧ t = keepClaim c' s

/-- Such a move writes no array (42_claim_complete.md R115, R116). -/
theorem StaysWithoutCandidate.sameArrays {c : ClaimInFlight} {t : State} (h : StaysWithoutCandidate c s t) :
    SameArrays s t := by
  obtain rfl | ⟨c', -, -, -, -, rfl⟩ := h <;> exact ⟨rfl, rfl, rfl, rfl, rfl⟩

/-- What such a move leaves in flight, and answers. -/
theorem StaysWithoutCandidate.findClaim_cases {c : ClaimInFlight} {t : State} (h : StaysWithoutCandidate c s t) :
    (findClaim c.agent t.inflight = none ∧ t.response = some (claimResponse c.form none)) ∨
      ∃ c', findClaim c.agent t.inflight = some c' ∧ c'.ctx = c.ctx ∧ c'.form = c.form ∧ NoCandidate c' := by
  obtain rfl | ⟨c', hagent, hctx, hform, hnone, rfl⟩ := h
  · exact .inl ⟨by simp, by simp⟩
  · exact .inr ⟨c', by simp [← hagent], hctx, hform, hnone⟩

variable {c : ClaimInFlight} {irq : Nat} {r : ScanReads}

theorem afterIteration_staysWithoutCandidate (hbest : c.best = 0) :
    StaysWithoutCandidate c s (afterIteration irq c s) := by
  obtain ⟨-, h⟩ | ⟨-, -, h⟩ | ⟨-, hwinner, -⟩ := afterIteration_cases irq c s
  · exact .inr ⟨{ c with phase := .scan (irq + 1) noReads }, rfl, rfl, rfl,
      (noCandidate_iff_of_scan rfl).mpr ⟨hbest, noReads_enable_ne⟩, h⟩
  · exact .inl h
  · exact absurd hbest hwinner

theorem scanRead_staysWithoutCandidate (hctx : ¬ c.ctx < s.cfg.numContexts) (hbest : c.best = 0)
    (hr : r.enable ≠ some true) (f : ScanField) (skip : Bool) :
    StaysWithoutCandidate c s (scanRead f skip c irq r s) := by
  obtain ⟨r', hread, hcases⟩ := scanRead_cases f skip c irq r s
  have hr' : r'.enable ≠ some true := hread ▸ readField_enable_ne hctx hr irq _
  obtain ⟨-, h⟩ | ⟨-, h⟩ := hcases <;> rw [h]
  · rw [concludeIteration_of_enable_ne irq hr']
    exact afterIteration_staysWithoutCandidate hbest
  · exact .inr ⟨{ c with phase := .scan irq r' }, rfl, rfl, rfl,
      (noCandidate_iff_of_scan rfl).mpr ⟨hbest, hr'⟩, rfl⟩

/-- Every move of a claim without a candidate, on a context without storage (R107). -/
theorem advanceClaim_staysWithoutCandidate (hctx : ¬ c.ctx < s.cfg.numContexts) (hnone : NoCandidate c)
    (choice : ClaimChoice) : StaysWithoutCandidate c s (advanceClaim choice c s) := by
  obtain ⟨irq, r, hphase⟩ := hnone.phase_eq_scan
  obtain ⟨hbest, hr⟩ := (noCandidate_iff_of_scan hphase).mp hnone
  rw [advanceClaim_scan hphase]
  cases choice with
  | read f skip => exact scanRead_staysWithoutCandidate hctx hbest hr f skip
  | thresholdOnce =>
    simp only [advanceScan]
    split
    next =>
      exact .inr ⟨{ c with heldThreshold := some (getThreshold s c.ctx) }, rfl, rfl, rfl,
        (noCandidate_iff_of_scan hphase).mpr ⟨hbest, hr⟩, rfl⟩
    next => exact scanRead_staysWithoutCandidate hctx hbest hr .threshold false

end

/-- Settles O27: without storage there is no winner (`best_outOfRange`), no enable flag to read
(`advanceClaim_staysWithoutCandidate`) and no cell to clear (`completeClaim_outOfRange`). -/
theorem contextWithoutStorageHasNoWinner : Obligations.ContextWithoutStorageHasNoWinner := by
  intro s ctx hle
  have hctx : ¬ ctx < s.cfg.numContexts := Nat.not_lt.mpr hle
  refine ⟨best_outOfRange hctx, fun hatomic form i hclaim => ?_, fun hrelaxed form i hclaim => ?_,
    fun choice c hc hnone => ?_, fun v => ?_, fun k v hk => ?_, fun v hwindow => ?_⟩
  · rw [exec_claimRequest hclaim, beginClaim_of_no_winner form hatomic (best_outOfRange hctx)]
    rfl
  · refine ⟨_, freshClaim s.agent ctx form, exec_claimRequest hclaim, ?_⟩
    rw [beginClaim_relaxed form ctx hrelaxed]
    exact ⟨⟨rfl, rfl, rfl, rfl, rfl⟩, findClaim_putClaim_same (freshClaim s.agent ctx form) s.inflight, rfl, rfl,
      noCandidate_freshClaim s.agent ctx form⟩
  · have hmove := advanceClaim_staysWithoutCandidate (hc ▸ hctx) hnone choice
    exact ⟨hmove.sameArrays, hmove.findClaim_cases⟩
  · rw [exec, execCompleteIrq, completeClaim_outOfRange hctx]
    rfl
  · rw [exec, execClaimW, hk, writeRegister, completeClaim_outOfRange hctx]
    rfl
  · rw [exec, execMmioWrite, accessedRegister_claim s.cfg hwindow, writeRegister, completeClaim_outOfRange hctx]
    rfl

end Sys2Proof.Machine
end

section
/-! The atomic claim and the completion (42_claim_complete.md sections 1 and 3): their frames, that one signal is
claimed once (R123), and that no claim reads a claim cell (R113). -/

namespace Sys2Proof.Machine

/-! The frames of the two writes of a commit. -/

section
variable (s : State)

theorem setPendingFlag_with_pending (irq : Nat) (e : Bool) (flags : IrqSet) :
    { setPendingFlag s irq e with pending := flags } = { s with pending := flags } := by
  unfold setPendingFlag
  split <;> rfl

theorem setClaim_with_claim (ctx : Nat) (v : Word) (cells : Vector Word 16) :
    { setClaim s ctx v with claim := cells } = { s with claim := cells } := by
  unfold setClaim
  split <;> rfl

theorem commitClaim_with_pending_claim (ctx w : Nat) (flags : IrqSet) (cells : Vector Word 16) :
    { commitClaim s ctx w with pending := flags, claim := cells } = { s with pending := flags, claim := cells } :=
  calc
    { commitClaim s ctx w with pending := flags, claim := cells }
      = { ({ setPendingFlag s w false with claim := cells } : State) with pending := flags } :=
        congrArg (fun t : State => { t with pending := flags }) (setClaim_with_claim _ ctx _ cells)
    _ = { s with pending := flags, claim := cells } :=
        congrArg (fun t : State => { t with claim := cells }) (setPendingFlag_with_pending s w false flags)

/-- Where a context has storage a write of its cell is a write of the array. -/
theorem claim_setClaim {ctx : Nat} (hctx : ctx < s.cfg.numContexts) (v : Word) :
    (setClaim s ctx v).claim = s.claim.set ctx v (s.cfg.context_lt hctx) := by
  simp only [setClaim, hctx, dif_pos]

end

/-- Settles O29: with a winner the claim commits it (`exec_claimIrq_of_winner`), without one it only answers. -/
theorem atomicClaimTakesTheWinner : Obligations.AtomicClaimTakesTheWinner := by
  refine fun s ctx hatomic => ⟨rfl, fun hbest => ?_, fun hbest => ?_⟩
  · refine ⟨_, exec_claimIrq_of_winner hatomic rfl hbest, rfl, fun j hj => ?_, ?_, ?_⟩
    · have hflag := getLsbD_pending_setPendingFlag s (best s ctx) false hj
      rw [respond_pending, commitClaim, setClaim_pending, hflag]
      by_cases h : j = best s ctx <;> simp [h]
    · have hctx := (eligibleFor_best hbest).ctx_lt
      exact ⟨hctx, (commitClaim_claim s ctx _).trans (claim_setClaim s hctx _)⟩
    · exact congrArg (fun t : State => { t with response := s.response })
        (commitClaim_with_pending_claim s ctx (best s ctx) s.pending s.claim)
  · rw [exec_claimRequest (.inl ⟨rfl, rfl⟩), beginClaim_of_no_winner .port hatomic hbest]
    rfl

/-- Settles O32: the argument is ignored, and the write is of the cell or of nothing. -/
theorem completionClearsOnlyItsCell : Obligations.CompletionClearsOnlyItsCell := by
  refine fun s ctx v v' => ⟨?_, rfl, rfl⟩
  rw [exec, execCompleteIrq, completeClaim, setClaim]
  split <;> rfl

/-! One signal, one claim (R123). -/

section
variable {s t : State} {w : Nat}

/-- The answer of a claim tells the winner: an irq id is not lost in the 32 bits of an MMIO value. -/
theorem claimResponse_winnerOf_inj {form : ClaimForm} {v w : Nat} (hv : v ≤ 511) (hw : w ≤ 511)
    (h : claimResponse form (winnerOf v) = claimResponse form (some w)) : v = w := by
  cases form with
  | port =>
    have hsome : winnerOf v = some w := Response.claim.inj h
    unfold winnerOf at hsome
    split at hsome
    next => cases hsome
    next => exact Option.some.inj hsome
  | mmio =>
    have hword : winnerWord (winnerOf v) = winnerWord (some w) := (Response.value.inj h).1
    have hvalue : (winnerOf v).getD 0 = v := by
      unfold winnerOf
      split
      next hzero => exact hzero.symm
      next => rfl
    have hnat : v % 2 ^ 32 = w % 2 ^ 32 := by
      simpa only [winnerWord, hvalue, Option.getD_some, BitVec.toNat_ofNat] using congrArg BitVec.toNat hword
    omega

/-- A source becomes pending only by a request that signals it (60_exceptions.md R153). -/
theorem signals_of_changesPending {i : Instr} (h : ChangesPending s w i true) : Signals s.cfg w i := by
  generalize hvalue : true = value at h
  cases h with
  | set => rfl
  | clear => cases hvalue
  | claim => cases hvalue
  | word hwrites =>
    obtain rfl | ⟨k, rfl, hk⟩ | ⟨n, rfl, rfl⟩ := hwrites
    · exact ⟨rfl, hvalue.symm⟩
    · exact ⟨hk, hvalue.symm⟩
    · exact ⟨rfl, rfl, (getLsbD_writeValue n _ (Nat.mod_lt _ (by decide))).symm.trans hvalue.symm⟩

/-- Without a signal a source that is not pending stays so. -/
theorem exec_getPending_eq_false {i : Instr} (hexec : exec i s = .next t) (hquiet : ¬ Signals s.cfg w i)
    (hs : getPending s w = false) : getPending t w = false := by
  by_contra hset
  have hpending : getPending t w = true := Bool.eq_true_of_not_eq_false hset
  have hchange := (Effect.of_exec hexec).changesPending (irq := w) (by simp [hpending, hs])
  rw [hpending] at hchange
  exact hquiet (signals_of_changesPending hchange)

theorem execAll_getPending_eq_false {l : List Instr} (hquiet : ∀ j ∈ l, ¬ Signals s.cfg w j)
    (hs : getPending s w = false) :
    ∃ u, execAll l s = .next u ∧ u.cfg = s.cfg ∧ getPending u w = false := by
  induction l generalizing s with
  | nil => exact ⟨s, rfl, rfl, hs⟩
  | cons i l ih =>
    obtain ⟨hi, hl⟩ := List.forall_mem_cons.mp hquiet
    obtain ⟨t, hexec, -⟩ := exec_effect i s
    have hcfg := exec_cfg hexec
    obtain ⟨u, hu, hucfg, hupending⟩ := ih (s := t) (hcfg ▸ hl) (exec_getPending_eq_false hexec hi hs)
    exact ⟨u, (execAll_cons l hexec).trans hu, hucfg.trans hcfg, hupending⟩

/-- No atomic claim answers a source that is not pending. -/
theorem beginClaim_response_ne {ctx : Nat} (form : ClaimForm) (hatomic : s.cfg.claimAtomicity = .atomic)
    (hpending : getPending s w = false) (hw : w ≤ 511) (hw0 : w ≠ 0) :
    (beginClaim form ctx s).response ≠ some (claimResponse form (some w)) := by
  rw [beginClaim_atomic form ctx hatomic, respond_response]
  intro h
  have hbest : best s ctx = w := claimResponse_winnerOf_inj (best_le s ctx) hw (Option.some.inj h)
  obtain ⟨-, -, hset, -⟩ := eligibleFor_best (hbest ▸ hw0)
  rw [hbest, hpending] at hset
  cases hset

end

/-- Settles O30: the claim clears the winner's flag, without a signal it stays clear (`execAll_getPending_eq_false`),
and no claim answers a source that is not pending (`beginClaim_response_ne`). -/
theorem atomicClaimsNeverShareAnIrq : Obligations.AtomicClaimsNeverShareAnIrq := by
  rintro s a w form i hatomic rfl hbest hclaim
  have hle := best_le s a
  refine ⟨_, exec_claimRequest hclaim, ?_, fun between hquiet => ?_⟩
  · rw [beginClaim_of_winner form hatomic hbest, respond_response]
  · have hclear : getPending (beginClaim form a s) (best s a) = false := by
      rw [beginClaim_of_winner form hatomic hbest, getPending_respond, getPending_commitClaim, if_pos ⟨rfl, hle⟩]
    have hcfg := beginClaim_cfg form a s
    obtain ⟨u, hu, hucfg, hupending⟩ := execAll_getPending_eq_false (hcfg ▸ hquiet) hclear
    refine ⟨u, hu, fun b form' k hk => ?_⟩
    rw [← hcfg, ← hucfg] at hk hatomic
    exact ⟨_, exec_claimRequest hk, beginClaim_response_ne form' hatomic hupending hle hbest⟩

/-! No claim reads a claim cell (R113, R121). -/

/-- Nothing but the claim cells differs. -/
def SameButCells (s t : State) : Prop := ∃ cells, t = { s with claim := cells }

section
variable {s t : State}

theorem SameButCells.erased (h : SameButCells s t) (erased : Vector Word 16) :
    { s with claim := erased } = { t with claim := erased } := by
  obtain ⟨cells, rfl⟩ := h
  rfl

theorem SameButCells.best_eq (h : SameButCells s t) (ctx : Nat) : best t ctx = best s ctx := by
  obtain ⟨cells, rfl⟩ := h
  exact best_congr rfl fun _ _ _ => ⟨rfl, rfl, rfl⟩

theorem SameButCells.respond (h : SameButCells s t) (r : Response) : SameButCells (respond r s) (respond r t) := by
  obtain ⟨cells, rfl⟩ := h
  exact ⟨cells, rfl⟩

theorem SameButCells.keepClaim (h : SameButCells s t) (c : ClaimInFlight) :
    SameButCells (keepClaim c s) (keepClaim c t) := by
  obtain ⟨cells, rfl⟩ := h
  exact ⟨cells, rfl⟩

theorem SameButCells.finishClaim (h : SameButCells s t) (c : ClaimInFlight) (w : Option Nat) :
    SameButCells (finishClaim c w s) (finishClaim c w t) := by
  obtain ⟨cells, rfl⟩ := h
  exact ⟨cells, rfl⟩

theorem SameButCells.setPendingFlag (h : SameButCells s t) (irq : Nat) (e : Bool) :
    SameButCells (setPendingFlag s irq e) (setPendingFlag t irq e) := by
  obtain ⟨cells, rfl⟩ := h
  refine ⟨cells, ?_⟩
  unfold Machine.setPendingFlag
  split <;> rfl

theorem SameButCells.setClaim (h : SameButCells s t) (ctx : Nat) (v : Word) :
    SameButCells (setClaim s ctx v) (setClaim t ctx v) := by
  obtain ⟨cells, rfl⟩ := h
  refine ⟨(Machine.setClaim { s with claim := cells } ctx v).claim, ?_⟩
  rw [setClaim_with_claim s ctx v]
  exact (setClaim_with_claim { s with claim := cells } ctx v _).trans rfl

theorem SameButCells.claimAtomic (h : SameButCells s t) (ctx : Nat) :
    SameButCells (claimAtomic s ctx) (claimAtomic t ctx) := by
  unfold Machine.claimAtomic
  rw [h.best_eq ctx]
  split
  · exact h
  · exact (h.setPendingFlag _ false).setClaim ctx _

/-- The start of a claim, in either variant. -/
theorem SameButCells.beginClaim (h : SameButCells s t) (form : ClaimForm) (ctx : Nat) :
    SameButCells (beginClaim form ctx s) (beginClaim form ctx t) := by
  have hcfg : t.cfg = s.cfg := by
    obtain ⟨cells, rfl⟩ := h
    rfl
  cases hvariant : s.cfg.claimAtomicity with
  | atomic =>
    rw [beginClaim_atomic form ctx hvariant, beginClaim_atomic form ctx (hcfg ▸ hvariant), h.best_eq ctx]
    exact (h.claimAtomic ctx).respond _
  | relaxed =>
    rw [beginClaim_relaxed form ctx hvariant, beginClaim_relaxed form ctx (hcfg ▸ hvariant)]
    obtain ⟨cells, rfl⟩ := h
    exact ⟨cells, rfl⟩

theorem SameButCells.afterIteration (h : SameButCells s t) (irq : Nat) (c : ClaimInFlight) :
    SameButCells (afterIteration irq c s) (afterIteration irq c t) := by
  unfold Machine.afterIteration
  split_ifs
  · exact h.keepClaim _
  · exact h.finishClaim c none
  · exact h.keepClaim _

theorem SameButCells.scanRead (h : SameButCells s t) (f : ScanField) (skip : Bool) (c : ClaimInFlight) (irq : Nat)
    (r : ScanReads) : SameButCells (scanRead f skip c irq r s) (scanRead f skip c irq r t) := by
  have hread : ∀ f, readField t c.ctx irq r f = readField s c.ctx irq r f := by
    obtain ⟨cells, rfl⟩ := h
    intro f
    cases f <;> rfl
  simp only [Machine.scanRead, hread]
  split
  · exact h.afterIteration irq _
  · exact h.keepClaim _

/-- Every move of a claim in flight. -/
theorem SameButCells.advanceClaim (h : SameButCells s t) (choice : ClaimChoice) (c : ClaimInFlight) :
    SameButCells (advanceClaim choice c s) (advanceClaim choice c t) := by
  cases hphase : c.phase with
  | clear =>
    rw [advanceClaim_clear hphase, advanceClaim_clear hphase]
    exact (h.setPendingFlag c.best false).keepClaim _
  | record =>
    rw [advanceClaim_record hphase, advanceClaim_record hphase]
    exact (h.setClaim c.ctx _).finishClaim c _
  | scan irq r =>
    rw [advanceClaim_scan hphase, advanceClaim_scan hphase]
    cases choice with
    | read f skip => exact h.scanRead f skip c irq r
    | thresholdOnce =>
      simp only [advanceScan]
      split
      · obtain ⟨cells, rfl⟩ := h
        exact ⟨cells, rfl⟩
      · exact h.scanRead .threshold false c irq r

end

/-- Settles O31: from states that differ in their claim cells the start of a claim (`SameButCells.beginClaim`) and a
move of one (`SameButCells.advanceClaim`) lead to states that differ in their claim cells. -/
theorem claimsNeverReadAClaimCell : Obligations.ClaimsNeverReadAClaimCell := by
  intro s cells erased
  have hs : SameButCells s { s with claim := cells } := ⟨cells, rfl⟩
  refine ⟨fun ctx form i hclaim => ?_, fun choice c => (hs.advanceClaim choice c).erased erased⟩
  exact ⟨_, _, exec_claimRequest hclaim, exec_claimRequest (s := { s with claim := cells }) hclaim,
    (hs.beginClaim form ctx).erased erased⟩

end Sys2Proof.Machine
end

section
/-! The relaxed claim move by move (42_claim_complete.md R115, R116): how it starts, what its scan reads and decides,
its two writes, and what two of them, or one and a signal, can do to each other (R117). -/

namespace Sys2Proof.Machine

/-- Settles O51: in the relaxed variant the start only enters the fresh claim (`beginClaim_relaxed`). -/
theorem relaxedClaimStarts : Obligations.RelaxedClaimStarts := by
  intro s ctx form i hrelaxed hclaim
  refine ⟨_, exec_claimRequest hclaim, ?_⟩
  rw [beginClaim_relaxed form ctx hrelaxed]
  exact ⟨rfl, findClaim_putClaim_same (freshClaim s.agent ctx form) s.inflight,
    fun b hb => findClaim_putClaim_other (freshClaim s.agent ctx form) s.inflight hb, rfl⟩

/-! What a move leaves in flight. -/

section
variable (choice : ClaimChoice) (c : ClaimInFlight) (s : State)

/-- A move touches no other agent's claim. -/
theorem findClaim_advanceClaim_other {b : Nat} (hb : b ≠ c.agent) :
    findClaim b (advanceClaim choice c s).inflight = findClaim b s.inflight := by
  cases hphase : c.phase with
  | scan irq r =>
    rw [advanceClaim_scan hphase]
    obtain ⟨c', hagent, -, -, h | ⟨-, h⟩⟩ := advanceScan_cases choice c irq r s <;> rw [h]
    · exact findClaim_putClaim_other c' s.inflight (hagent ▸ hb)
    · exact findClaim_dropClaim_other s.inflight (hagent ▸ hb)
  | clear =>
    rw [advanceClaim_clear hphase, keepClaim_inflight, setPendingFlag_inflight]
    exact findClaim_putClaim_other { c with phase := .record } s.inflight hb
  | record =>
    rw [advanceClaim_record hphase, finishClaim_inflight, setClaim_inflight]
    exact findClaim_dropClaim_other s.inflight hb

end

/-- Settles O52: a scanning move keeps the claim or ends it with `None` (`advanceScan_cases`). -/
theorem relaxedScanOnlyReads : Obligations.RelaxedScanOnlyReads := by
  refine fun s choice c irq r hphase =>
    ⟨?_, fun b hb => findClaim_advanceClaim_other choice c s hb, ?_⟩ <;> rw [advanceClaim_scan hphase]
  · obtain ⟨c', -, -, -, h | ⟨-, h⟩⟩ := advanceScan_cases choice c irq r s <;> rw [h] <;> rfl
  · obtain ⟨c', -, -, hform, h | ⟨-, h⟩⟩ := advanceScan_cases choice c irq r s <;> rw [h]
    · exact .inl rfl
    · exact .inr (by rw [finishClaim_response, hform])

/-! One iteration, read by read. -/

section
variable {c : ClaimInFlight} {irq : Nat} {r : ScanReads} {f : ScanField} {s : State}

theorem fieldToRead_of_unread (h : unread c r f = true) : fieldToRead c r f = f := if_pos h

/-- The read of a field that leaves another one to be read. -/
theorem scanRead_of_not_allRead (hf : unread c r f = true) (h : allRead c (readField s c.ctx irq r f) = false) :
    scanRead f false c irq r s = keepClaim { c with phase := .scan irq (readField s c.ctx irq r f) } s := by
  simp only [scanRead, fieldToRead_of_unread hf, h, Bool.false_and, Bool.or_self, Bool.false_eq_true, if_false]

/-- The read of the last field ends the iteration. -/
theorem scanRead_of_allRead (hf : unread c r f = true) (h : allRead c (readField s c.ctx irq r f) = true) :
    scanRead f false c irq r s = afterIteration irq (concludeIteration c irq (readField s c.ctx irq r f)) s := by
  simp only [scanRead, fieldToRead_of_unread hf, h, Bool.true_or, if_true]

theorem afterIteration_of_lt (h : irq < 511) :
    afterIteration irq c s = keepClaim { c with phase := .scan (irq + 1) noReads } s := if_pos h

variable {p t : Word} {pend en : Bool}

theorem allRead_of_some (hp : r.priority = some p) (ht : knownThreshold c r = some t) (hpend : r.pending = some pend)
    (hen : r.enable = some en) : allRead c r = true := by
  simp only [allRead, hp, ht, hpend, hen, Option.isSome_some, Bool.and_self]

/-- The decision of R101, on the four values read. -/
theorem concludeIteration_of_some (hp : r.priority = some p) (ht : knownThreshold c r = some t)
    (hpend : r.pending = some pend) (hen : r.enable = some en) :
    concludeIteration c irq r =
      if pend = true ∧ en = true ∧ t.toNat < p.toNat ∧ c.bestPrio.toNat < p.toNat then
        { c with best := irq, bestPrio := p }
      else c := by
  cases pend with
  | false => simp [concludeIteration, hp, ht, hpend, hen]
  | true =>
    cases en with
    | false => simp [concludeIteration, hp, ht, hpend, hen]
    | true => simp [concludeIteration, hp, ht, hpend, hen, BitVec.lt_def]

end

/-- Settles O53: a read that is not the last is kept (`scanRead_of_not_allRead`), the last one ends the iteration with
R101's decision (`concludeIteration_of_some`). -/
theorem relaxedIterationReadsAndDecides : Obligations.RelaxedIterationReadsAndDecides := by
  intro s c irq r f hphase hf
  have hmove : advanceClaim (.read f false) c s = scanRead f false c irq r s := advanceClaim_scan hphase
  refine ⟨fun hopen => ?_, fun p t pend en hirq hp ht hpend hen => ?_⟩
  · rw [hmove, scanRead_of_not_allRead hf hopen]
    exact findClaim_putClaim_same { c with phase := .scan irq (readField s c.ctx irq r f) } s.inflight
  · rw [hmove, scanRead_of_allRead hf (allRead_of_some hp ht hpend hen), afterIteration_of_lt hirq,
      concludeIteration_of_some hp ht hpend hen, keepClaim_inflight]
    split_ifs with htakes
    · exact findClaim_putClaim_same
        { c with phase := .scan (irq + 1) noReads, best := irq, bestPrio := p } s.inflight
    · exact findClaim_putClaim_same { c with phase := .scan (irq + 1) noReads } s.inflight

/-! The two writes of the commit. -/

section
variable (choice : ClaimChoice) {c : ClaimInFlight} {s : State}

theorem getPending_advanceClaim_clear (h : c.phase = .clear) (j : Nat) :
    getPending (advanceClaim choice c s) j = if j = c.best ∧ c.best ≤ 511 then false else getPending s j := by
  rw [advanceClaim_clear h, ← getPending_setPendingFlag]
  rfl

theorem findClaim_advanceClaim_clear (h : c.phase = .clear) :
    findClaim c.agent (advanceClaim choice c s).inflight = some { c with phase := .record } := by
  rw [advanceClaim_clear h]
  exact findClaim_putClaim_same { c with phase := .record } _

theorem getClaim_advanceClaim_record (h : c.phase = .record) (k : Nat) :
    getClaim (advanceClaim choice c s) k =
      if k = c.ctx ∧ c.ctx < s.cfg.numContexts then BitVec.ofNat 32 c.best else getClaim s k := by
  rw [advanceClaim_record h, ← getClaim_setClaim]
  rfl

theorem response_advanceClaim_record (h : c.phase = .record) :
    (advanceClaim choice c s).response = some (claimResponse c.form (some c.best)) := by
  rw [advanceClaim_record h, finishClaim_response]

/-- Recording the winner writes no flag. -/
theorem getPending_advanceClaim_record (h : c.phase = .record) (j : Nat) :
    getPending (advanceClaim choice c s) j = getPending s j := by
  rw [advanceClaim_record h]
  exact getPending_congr (by simp) j

end

/-- Settles O54: the flag by `getPending_advanceClaim_clear`, the cell by `getClaim_advanceClaim_record`, the end of
the scan by `afterIteration_cases`. -/
theorem relaxedCommitClearsThenRecords : Obligations.RelaxedCommitClearsThenRecords := by
  refine fun s choice c => ⟨fun hclear => ⟨getPending_advanceClaim_clear choice hclear,
      findClaim_advanceClaim_clear choice hclear, ?_⟩,
    fun hrecord => ⟨getClaim_advanceClaim_record choice hrecord, response_advanceClaim_record choice hrecord, ?_, ?_⟩,
    fun irq hlast => ?_⟩
  · rw [advanceClaim_clear hclear]
    exact congrArg (fun t : State => { t with inflight := s.inflight })
      (setPendingFlag_with_pending s c.best false s.pending)
  · rw [advanceClaim_record hrecord]
    exact findClaim_dropClaim_same c.agent _
  · rw [advanceClaim_record hrecord]
    exact congrArg (fun t : State => { t with inflight := s.inflight, response := s.response })
      (setClaim_with_claim s c.ctx _ s.claim)
  · obtain ⟨hlt, -⟩ | ⟨-, hnone, h⟩ | ⟨-, hwinner, h⟩ := afterIteration_cases irq c s
    · omega
    · rw [h]
      exact ⟨fun hwinner => absurd hnone hwinner, fun _ => ⟨rfl, ⟨rfl, rfl, rfl, rfl, rfl⟩, rfl⟩⟩
    · exact ⟨fun _ => h, fun hnone => absurd hnone hwinner⟩

/-! The commit in a schedule of several agents (R117). -/

section
variable {s : State} {c : ClaimInFlight} {x : ClaimChoice} {rest : List Turn}

/-- What the turn that clears the winner's flag leaves: the flag false, the claim left to record, every other flag,
every claim cell and every other agent's claim as they were. -/
structure Cleared (s : State) (c : ClaimInFlight) (rest : List Turn) (t : State) : Prop where
  schedule : t.schedule = rest
  cfg : t.cfg = s.cfg
  own : findClaim c.agent t.inflight = some { c with phase := .record }
  others : ∀ b, b ≠ c.agent → findClaim b t.inflight = findClaim b s.inflight
  pending : ∀ j, getPending t j = if j = c.best ∧ c.best ≤ 511 then false else getPending s j

theorem step_clear (hschedule : s.schedule = ⟨c.agent, x⟩ :: rest) (hfind : findClaim c.agent s.inflight = some c)
    (hphase : c.phase = .clear) : ∃ t, step s = .next t ∧ Cleared s c rest t :=
  ⟨_, step_of_busy_agent hschedule hfind,
    { schedule := by simp
      cfg := by simp
      own := findClaim_advanceClaim_clear x hphase
      others := fun _ hb => findClaim_advanceClaim_other x c _ hb
      pending := getPending_advanceClaim_clear x hphase }⟩

/-- What the turn that records the winner leaves: the cell written and the claim answered, every other cell, every
flag and every other agent's claim as they were. -/
structure Recorded (s : State) (c : ClaimInFlight) (rest : List Turn) (t : State) : Prop where
  schedule : t.schedule = rest
  cfg : t.cfg = s.cfg
  response : t.response = some (claimResponse c.form (some c.best))
  others : ∀ b, b ≠ c.agent → findClaim b t.inflight = findClaim b s.inflight
  pending : ∀ j, getPending t j = getPending s j
  cells : ∀ k, getClaim t k =
    if k = c.ctx ∧ c.ctx < s.cfg.numContexts then BitVec.ofNat 32 c.best else getClaim s k

theorem step_record (hschedule : s.schedule = ⟨c.agent, x⟩ :: rest) (hfind : findClaim c.agent s.inflight = some c)
    (hphase : c.phase = .record) : ∃ t, step s = .next t ∧ Recorded s c rest t :=
  ⟨_, step_of_busy_agent hschedule hfind,
    { schedule := by simp
      cfg := by simp
      response := response_advanceClaim_record x hphase
      others := fun _ hb => findClaim_advanceClaim_other x c _ hb
      pending := getPending_advanceClaim_record x hphase
      cells := getClaim_advanceClaim_record x hphase }⟩

end

/-- Settles O57: each claim clears the one flag, then each records the one winner in its own cell, with no further
check (R116). -/
theorem racingRelaxedClaimsCanShareAnIrq : Obligations.RacingRelaxedClaimsCanShareAnIrq := by
  intro s c d x y z w hagent hctx hc hd hbest hle hcctx hdctx hcfind hdfind hschedule
  obtain ⟨s₁, hstep₁, h₁⟩ := step_clear hschedule hcfind hc
  obtain ⟨s₂, hstep₂, h₂⟩ := step_clear h₁.schedule ((h₁.others _ hagent.symm).trans hdfind) hd
  obtain ⟨t, hstep₃, h₃⟩ := step_record (c := { c with phase := .record }) h₂.schedule
    ((h₂.others _ hagent).trans h₁.own) rfl
  obtain ⟨u, hstep₄, h₄⟩ := step_record (c := { d with phase := .record }) h₃.schedule
    ((h₃.others _ hagent.symm).trans h₂.own) rfl
  have hcfg₂ : s₂.cfg = s.cfg := h₂.cfg.trans h₁.cfg
  have hcfg₃ : t.cfg = s.cfg := h₃.cfg.trans hcfg₂
  refine ⟨t, u, ?_, h₃.response, hstep₄, hbest ▸ h₄.response, ?_, ?_, ?_⟩
  · rw [run_succ 2 hstep₁, run_succ 1 hstep₂, run_succ 0 hstep₃, run_zero]
  · rw [h₄.cells, if_neg fun h => hctx h.1, h₃.cells, if_pos ⟨rfl, hcfg₂ ▸ hcctx⟩]
  · rw [h₄.cells, if_pos ⟨rfl, hcfg₃ ▸ hdctx⟩, hbest]
  · rw [h₄.pending, h₃.pending, h₂.pending, if_pos ⟨hbest, hbest ▸ hle⟩]

/-- Settles O58: the signal sets the flag while the claim is past its scan, and the commit clears it with no further
check (R116). -/
theorem signalDuringARelaxedCommitIsLost : Obligations.SignalDuringARelaxedCommitIsLost := by
  intro s c b x y rest hb hphase hle hfind hidle hrequest hschedule
  have hdecode : decode (encode (.setPending c.best)) = .ok (.setPending c.best) := rfl
  have hsignal := stepRunsTheDecodedRequest s ⟨b, x⟩ _ _ _ _ hschedule hidle hrequest hdecode
  rw [exec_setPending] at hsignal
  obtain ⟨t, hstep, hrest, hinflight, hpending⟩ : ∃ t, step s = .next t ∧ t.schedule = [⟨c.agent, y⟩] ∧
      t.inflight = s.inflight ∧ getPending t c.best = true :=
    ⟨_, hsignal, by simp, by simp, by rw [getPending_respond, getPending_setPendingFlag, if_pos ⟨rfl, hle⟩]⟩
  obtain ⟨u, hclear, hu⟩ := step_clear hrest (hinflight ▸ hfind) hphase
  exact ⟨t, u, hstep, hpending, hclear, by rw [hu.pending, if_pos ⟨rfl, hle⟩]⟩

end Sys2Proof.Machine
end

section
/-! R118: a relaxed claim whose agent moves alone is the atomic claim. Its scan reads the fields of one state, so its
candidate is the one of R101's loop, and every move brings its end nearer (70_reset_and_hazards.md R185). -/

namespace Sys2Proof.Machine

/-- What a scanning move does with its iteration: it reads a field not yet read and stays in the iteration, or ends
the iteration with that read, or reads the threshold before the loop. -/
inductive IterationMove (s : State) (c : ClaimInFlight) (irq : Nat) (r : ScanReads) : State → Prop where
  | stays (f : ScanField) (hunread : unread c r f = true) (hopen : allRead c (readField s c.ctx irq r f) = false) :
      IterationMove s c irq r (keepClaim { c with phase := .scan irq (readField s c.ctx irq r f) } s)
  | concludes (f : ScanField) (hunread : unread c r f = true)
      (hover : allRead c (readField s c.ctx irq r f) = true ∨ ruledOut c (readField s c.ctx irq r f) = true) :
      IterationMove s c irq r (afterIteration irq (concludeIteration c irq (readField s c.ctx irq r f)) s)
  | thresholdOnce (hbefore : beforeLoop c irq r = true) :
      IterationMove s c irq r (keepClaim { c with heldThreshold := some (getThreshold s c.ctx) } s)

section
variable {c : ClaimInFlight} {irq : Nat} {r : ScanReads} {s : State}

theorem scanRead_iterationMove (hopen : allRead c r = false) (f : ScanField) (skip : Bool) :
    IterationMove s c irq r (scanRead f skip c irq r s) := by
  obtain ⟨_, rfl, ⟨hover, heq⟩ | ⟨hstays, heq⟩⟩ := scanRead_cases f skip c irq r s <;> rw [heq]
  · exact .concludes _ (unread_fieldToRead c r f hopen) hover
  · exact .stays _ (unread_fieldToRead c r f hopen) hstays

theorem advanceScan_iterationMove (hopen : allRead c r = false) (choice : ClaimChoice) :
    IterationMove s c irq r (advanceScan choice c irq r s) := by
  cases choice with
  | read f skip => exact scanRead_iterationMove hopen f skip
  | thresholdOnce =>
    simp only [advanceScan]
    split
    next hbefore => exact .thresholdOnce hbefore
    next => exact scanRead_iterationMove hopen .threshold false

/-! The count of R185. -/

theorem movesLeft_of_scan (h : c.phase = .scan irq r) : movesLeft c = unreadCount c r + 4 * (511 - irq) + 2 := by
  simp only [movesLeft, h]

/-- In the same iteration fewer fields to be read are fewer moves. -/
theorem movesLeft_lt_of_scan {c' : ClaimInFlight} {r' : ScanReads} (h' : c'.phase = .scan irq r')
    (h : c.phase = .scan irq r) (hless : unreadCount c' r' < unreadCount c r) : movesLeft c' < movesLeft c := by
  rw [movesLeft_of_scan h', movesLeft_of_scan h]
  omega

theorem unreadCount_noReads_le (c : ClaimInFlight) : unreadCount c noReads ≤ 4 := by
  unfold unreadCount
  have hle : ∀ f, (unread c noReads f).toNat ≤ 1 := fun f => Bool.toNat_le _
  exact Nat.add_le_add (Nat.add_le_add (Nat.add_le_add (hle _) (hle _)) (hle _)) (hle _)

/-- A field still to be read counts. -/
theorem unreadCount_pos {f : ScanField} (h : unread c r f = true) : 0 < unreadCount c r := by
  cases f <;> simp only [unreadCount, h, Bool.toNat_true] <;> omega

/-- A read leaves one field less to be read, since it changes only its own. -/
theorem unreadCount_readField_lt {f : ScanField} (h : unread c r f = true) (s : State) (ctx irq : Nat) :
    unreadCount c (readField s ctx irq r f) < unreadCount c r := by
  cases f with
  | threshold =>
    have hheld : c.heldThreshold = none := by
      cases hheld : c.heldThreshold with
      | none => rfl
      | some t => simp [unread, knownThreshold, hheld] at h
    simp only [unreadCount, h]
    simp [unread, knownThreshold, readField, hheld]
  | _ =>
    simp only [unreadCount, h]
    simp [unread, knownThreshold, readField]

/-- The claim is before its loop with nothing read, the threshold included. -/
theorem beforeLoop_eq_true (h : beforeLoop c irq r = true) : irq = 1 ∧ r = noReads ∧ c.heldThreshold = none := by
  simpa only [beforeLoop, Bool.and_eq_true, beq_iff_eq, Option.isNone_iff_eq_none, and_assoc] using h

theorem unreadCount_heldThreshold_lt (h : c.heldThreshold = none) (t : Word) :
    unreadCount { c with heldThreshold := some t } noReads < unreadCount c noReads := by
  simp [unreadCount, unread, knownThreshold, noReads, h]

end

/-! A scan that has read only one state. -/

/-- The best candidate so far (41_arbitration.md R101). -/
def ClaimInFlight.candidate (c : ClaimInFlight) : Candidate := ⟨c.best, c.bestPrio⟩

/-- What has been read is what the state holds. -/
structure ReadsOf (s : State) (ctx irq : Nat) (r : ScanReads) : Prop where
  threshold : ∀ t, r.threshold = some t → t = getThreshold s ctx
  priority : ∀ p, r.priority = some p → p = getPrio s irq
  pending : ∀ b, r.pending = some b → b = getPending s irq
  enable : ∀ b, r.enable = some b → b = getEnableBit s ctx irq

/-- A claim in the iteration for irq `n + 1` of its scan of `s`: its candidate is that of the `n` iterations before,
and what it has read is what `s` holds. -/
structure ScanOf (s : State) (c : ClaimInFlight) (n : Nat) (r : ScanReads) : Prop where
  phase : c.phase = .scan (n + 1) r
  position : n < 511
  isOpen : allRead c r = false
  candidate : c.candidate = scanUpTo s c.ctx n
  held : ∀ t, c.heldThreshold = some t → t = getThreshold s c.ctx
  reads : ReadsOf s c.ctx (n + 1) r

section
variable {s : State} {c : ClaimInFlight} {ctx irq n : Nat} {r : ScanReads}

theorem readsOf_noReads (s : State) (ctx irq : Nat) : ReadsOf s ctx irq noReads where
  threshold := nofun
  priority := nofun
  pending := nofun
  enable := nofun

theorem ReadsOf.readField (h : ReadsOf s ctx irq r) (f : ScanField) : ReadsOf s ctx irq (readField s ctx irq r f) := by
  cases f with
  | threshold => exact { h with threshold := fun _ ht => (Option.some.inj ht).symm }
  | priority => exact { h with priority := fun _ hp => (Option.some.inj hp).symm }
  | pending => exact { h with pending := fun _ hb => (Option.some.inj hb).symm }
  | enable => exact { h with enable := fun _ hb => (Option.some.inj hb).symm }

theorem ReadsOf.knownThreshold (h : ReadsOf s c.ctx irq r)
    (hheld : ∀ t, c.heldThreshold = some t → t = getThreshold s c.ctx) {t : Word}
    (ht : knownThreshold c r = some t) : t = getThreshold s c.ctx := by
  unfold Machine.knownThreshold at ht
  split at ht
  next t' hsome =>
    cases ht
    exact hheld t hsome
  next => exact h.threshold t ht

/-- A scan reads only the arrays. -/
theorem ScanOf.of_arrays_eq {t : State} (h : ScanOf s c n r) (hcfg : t.cfg = s.cfg) (hprio : t.priority = s.priority)
    (hpending : t.pending = s.pending) (henable : t.enable = s.enable) (hthreshold : t.threshold = s.threshold) :
    ScanOf t c n r := by
  have hprios := getPrio_congr hprio
  have hflags := getPending_congr hpending
  have henables := getEnableBit_congr hcfg henable c.ctx
  have hlimit := getThreshold_congr hcfg hthreshold c.ctx
  exact
    { phase := h.phase
      position := h.position
      isOpen := h.isOpen
      candidate := h.candidate.trans
        (scanUpTo_congr hlimit fun irq _ _ => ⟨hprios irq, hflags irq, henables irq⟩).symm
      held := hlimit ▸ h.held
      reads :=
        { threshold := hlimit ▸ h.reads.threshold
          priority := hprios (n + 1) ▸ h.reads.priority
          pending := hflags (n + 1) ▸ h.reads.pending
          enable := henables (n + 1) ▸ h.reads.enable } }

/-- The four conditions of R101 for one source. -/
def Replaces (s : State) (ctx irq : Nat) (d : Candidate) : Prop :=
  getPending s irq = true ∧ getEnableBit s ctx irq = true ∧ getThreshold s ctx < getPrio s irq ∧
    d.prio < getPrio s irq

theorem scanStep_of_replaces {d : Candidate} (h : Replaces s ctx irq d) :
    scanStep s ctx d irq = ⟨irq, getPrio s irq⟩ := by
  obtain ⟨hpending, henable, hthreshold, hprio⟩ := h
  simp only [scanStep, hpending, henable, hthreshold, hprio, decide_true, Bool.and_self, if_true]

theorem scanStep_of_not_replaces {d : Candidate} (h : ¬ Replaces s ctx irq d) : scanStep s ctx d irq = d :=
  (scanStep_cases s ctx d irq).resolve_right fun htaken => h htaken.2

/-- No true read rules out a source that meets the four conditions. -/
theorem not_ruledOut_of_replaces (hr : ReadsOf s c.ctx irq r)
    (hheld : ∀ t, c.heldThreshold = some t → t = getThreshold s c.ctx) (h : Replaces s c.ctx irq c.candidate) :
    ruledOut c r = false := by
  obtain ⟨hpending, henable, hthreshold, hprio⟩ := h
  have hpend : r.pending ≠ some false := fun hb => by simpa [hpending] using hr.pending _ hb
  have hen : r.enable ≠ some false := fun hb => by simpa [henable] using hr.enable _ hb
  have hpriority : priorityRulesOut c.bestPrio (knownThreshold c r) r.priority = false := by
    cases hp : r.priority with
    | none => rfl
    | some p =>
      obtain rfl := hr.priority p hp
      have habove : ¬ getPrio s irq ≤ c.bestPrio := BitVec.not_le.mpr hprio
      cases ht : knownThreshold c r with
      | none => simp [priorityRulesOut, habove]
      | some t =>
        obtain rfl := hr.knownThreshold hheld ht
        have hpasses : ¬ getPrio s irq ≤ getThreshold s c.ctx := BitVec.not_le.mpr hthreshold
        simp [priorityRulesOut, habove, hpasses]
  simp [ruledOut, hpend, hen, hpriority]

/-- An iteration that has read every field, or skips the rest of one ruled out, decides as R101 does. -/
theorem candidate_concludeIteration (hr : ReadsOf s c.ctx irq r)
    (hheld : ∀ t, c.heldThreshold = some t → t = getThreshold s c.ctx)
    (hover : allRead c r = true ∨ ruledOut c r = true) :
    (concludeIteration c irq r).candidate = scanStep s c.ctx c.candidate irq := by
  by_cases hreplaces : Replaces s c.ctx irq c.candidate
  · have hall : allRead c r = true := hover.resolve_right (by simp [not_ruledOut_of_replaces hr hheld hreplaces])
    simp only [allRead, Bool.and_eq_true, Option.isSome_iff_exists] at hall
    obtain ⟨⟨⟨⟨t, ht⟩, p, hp⟩, pend, hpend⟩, en, hen⟩ := hall
    rw [scanStep_of_replaces hreplaces, concludeIteration_of_some hp ht hpend hen]
    obtain rfl := hr.priority p hp
    obtain rfl := hr.knownThreshold hheld ht
    obtain rfl := hr.pending pend hpend
    obtain rfl := hr.enable en hen
    exact congrArg ClaimInFlight.candidate (if_pos hreplaces)
  · rw [scanStep_of_not_replaces hreplaces]
    obtain hkept | ⟨p, t, hp, ht, hpend, hen, hthreshold, hprio, -⟩ := concludeIteration_cases c irq r
    · rw [hkept]
    · obtain rfl := hr.priority p hp
      obtain rfl := hr.knownThreshold hheld ht
      exact absurd ⟨(hr.pending _ hpend).symm, (hr.enable _ hen).symm, hthreshold, hprio⟩ hreplaces

theorem scanOf_freshClaim (s : State) (agent ctx : Nat) (form : ClaimForm) :
    ScanOf s (freshClaim agent ctx form) 0 noReads where
  phase := rfl
  position := by omega
  isOpen := allRead_noReads _
  candidate := rfl
  held := nofun
  reads := readsOf_noReads s ctx 1

/-- What the next move makes of a claim that scans one state: it scans on, or it is past its scan with the winner of
that state, or it ends because that state has none. -/
inductive ScanMove (s : State) (c : ClaimInFlight) : State → Prop where
  | scans (c' : ClaimInFlight) (n : Nat) (r : ScanReads) (hagent : c'.agent = c.agent) (hctx : c'.ctx = c.ctx)
      (hform : c'.form = c.form) (hscan : ScanOf s c' n r) (hless : movesLeft c' < movesLeft c) :
      ScanMove s c (keepClaim c' s)
  | commits (c' : ClaimInFlight) (hagent : c'.agent = c.agent) (hctx : c'.ctx = c.ctx) (hform : c'.form = c.form)
      (hphase : c'.phase = .clear) (hbest : c'.best = best s c.ctx) (hwinner : best s c.ctx ≠ 0)
      (hless : movesLeft c' < movesLeft c) : ScanMove s c (keepClaim c' s)
  | ends (c' : ClaimInFlight) (hagent : c'.agent = c.agent) (hform : c'.form = c.form)
      (hnone : best s c.ctx = 0) : ScanMove s c (finishClaim c' none s)

/-- The end of an iteration, with the candidate of the loop up to its source. -/
theorem ScanOf.afterIteration (h : ScanOf s c n r) {r' : ScanReads} (hr : ReadsOf s c.ctx (n + 1) r')
    (hover : allRead c r' = true ∨ ruledOut c r' = true) (hleft : 0 < unreadCount c r) :
    ScanMove s c (afterIteration (n + 1) (concludeIteration c (n + 1) r') s) := by
  have hmoves := movesLeft_of_scan h.phase
  have hcandidate : (concludeIteration c (n + 1) r').candidate = scanUpTo s c.ctx (n + 1) := by
    rw [candidate_concludeIteration hr h.held hover, h.candidate, scanUpTo_succ]
  generalize hd : concludeIteration c (n + 1) r' = d at hcandidate ⊢
  have hagent : d.agent = c.agent := hd ▸ concludeIteration_agent c (n + 1) r'
  have hctx : d.ctx = c.ctx := hd ▸ concludeIteration_ctx c (n + 1) r'
  have hform : d.form = c.form := hd ▸ concludeIteration_form c (n + 1) r'
  have hheld : d.heldThreshold = c.heldThreshold := hd ▸ concludeIteration_heldThreshold c (n + 1) r'
  have hlast : 511 ≤ n + 1 → d.best = best s c.ctx := fun hle => by
    obtain rfl : n = 510 := Nat.le_antisymm (Nat.le_of_lt_succ h.position) (Nat.le_of_succ_le_succ hle)
    exact congrArg Candidate.irq hcandidate
  obtain ⟨hnext, heq⟩ | ⟨hle, hnone, heq⟩ | ⟨hle, hwinner, heq⟩ := afterIteration_cases (n + 1) d s <;> rw [heq]
  · refine .scans { d with phase := .scan (n + 1 + 1) noReads } (n + 1) noReads hagent hctx hform ?_ ?_
    · exact
        { phase := rfl
          position := hnext
          isOpen := allRead_noReads _
          candidate := hctx ▸ hcandidate
          held := fun t ht => hctx ▸ h.held t (hheld ▸ ht)
          reads := readsOf_noReads s d.ctx (n + 1 + 1) }
    · have hfields := unreadCount_noReads_le { d with phase := .scan (n + 1 + 1) noReads }
      have hmoves' := movesLeft_of_scan (c := { d with phase := .scan (n + 1 + 1) noReads }) rfl
      omega
  · exact .ends d hagent hform ((hlast hle).symm.trans hnone)
  · refine .commits { d with phase := .clear } hagent hctx hform rfl (hlast hle) (hlast hle ▸ hwinner) ?_
    have hmoves' : movesLeft { d with phase := .clear } = 2 := rfl
    omega

/-- Every move of a claim that scans one state (R115, R118). -/
theorem ScanOf.advanceClaim (h : ScanOf s c n r) (choice : ClaimChoice) :
    ScanMove s c (advanceClaim choice c s) := by
  have hmove := advanceScan_iterationMove (s := s) (irq := n + 1) h.isOpen choice
  rw [advanceClaim_scan h.phase]
  generalize advanceScan choice c (n + 1) r s = t at hmove ⊢
  cases hmove with
  | stays f hunread hopen =>
    have hfields := unreadCount_readField_lt hunread s c.ctx (n + 1)
    exact .scans _ n _ rfl rfl rfl
      { phase := rfl
        position := h.position
        isOpen := hopen
        candidate := h.candidate
        held := h.held
        reads := h.reads.readField f }
      (movesLeft_lt_of_scan rfl h.phase hfields)
  | concludes f hunread hover => exact h.afterIteration (h.reads.readField f) hover (unreadCount_pos hunread)
  | thresholdOnce hbefore =>
    obtain ⟨-, rfl, hheld⟩ := beforeLoop_eq_true hbefore
    have hfields := unreadCount_heldThreshold_lt hheld (getThreshold s c.ctx)
    exact .scans _ n noReads rfl rfl rfl
      { phase := h.phase
        position := h.position
        isOpen := allRead_noReads _
        candidate := h.candidate
        held := fun _ ht => (Option.some.inj ht).symm
        reads := h.reads }
      (movesLeft_lt_of_scan h.phase h.phase hfields)

end

/-! The run of the agent alone. -/

/-- The machine whose registers and other agents' claims are those of `s`, while the claim `c` is in flight and its
agent the one that moves. -/
def claimAlone (s : State) (rest : List Issued) (c : ClaimInFlight) (turns : List Turn) : State :=
  { s with inflight := putClaim c s.inflight, requests := rest, schedule := turns, agent := c.agent, response := none }

/-- The machine whose registers and claims in flight are those of `s`, right after an agent has been answered. -/
def answeredAlone (s : State) (rest : List Issued) (agent : Nat) (r : Response) (turns : List Turn) : State :=
  { s with requests := rest, schedule := turns, agent := agent, response := some r }

/-- The next `n` turns are all the agent's. -/
def OwnTurns (a n : Nat) (turns : List Turn) : Prop := n ≤ turns.length ∧ ∀ t ∈ turns.take n, t.agent = a

/-- Within `n` steps from `u` the machine is as `goal` says for the turns that are then left. -/
def ReachesWithin (goal : List Turn → State) (n : Nat) (u : State) : Prop :=
  ∃ k, k ≤ n ∧ Host.Core.run Sys2Proof.core k u = .next (goal (u.schedule.drop k))

section
variable {a n : Nat} {turns : List Turn}

theorem OwnTurns.cons (h : OwnTurns a (n + 1) turns) :
    ∃ choice turns', turns = ⟨a, choice⟩ :: turns' ∧ OwnTurns a n turns' := by
  obtain ⟨hlength, hown⟩ := h
  cases turns with
  | nil => simp at hlength
  | cons t turns =>
    rw [List.take_succ_cons] at hown
    obtain ⟨rfl, hown⟩ := List.forall_mem_cons.mp hown
    exact ⟨t.choice, turns, rfl, Nat.le_of_succ_le_succ hlength, hown⟩

variable {goal : List Turn → State} {u v : State}

theorem ReachesWithin.of_step {t : Turn} (hschedule : u.schedule = t :: v.schedule) (hstep : step u = .next v)
    (h : ReachesWithin goal n v) : ReachesWithin goal (n + 1) u := by
  obtain ⟨k, hk, hrun⟩ := h
  refine ⟨k + 1, Nat.succ_le_succ hk, ?_⟩
  rw [run_succ k hstep, hrun, hschedule, List.drop_succ_cons]

theorem reachesWithin_self (n : Nat) (h : u = goal u.schedule) : ReachesWithin goal n u :=
  ⟨0, Nat.zero_le n, (run_zero u).trans (congrArg _ h)⟩

end

section
variable {s : State} {rest : List Issued} {c c' : ClaimInFlight} {turns : List Turn}

theorem step_claimAlone (choice : ClaimChoice) :
    step (claimAlone s rest c (⟨c.agent, choice⟩ :: turns)) =
      .next (advanceClaim choice c (claimAlone s rest c turns)) :=
  step_of_busy_agent (turn := ⟨c.agent, choice⟩) rfl (findClaim_putClaim_same c s.inflight)

theorem keepClaim_claimAlone (h : c'.agent = c.agent) :
    keepClaim c' (claimAlone s rest c turns) = claimAlone s rest c' turns := by
  simp only [keepClaim, claimAlone, putClaim_putClaim h, h]

theorem finishClaim_claimAlone (h : c'.agent = c.agent) (hidle : findClaim c.agent s.inflight = none)
    (w : Option Nat) :
    finishClaim c' w (claimAlone s rest c turns) =
      answeredAlone s rest c.agent (claimResponse c'.form w) turns := by
  simp only [finishClaim, respond, claimAlone, answeredAlone, h, dropClaim_putClaim c hidle]

theorem setPendingFlag_claimAlone (irq : Nat) (e : Bool) :
    setPendingFlag (claimAlone s rest c turns) irq e = claimAlone (setPendingFlag s irq e) rest c turns := by
  unfold setPendingFlag
  split <;> rfl

theorem setClaim_claimAlone (ctx : Nat) (v : Word) :
    setClaim (claimAlone s rest c turns) ctx v = claimAlone (setClaim s ctx v) rest c turns := by
  by_cases hctx : ctx < s.cfg.numContexts
  · have hctx' : ctx < (claimAlone s rest c turns).cfg.numContexts := hctx
    simp only [setClaim, hctx, hctx', dif_pos]
    rfl
  · rw [setClaim_outOfRange s ctx v hctx]
    exact setClaim_outOfRange _ ctx v hctx

/-- The machine right after an agent's claim on a context of `s` has been answered as the atomic claim answers it. -/
def claimedAlone (s : State) (rest : List Issued) (c : ClaimInFlight) (turns : List Turn) : State :=
  answeredAlone (claimAtomic s c.ctx) rest c.agent (claimResponse c.form (winnerOf (best s c.ctx))) turns

/-- The goal of a claim depends on its agent, context and form only. -/
theorem claimedAlone_congr (hagent : c'.agent = c.agent) (hctx : c'.ctx = c.ctx) (hform : c'.form = c.form) :
    claimedAlone s rest c' = claimedAlone s rest c := by
  unfold claimedAlone
  rw [hagent, hctx, hform]

/-- The first move of the commit clears the winner's flag (R116). -/
theorem step_claimAlone_clear (choice : ClaimChoice) (hphase : c.phase = .clear) :
    step (claimAlone s rest c (⟨c.agent, choice⟩ :: turns)) =
      .next (claimAlone (setPendingFlag s c.best false) rest { c with phase := .record } turns) := by
  rw [step_claimAlone, advanceClaim_clear hphase, setPendingFlag_claimAlone]
  exact congrArg _ (keepClaim_claimAlone rfl)

/-- The second one records the winner and answers it (R116). -/
theorem step_claimAlone_record (choice : ClaimChoice) (hphase : c.phase = .record)
    (hidle : findClaim c.agent s.inflight = none) :
    step (claimAlone s rest c (⟨c.agent, choice⟩ :: turns)) =
      .next (answeredAlone (setClaim s c.ctx (BitVec.ofNat 32 c.best)) rest c.agent
        (claimResponse c.form (some c.best)) turns) := by
  rw [step_claimAlone, advanceClaim_record hphase, setClaim_claimAlone,
    finishClaim_claimAlone rfl (by rwa [setClaim_inflight])]

/-- The two moves of the commit are the atomic commit (R110, R116). -/
theorem claimAlone_commits (hidle : findClaim c.agent s.inflight = none) (hphase : c.phase = .clear)
    (hbest : c.best = best s c.ctx) (hwinner : best s c.ctx ≠ 0) {n : Nat} (hn : 2 ≤ n)
    (hown : OwnTurns c.agent n turns) : ReachesWithin (claimedAlone s rest c) n (claimAlone s rest c turns) := by
  obtain ⟨m, rfl⟩ := Nat.exists_eq_add_of_le' hn
  obtain ⟨x, turns₁, rfl, hown₁⟩ := hown.cons
  obtain ⟨y, turns₂, rfl, -⟩ := hown₁.cons
  have hrecord := step_claimAlone_record (s := setPendingFlag s c.best false) (rest := rest)
    (c := { c with phase := .record }) (turns := turns₂) y rfl (by rwa [setPendingFlag_inflight])
  have hcommit : claimAtomic s c.ctx =
      setClaim (setPendingFlag s c.best false) c.ctx (BitVec.ofNat 32 c.best) := by
    rw [claimAtomic, if_neg hwinner, commitClaim, hbest]
  have hanswer : winnerOf (best s c.ctx) = some c.best := by
    rw [winnerOf, if_neg hwinner, hbest]
  refine .of_step rfl (step_claimAlone_clear x hphase) (.of_step rfl hrecord (reachesWithin_self m ?_))
  rw [claimedAlone, hcommit, hanswer]
  rfl

/-- A claim that scans one state is answered as the atomic claim, within the moves it has left. -/
theorem claimAlone_scans {i m : Nat} {r : ScanReads} (hscan : ScanOf s c i r)
    (hidle : findClaim c.agent s.inflight = none) (hm : movesLeft c ≤ m) (hown : OwnTurns c.agent m turns) :
    ReachesWithin (claimedAlone s rest c) m (claimAlone s rest c turns) := by
  induction m generalizing c i r turns with
  | zero =>
    have hmoves := movesLeft_of_scan hscan.phase
    omega
  | succ m ih =>
    obtain ⟨x, turns', rfl, hown'⟩ := hown.cons
    have hstep := step_claimAlone (s := s) (rest := rest) (c := c) (turns := turns') x
    have hmove := (hscan.of_arrays_eq (t := claimAlone s rest c turns') rfl rfl rfl rfl rfl).advanceClaim x
    have hbest : best (claimAlone s rest c turns') c.ctx = best s c.ctx :=
      best_congr rfl fun _ _ _ => ⟨rfl, rfl, rfl⟩
    generalize advanceClaim x c (claimAlone s rest c turns') = v at hstep hmove
    cases hmove with
    | scans c' n r' hagent hctx hform hscan' hless =>
      rw [keepClaim_claimAlone hagent] at hstep
      rw [← claimedAlone_congr hagent hctx hform]
      exact .of_step rfl hstep
        (ih (hscan'.of_arrays_eq rfl rfl rfl rfl rfl) (hagent ▸ hidle) (by omega) (hagent ▸ hown'))
    | commits c' hagent hctx hform hphase hwin hwinner hless =>
      have htwo : movesLeft c' = 2 := by simp only [movesLeft, hphase]
      rw [keepClaim_claimAlone hagent] at hstep
      rw [hbest, ← hctx] at hwin hwinner
      rw [← claimedAlone_congr hagent hctx hform]
      exact .of_step rfl hstep
        (claimAlone_commits (hagent ▸ hidle) hphase hwin hwinner (by omega) (hagent ▸ hown'))
    | ends c' hagent hform hnone =>
      rw [finishClaim_claimAlone hagent hidle] at hstep
      rw [hbest] at hnone
      refine .of_step rfl hstep (reachesWithin_self m ?_)
      rw [claimedAlone, claimAtomic, if_pos hnone, hnone, hform]
      rfl

/-- In the relaxed variant a claim request leaves its agent's fresh claim in flight (R115). -/
theorem exec_claimRequest_relaxed {ctx : Nat} {form : ClaimForm} {i : Instr}
    (hrelaxed : s.cfg.claimAtomicity = .relaxed) (h : IsClaimRequest s.cfg ctx form i) :
    exec i s = .next (claimAlone s s.requests (freshClaim s.agent ctx form) s.schedule) :=
  (exec_claimRequest h).trans (congrArg _ (beginClaim_relaxed form ctx hrelaxed))

end

/-- Settles O56: the first step starts the claim (`exec_claimRequest_relaxed`), and alone it is then answered as the
atomic claim within R185's 2046 moves (`claimAlone_scans`). -/
theorem relaxedClaimAloneIsAtomic : Obligations.RelaxedClaimAloneIsAtomic := by
  intro s a ctx form req i rest hrelaxed hidle hrequest hdecode hclaim hlength hturns
  obtain ⟨x, turns, hschedule, hown⟩ := OwnTurns.cons (n := 2046) ⟨hlength, hturns⟩
  have hstart : step s = .next (claimAlone s rest (freshClaim a ctx form) turns) :=
    (stepRunsTheDecodedRequest s ⟨a, x⟩ turns req rest i hschedule hidle hrequest hdecode).trans
      (exec_claimRequest_relaxed (s := { s with schedule := turns, agent := a, response := none, requests := rest })
        hrelaxed hclaim)
  have hrun := claimAlone_scans (rest := rest) (m := 2046) (scanOf_freshClaim s a ctx form) hidle
    (Nat.le_of_eq rfl) hown
  exact ReachesWithin.of_step hschedule hstart hrun

end Sys2Proof.Machine
end

section
/-! The MMIO front end (43_mmio_front_end.md): the register that an access reaches, at each offset of 10_state.md R19
and where none is reached (R131), and what the rows of 30_encoding.md R61 read and write. -/

namespace Sys2Proof.Machine

/-! The register an access reaches. -/

section
variable (cfg : Config) {irq ctx w : Nat}

theorem accessedRegister_priority (h : irq ≤ 1023) : accessedRegister cfg (cfg.base + 4 * irq) 4 = .priority irq := by
  rw [accessedRegister_serviced cfg (by omega) (by omega)]
  exact decodeOffset_priorityOffset h

theorem accessedRegister_pending (h : w ≤ 1023) :
    accessedRegister cfg (cfg.base + (0x1000 + 4 * w)) 4 = .pending w := by
  rw [accessedRegister_serviced cfg (by omega) (by omega)]
  exact decodeOffset_pendingOffset h

/-- Over the whole decoded range, contexts and words without storage included. -/
theorem accessedRegister_enable (hctx : ctx ≤ 16319) (hw : w ≤ 31) :
    accessedRegister cfg (cfg.base + (0x2000 + 0x80 * ctx + 4 * w)) 4 = .enable ctx w := by
  rw [accessedRegister_serviced cfg (by omega) (by omega)]
  exact decodeOffset_enableOffset hctx hw

theorem accessedRegister_threshold (h : ctx ≤ 511) :
    accessedRegister cfg (cfg.base + (0x200000 + 0x1000 * ctx)) 4 = .threshold ctx := by
  rw [accessedRegister_serviced cfg (by omega) (by omega)]
  exact decodeOffset_thresholdOffset h

end

/-! MMIO_READ and MMIO_WRITE, by the register they reach (R132, R133). -/

section
variable {s : State} {addr width : Nat} {reg : Register}

theorem exec_mmioRead (h : accessedRegister s.cfg addr width = reg) :
    exec (.mmioRead addr width) s = .next (readRegister reg s) := by
  rw [exec, execMmioRead, h]

/-- The value written is the low 32 bits of the value given (R149). -/
theorem exec_mmioWrite (h : accessedRegister s.cfg addr width = reg) (v : Nat) :
    exec (.mmioWrite addr width v) s = .next (writeRegister reg (BitVec.ofNat 32 (v % 2 ^ 32)) s) := by
  rw [exec, execMmioWrite, h, writeValue_eq_mod]

end

/-! A claim read answers a number, which is 0 for no winner (R114, R142). -/

theorem winnerWord_winnerOf (n : Nat) : winnerWord (winnerOf n) = BitVec.ofNat 32 n := by
  unfold winnerWord winnerOf
  split
  next hnone => rw [hnone, Option.getD_none]
  next => rw [Option.getD_some]

theorem readRegister_claim_atomic {s : State} (ctx : Nat) (hatomic : s.cfg.claimAtomicity = .atomic) :
    readRegister (.claim ctx) s = answerRead (BitVec.ofNat 32 (best s ctx)) (claimAtomic s ctx) := by
  rw [readRegister, beginClaim_atomic .mmio ctx hatomic, claimResponse, winnerWord_winnerOf, answerRead]

/-- Settles O34: such an access reaches no register (`accessedRegister_none`). -/
theorem unservicedAndOutsideAccessesDoNothing : Obligations.UnservicedAndOutsideAccessesDoNothing := by
  intro s addr width v h
  have hnone := accessedRegister_none s.cfg h
  exact ⟨exec_mmioRead hnone, exec_mmioWrite hnone v⟩

/-- Settles O35: the access reaches the register at its offset, and a claim read is `readRegister_claim_atomic`. -/
theorem mmioReadsReachTheirRegister : Obligations.MmioReadsReachTheirRegister := by
  refine fun s => ⟨fun irq hirq => ?_, fun w hw => ?_, fun ctx w hctx hw => ?_, fun ctx hctx => ?_,
    fun ctx hctx hatomic => ?_⟩
  · exact exec_mmioRead (accessedRegister_priority s.cfg hirq)
  · exact exec_mmioRead (accessedRegister_pending s.cfg hw)
  · exact exec_mmioRead (accessedRegister_enable s.cfg hctx hw)
  · exact exec_mmioRead (accessedRegister_threshold s.cfg hctx)
  · rw [exec_mmioRead (accessedRegister_claim s.cfg hctx), readRegister_claim_atomic ctx hatomic]
    rfl

/-- Settles O36: the access reaches the register at its offset, with the low 32 bits of the value. -/
theorem mmioWritesReachTheirRegister : Obligations.MmioWritesReachTheirRegister := by
  refine fun s v => ⟨fun irq hirq => ?_, fun w hw => ?_, fun ctx w hctx hw => ?_, fun ctx hctx => ?_,
    fun ctx hctx => ?_⟩
  · exact exec_mmioWrite (accessedRegister_priority s.cfg hirq) v
  · exact exec_mmioWrite (accessedRegister_pending s.cfg hw) v
  · exact exec_mmioWrite (accessedRegister_enable s.cfg hctx hw) v
  · exact exec_mmioWrite (accessedRegister_threshold s.cfg hctx) v
  · exact exec_mmioWrite (accessedRegister_claim s.cfg hctx) v

/-- Settles O33: the answer is the base and the length of the window (D8), and only the response changes. -/
theorem addressRangeAnswersTheWindow : Obligations.AddressRangeAnswersTheWindow := fun _ => rfl

/-- Settles O37: each row reads the register of its selection (`Selection.exec_read`), and the claim row's read is
`readRegister_claim_atomic`. -/
theorem readRowsAnswerTheirRegister : Obligations.ReadRowsAnswerTheirRegister := by
  refine fun s => ⟨fun irq => ?_, fun w => ?_, fun ctx w => ?_, fun ctx => ?_, fun ctx word => ?_, fun w4 off => ?_,
    fun ctx hatomic => ?_⟩
  · exact Selection.exec_read (.priority irq) s
  · exact Selection.exec_read (.pending w) s
  · exact Selection.exec_read (.enable ctx w) s
  · exact Selection.exec_read (.threshold ctx) s
  · exact Selection.exec_read (.noreg ctx word) s
  · exact Selection.exec_read (.unserviced w4 off) s
  · exact (Selection.exec_read (.claim ctx) s).trans
      (congrArg Host.Outcome.next (readRegister_claim_atomic ctx.toNat hatomic))

/-- Settles O38: each row writes the register of its selection (`Selection.exec_write`). -/
theorem writeRowsWriteTheirRegister : Obligations.WriteRowsWriteTheirRegister := by
  refine fun s v => ⟨fun irq => ?_, fun w => ?_, fun ctx w => ?_, fun ctx => ?_, fun ctx => ?_, fun ctx word => ?_,
    fun w4 off => ?_⟩
  · exact Selection.exec_write (.priority irq) v s
  · exact Selection.exec_write (.pending w) v s
  · exact Selection.exec_write (.enable ctx w) v s
  · exact Selection.exec_write (.threshold ctx) v s
  · exact Selection.exec_write (.claim ctx) v s
  · exact Selection.exec_write (.noreg ctx word) v s
  · exact Selection.exec_write (.unserviced w4 off) v s

end Sys2Proof.Machine
end

section
/-! The outcomes of 60_exceptions.md: no request and no move of a claim reports a failure and no step faults (R150),
and the observation EIP (R158). -/

namespace Sys2Proof.Machine

/-! What is answered. -/

/-- A claim answers an irq or none, or it answers a read with success (42_claim_complete.md R114). -/
theorem reportsNoFailure_claimResponse (form : ClaimForm) (w : Option Nat) :
    reportsNoFailure (some (claimResponse form w)) = true := by
  cases form <;> rfl

/-- The start of a claim answers it, or in the relaxed variant does not answer yet. -/
theorem reportsNoFailure_beginClaim (form : ClaimForm) (ctx : Nat) (s : State) :
    reportsNoFailure (beginClaim form ctx s).response = true := by
  cases h : s.cfg.claimAtomicity with
  | atomic =>
    rw [beginClaim_atomic form ctx h]
    exact reportsNoFailure_claimResponse form _
  | relaxed =>
    rw [beginClaim_relaxed form ctx h]
    rfl

theorem reportsNoFailure_readRegister (reg : Register) (s : State) :
    reportsNoFailure (readRegister reg s).response = true := by
  obtain ⟨v, h⟩ | ⟨ctx, -, h⟩ := readRegister_cases reg s <;> rw [h]
  · rfl
  · exact reportsNoFailure_beginClaim .mmio ctx s

theorem writeRegister_response (reg : Register) (v : Word) (s : State) :
    (writeRegister reg v s).response = some (.ack .success) := by
  cases reg <;> rfl

/-- A request that reaches a register or begins a claim answers as that does; every other one answers its own value,
or that it is done. -/
theorem exec_reportsNoFailure (i : Instr) (s : State) :
    ∃ t, exec i s = .next t ∧ reportsNoFailure t.response = true := by
  cases i with
  | claimR k => exact ⟨_, rfl, reportsNoFailure_beginClaim .mmio k.toNat s⟩
  | claimIrq ctx => exact ⟨_, rfl, reportsNoFailure_beginClaim .port ctx s⟩
  | mmioRead addr width => exact ⟨_, rfl, reportsNoFailure_readRegister (accessedRegister s.cfg addr width) s⟩
  | mmioWrite addr width v =>
    refine ⟨_, rfl, ?_⟩
    rw [writeRegister_response]
    rfl
  | _ => exact ⟨_, rfl, rfl⟩

/-- A move of a claim in flight answers nothing, or it ends the claim with the claim's answer. -/
theorem advanceClaim_response_cases (choice : ClaimChoice) (c : ClaimInFlight) (s : State) :
    (advanceClaim choice c s).response = s.response ∨
      ∃ w, (advanceClaim choice c s).response = some (claimResponse c.form w) := by
  cases hphase : c.phase with
  | scan irq r =>
    rw [advanceClaim_scan hphase]
    obtain ⟨c', -, -, hform, h | ⟨-, h⟩⟩ := advanceScan_cases choice c irq r s <;> rw [h]
    · exact .inl rfl
    · exact .inr ⟨none, by rw [finishClaim_response, hform]⟩
  | clear =>
    rw [advanceClaim_clear hphase, keepClaim_response, setPendingFlag_response]
    exact .inl rfl
  | record => exact .inr ⟨some c.best, response_advanceClaim_record choice hphase⟩

theorem reportsNoFailure_advanceClaim (choice : ClaimChoice) (c : ClaimInFlight) {s : State}
    (h : reportsNoFailure s.response = true) : reportsNoFailure (advanceClaim choice c s).response = true := by
  obtain hkept | ⟨w, hanswer⟩ := advanceClaim_response_cases choice c s
  · rw [hkept, h]
  · rw [hanswer, reportsNoFailure_claimResponse]

/-! How a step ends. -/

/-- The outcome is a next state, or the refusal of a word that is no request (log 13). -/
def NextOrUndecodable (o : Host.Outcome State Fault Refusal) : Prop :=
  (∃ t, o = .next t) ∨ ∃ e, o = .refused (.undecodable e)

theorem nextOrUndecodable_next (t : State) : NextOrUndecodable (.next t) := .inl ⟨t, rfl⟩

theorem NextOrUndecodable.ne_fault {o : Host.Outcome State Fault Refusal} (h : NextOrUndecodable o) (f : Fault) :
    o ≠ .fault f := by
  obtain ⟨t, rfl⟩ | ⟨e, rfl⟩ := h <;> nofun

theorem NextOrUndecodable.eq_undecodable {o : Host.Outcome State Fault Refusal} (h : NextOrUndecodable o)
    {r : Refusal} (hrefused : o = .refused r) : ∃ e, r = .undecodable e := by
  obtain ⟨t, rfl⟩ | ⟨e, rfl⟩ := h <;> cases hrefused
  exact ⟨e, rfl⟩

theorem issueNext_of_undecodable {s : State} {r : Request} {requests : List Issued} {e : DecodeError}
    (hrequest : takeRequest s.agent s.requests = some (r, requests)) (hdecode : decode r = .error e) :
    issueNext s = .refused (.undecodable e) := by
  simp only [issueNext, hrequest, hdecode]

/-- The next request, if there is one, is run when it decodes and refused when it does not. -/
theorem nextOrUndecodable_issueNext (s : State) : NextOrUndecodable (issueNext s) := by
  cases hrequest : takeRequest s.agent s.requests with
  | none =>
    rw [issueNext_of_no_request hrequest]
    exact nextOrUndecodable_next s
  | some taken =>
    obtain ⟨r, requests⟩ := taken
    cases hdecode : decode r with
    | ok i =>
      obtain ⟨t, hexec, -⟩ := exec_effect i { s with requests := requests }
      rw [issueNext_of_request hrequest hdecode, hexec]
      exact nextOrUndecodable_next t
    | error e => exact .inr ⟨e, issueNext_of_undecodable hrequest hdecode⟩

/-- Only a step that issues a request can be refused: without a turn, or with a claim in flight, there is a next
state. -/
theorem nextOrUndecodable_step (s : State) : NextOrUndecodable (step s) := by
  cases hschedule : s.schedule with
  | nil =>
    rw [step_of_schedule_nil hschedule]
    exact nextOrUndecodable_next s
  | cons turn rest =>
    cases hfind : findClaim turn.agent s.inflight with
    | some c =>
      rw [step_of_busy_agent hschedule hfind]
      exact nextOrUndecodable_next _
    | none =>
      rw [step_of_idle_agent hschedule hfind]
      exact nextOrUndecodable_issueNext (startTurn turn rest s)

/-- Settles O12: the requests by `exec_reportsNoFailure`, the steps by `nextOrUndecodable_step`, the moves of a claim
by `reportsNoFailure_advanceClaim`. -/
theorem everyRequestCompletesWithoutFailure : Obligations.EveryRequestCompletesWithoutFailure := by
  refine ⟨exec_reportsNoFailure, fun s => (nextOrUndecodable_step s).ne_fault,
    fun s _ => (nextOrUndecodable_step s).eq_undecodable, fun choice c s hnone => ?_⟩
  exact reportsNoFailure_advanceClaim choice c (by rw [hnone]; rfl)

/-! The observation EIP (R158). -/

theorem eip_eq_true_iff (s : State) (ctx : Nat) : eip s ctx = true ↔ best s ctx ≠ 0 := bne_iff_ne

/-- Settles O28: a winner is eligible (`eligibleFor_best`), and without a winner nothing is
(`not_eligibleFor_of_best_eq_zero`). -/
theorem pendingObservationMeansSomethingEligible : Obligations.PendingObservationMeansSomethingEligible := by
  intro s ctx
  rw [eip_eq_true_iff]
  constructor
  · exact fun hwinner => ⟨best s ctx, eligibleFor_best hwinner⟩
  · rintro ⟨irq, heligible⟩ hzero
    exact not_eligibleFor_of_best_eq_zero hzero irq heligible

end Sys2Proof.Machine
end

section
/-! Reset and the end of a relaxed claim (70_reset_and_hazards.md): the state after construction meets the invariant
(R170, R171), and every move of a claim in flight brings its end nearer (R185). -/

namespace Sys2Proof.Machine

/-! The state after construction and after reset. -/

/-- Every entry of the context arrays is zero after construction, so the unused ones are. -/
theorem spareContextsZero_initial (cfg : Config) : spareContextsZero (State.initial cfg) := by
  intro ctx hctx _
  simp [State.initial]

theorem State.Inv.initial {cfg : Config} (hcfg : cfg.wf = true) : (State.initial cfg).Inv where
  cfgOk := hcfg
  spare := spareContextsZero_initial cfg
  sorted := List.Pairwise.nil
  claims _ hmem := absurd hmem List.not_mem_nil
  atomic _ := rfl

theorem Config.default_wf : Config.default.wf = true := by decide

/-- Settles O44: construction with admitted parameters meets the invariant (`State.Inv.initial`), and reset is
construction with the default ones. -/
theorem resetMeetsTheInvariant : Obligations.ResetMeetsTheInvariant :=
  ⟨fun _ => State.Inv.initial, State.Inv.initial Config.default_wf⟩

/-! The end of a relaxed claim. -/

/-- What a move makes of the claim `c`: it goes on with fewer field operations still to come, or it ends and
answers. -/
inductive NearerItsEnd (c : ClaimInFlight) : State → Prop where
  | goesOn (c' : ClaimInFlight) (s : State) (hagent : c'.agent = c.agent) (hless : movesLeft c' < movesLeft c) :
      NearerItsEnd c (keepClaim c' s)
  | ends (c' : ClaimInFlight) (w : Option Nat) (s : State) (hagent : c'.agent = c.agent) (hform : c'.form = c.form) :
      NearerItsEnd c (finishClaim c' w s)

/-- Nearer its end, in what the list of claims in flight and the response show. -/
theorem NearerItsEnd.observed {c : ClaimInFlight} {t : State} (h : NearerItsEnd c t) :
    (findClaim c.agent t.inflight = none ∧ ∃ w, t.response = some (claimResponse c.form w)) ∨
      ∃ c', findClaim c.agent t.inflight = some c' ∧ movesLeft c' < movesLeft c := by
  cases h with
  | goesOn c' s hagent hless =>
    exact .inr ⟨c', hagent ▸ findClaim_putClaim_same c' s.inflight, hless⟩
  | ends c' w s hagent hform =>
    exact .inl ⟨hagent ▸ findClaim_dropClaim_same c'.agent s.inflight, w, by rw [finishClaim_response, hform]⟩

theorem movesLeft_freshClaim (agent ctx : Nat) (form : ClaimForm) :
    movesLeft (freshClaim agent ctx form) = 4 * 511 + 2 := rfl

section
variable {c : ClaimInFlight} {irq : Nat} {r : ScanReads} {s : State}

/-- The end of an iteration gives up a read of its own, while the next iteration takes at most the four that the
count has for it. -/
theorem nearerItsEnd_afterIteration (hphase : c.phase = .scan irq r) (hleft : 0 < unreadCount c r)
    (r' : ScanReads) : NearerItsEnd c (afterIteration irq (concludeIteration c irq r') s) := by
  have hmoves := movesLeft_of_scan hphase
  generalize hd : concludeIteration c irq r' = d
  have hagent : d.agent = c.agent := hd ▸ concludeIteration_agent c irq r'
  have hform : d.form = c.form := hd ▸ concludeIteration_form c irq r'
  obtain ⟨hnext, heq⟩ | ⟨-, -, heq⟩ | ⟨-, -, heq⟩ := afterIteration_cases irq d s <;> rw [heq]
  · refine .goesOn { d with phase := .scan (irq + 1) noReads } s hagent ?_
    have hfields := unreadCount_noReads_le { d with phase := .scan (irq + 1) noReads }
    have hmoves' := movesLeft_of_scan (c := { d with phase := .scan (irq + 1) noReads }) rfl
    omega
  · exact .ends d none s hagent hform
  · refine .goesOn { d with phase := .clear } s hagent ?_
    have hmoves' : movesLeft { d with phase := .clear } = 2 := rfl
    omega

/-- Every scanning move has one field less to read in its iteration, or ends the iteration. -/
theorem IterationMove.nearerItsEnd {t : State} (h : IterationMove s c irq r t) (hphase : c.phase = .scan irq r) :
    NearerItsEnd c t := by
  cases h with
  | stays f hunread _ =>
    exact .goesOn _ s rfl (movesLeft_lt_of_scan rfl hphase (unreadCount_readField_lt hunread s c.ctx irq))
  | concludes f hunread _ => exact nearerItsEnd_afterIteration hphase (unreadCount_pos hunread) _
  | thresholdOnce hbefore =>
    obtain ⟨-, rfl, hheld⟩ := beforeLoop_eq_true hbefore
    exact .goesOn _ s rfl
      (movesLeft_lt_of_scan hphase hphase (unreadCount_heldThreshold_lt hheld (getThreshold s c.ctx)))

/-- Every move of a possible claim: a field operation of its scan, or one of the two writes of its commit. -/
theorem nearerItsEnd_advanceClaim (hc : claimOk c) (choice : ClaimChoice) :
    NearerItsEnd c (advanceClaim choice c s) := by
  cases hphase : c.phase with
  | scan irq r =>
    obtain ⟨-, -, -, -, hopen⟩ := (claimOk_iff_of_scan hphase).mp hc
    rw [advanceClaim_scan hphase]
    exact (advanceScan_iterationMove hopen choice).nearerItsEnd hphase
  | clear =>
    rw [advanceClaim_clear hphase]
    have hless : movesLeft { c with phase := .record } < movesLeft c := by simp [movesLeft, hphase]
    exact .goesOn { c with phase := .record } _ rfl hless
  | record =>
    rw [advanceClaim_record hphase]
    exact .ends c (some c.best) _ rfl rfl

end

/-- Settles O55: the bound of a fresh claim, and every move brings its end nearer (`nearerItsEnd_advanceClaim`). -/
theorem relaxedClaimEndsWithinItsBound : Obligations.RelaxedClaimEndsWithinItsBound :=
  ⟨movesLeft_freshClaim, fun _ choice _ hc => (nearerItsEnd_advanceClaim hc choice).observed⟩

end Sys2Proof.Machine
end

section
/-! What construction answers (70_reset_and_hazards.md R170, 93_implementation_defined.md U8, U9): one equation for
each branch of `State.construct`, under the conditions that lead to it. -/

namespace Sys2Proof.Machine

variable {n base : Nat} (at' : Atomicity) (m : List ContextRole)

theorem construct_of_tooManyHarts (base : Nat) (hharts : ¬ n < 9) :
    State.construct n base at' m = .refused .tooManyHarts := dif_neg hharts

theorem construct_of_misalignedBase (hharts : n < 9) (hbase : base % 4 ≠ 0) :
    State.construct n base at' m = .refused .misalignedBase := (dif_pos hharts).trans (if_pos hbase)

/-- With `MAX_HARTS` and `BASE` admitted, `CONTEXT_MAP` alone decides. -/
theorem construct_of_admittedHartsAndBase (hharts : n < 9) (hbase : base % 4 = 0) :
    State.construct n base at' m =
      if (⟨⟨n, hharts⟩, base, at', m⟩ : Config).contextMapOk then .next (State.initial ⟨⟨n, hharts⟩, base, at', m⟩)
      else .refused .badContextMap :=
  (dif_pos hharts).trans (if_neg (not_not_intro hbase))

variable {at' m}

theorem construct_of_badContextMap (hharts : n < 9) (hbase : base % 4 = 0)
    (hmap : (⟨⟨n, hharts⟩, base, at', m⟩ : Config).contextMapOk = false) :
    State.construct n base at' m = .refused .badContextMap := by
  rw [construct_of_admittedHartsAndBase at' m hharts hbase, hmap, if_neg Bool.false_ne_true]

theorem construct_of_admitted (hharts : n < 9) (hbase : base % 4 = 0)
    (hmap : (⟨⟨n, hharts⟩, base, at', m⟩ : Config).contextMapOk = true) :
    State.construct n base at' m = .next (State.initial ⟨⟨n, hharts⟩, base, at', m⟩) :=
  (construct_of_admittedHartsAndBase at' m hharts hbase).trans (if_pos hmap)

end Sys2Proof.Machine
end

section
namespace Sys2Proof.Machine

/-- Settles O43: one equation of `State.construct` for each of the four cases. -/
theorem constructionRefusesBadParameters : Obligations.ConstructionRefusesBadParameters := fun _ base at' m =>
  ⟨fun hmany => construct_of_tooManyHarts at' m base (Nat.not_lt.mpr hmany), fun hharts =>
    ⟨construct_of_misalignedBase at' m hharts, construct_of_badContextMap hharts, construct_of_admitted hharts⟩⟩

end Sys2Proof.Machine
end
